-- ==== Sys2Proof/Word.lean ====
section
/-! DEFINITION. The word types of the fabric: a host integer operand (R12, R137), a byte, a handle (R102), and the
keyed tables that hold units by handle and memory cells by offset. -/

namespace Sys2Proof

/-- A memory cell, a flag value code or a byte of an image. -/
abbrev Byte := BitVec 8

/-- A host integer operand of `HOSTW` = 32 bits (R12, R137). -/
abbrev Word := BitVec 32

/-- The 8-bit index of a unit within its kind (R102). -/
abbrev Handle := BitVec 8

/-- Data kept by key, keys rising: the units of one kind by handle, the cells of one memory by offset. -/
abbrev Table (α : Type) := List (Nat × α)

end Sys2Proof
end

