-- ==== Sys2Proof/Config.lean ====
section
/-! DEFINITION. The parameters of a fabric instance that R11 fixes to one value, and the model's default for `FUEL`. The
parameters R11 leaves open to a wiring or a platform are fields of the machine's state. The one parameter that is a free value,
`Config.listenerReaction` (D42, log 6), stands in Machine/Listener.lean, after the types it speaks of. -/

namespace Sys2Proof.Config

/-- The widest bus, in bits (R11, R131). -/
def maxBusWidth : Nat := 31

/-- `CELLW`, the width of one memory cell in bits (R11, R30). -/
def cellWidth : Nat := 8

/-- Addresses, sizes and translated sums are below this bound (R11, R14, R301). -/
def addressLimit : Nat := 2 ^ 31

/-- `CART_WINDOW`, first address (R11, R254). -/
def cartFirst : Nat := 0x8000

/-- `CART_WINDOW`, last address (R11, R254). -/
def cartLast : Nat := 0xFFFF

/-- The mapper number of the only supported cartridge variant (R6, R257). -/
def supportedMapper : Byte := 0#8

/-- DESIGN CHOICE (log 5, safe): the depth of cascade the machine starts with. R300 and R11 leave `FUEL` to the model. -/
def cascadeFuel : Nat := 4096

end Sys2Proof.Config
end

