-- ==== Sys2Proof/Syntax.lean ====
section
/-! DEFINITION. The operations of the fabric: one constructor of `Instr` per row of the opcode table, with the operand
forms of R92 (commands), R94 to R97 (configuration records) and R98 (delivery words). -/

namespace Sys2Proof

/-- Two buses and a flag used together (R2, R18). -/
structure Triple where
  abus : Handle
  dbus : Handle
  flag : Handle
deriving DecidableEq, Repr

/-- A listener reference as a record carries it: `kind[15:8] ++ index[7:0]` (R96). -/
structure ListenerRef where
  kind : Byte
  index : Handle
deriving DecidableEq, Repr

/-- The operand field of a delivery word (R98): the delivered value code, the handle of the dispatching flag or clock,
and the field `imm[31:16]`, which is 0 in every word a dispatcher forms. -/
structure Delivery where
  zero : BitVec 16
  src : Handle
  val : Byte
deriving DecidableEq, Repr

/-- The 33 operations (R92, R94, R98), in the opcode table's order. -/
inductive Instr where
  /-- `BRD b` (R132). -/
  | brd (b : Handle)
  /-- `BWC b, v` (R133). -/
  | bwc (b : Handle) (v : Word)
  /-- `BWM b, v` (R134). -/
  | bwm (b : Handle) (v : Word)
  /-- `FGET f` (R153). -/
  | fget (f : Handle)
  /-- `FSET f, val` (R160). -/
  | fset (f : Handle) (val : Byte)
  /-- `TICK c` (R176). -/
  | tick (c : Handle)
  /-- `TICKN c, n` (R177), n signed. -/
  | tickn (c : Handle) (n : Word)
  /-- `MXLT k, a` (R221), a of 31 bits. -/
  | mxlt (k : Handle) (a : BitVec 31)
  /-- `MBSEL k, bank` (R225). -/
  | mbsel (k : Handle) (bank : Byte)
  /-- `BNEW b, width` (R131), width signed. -/
  | bnew (b : Handle) (width : Word)
  /-- `FNEW f, init` (R151). -/
  | fnew (f : Handle) (init : Byte)
  /-- `CNEW c` (R171). -/
  | cnew (c : Handle)
  /-- `DNEW c, period` (R172), period signed. -/
  | dnew (c : Handle) (period : Word)
  /-- `RAMNEW m, start, last, A, D, F [, contents]` (R191), bounds signed. -/
  | ramnew (m : Handle) (start last : Word) (t : Triple) (contents : Option (List Byte))
  /-- `ROMNEW m, start, last, A, D, F [, contents]` (R192), bounds signed. -/
  | romnew (m : Handle) (start last : Word) (t : Triple) (contents : Option (List Byte))
  /-- `MAPNEW.I k, first, last, outer, inner, mem` (R216), bounds signed. -/
  | mapnewI (k : Handle) (first last : Word) (outer inner : Triple) (mem : Handle)
  /-- `MAPNEW.M k, first, last, outer, inner, mem, mask` (R217), bounds signed. -/
  | mapnewM (k : Handle) (first last : Word) (outer inner : Triple) (mem : Handle) (mask : Word)
  /-- `MAPNEW.B k, first, last, outer, inner, mem, bases` (R218), bounds signed. -/
  | mapnewB (k : Handle) (first last : Word) (outer inner : Triple) (mem : Handle) (bases : List Word)
  /-- `FADDL f, l` (R152). -/
  | faddl (f : Handle) (l : ListenerRef)
  /-- `CADDL c, l` (R173). -/
  | caddl (c : Handle) (l : ListenerRef)
  /-- `CARTNEW q, mapperId, mirroring, outer, inner, mem, map, prg, chr` (R253). -/
  | cartnew (q : Handle) (mapperId : Byte) (mirroring : Bool) (outer inner : Triple) (mem map : Handle)
      (prg chr : List Byte)
  /-- `DIV.ONT` (R178): a pulse reaches divider d. -/
  | divOnt (d : Handle) (dw : Delivery)
  /-- `EXT.ONT` (R179): a pulse reaches external listener x. -/
  | extOnt (x : Handle) (dw : Delivery)
  /-- `RAM.RD` (R196): a READ-type value reaches RAM m. -/
  | ramRd (m : Handle) (dw : Delivery)
  /-- `RAM.WR` (R197): a WRITE-type value reaches RAM m. -/
  | ramWr (m : Handle) (dw : Delivery)
  /-- `RAM.OTH` (R198): a value of class OTHER reaches RAM m. -/
  | ramOth (m : Handle) (dw : Delivery)
  /-- `ROM.RD` (R199): a READ-type value reaches ROM m. -/
  | romRd (m : Handle) (dw : Delivery)
  /-- `ROM.WR` (R200): a WRITE-type value reaches ROM m. -/
  | romWr (m : Handle) (dw : Delivery)
  /-- `ROM.OTH` (R201): a value of class OTHER reaches ROM m. -/
  | romOth (m : Handle) (dw : Delivery)
  /-- `MAP.RD` (R227): a READ-type value reaches mapper k. -/
  | mapRd (k : Handle) (dw : Delivery)
  /-- `MAP.WR` (R228): a WRITE-type value reaches mapper k. -/
  | mapWr (k : Handle) (dw : Delivery)
  /-- `MAP.OTH` (R229): a value of class OTHER reaches mapper k. -/
  | mapOth (k : Handle) (dw : Delivery)
  /-- `EXT.ONF` (R161): a flag change reaches external listener x. -/
  | extOnf (x : Handle) (dw : Delivery)
deriving DecidableEq, Repr

/-- The run-phase commands, and only these, may be issued in the run phase by the driver or by an external listener
inside a cascade (R92). -/
def Instr.isCommand : Instr → Bool
  | .brd _ | .bwc _ _ | .bwm _ _ | .fget _ | .fset _ _ | .tick _ | .tickn _ _ | .mxlt _ _ | .mbsel _ _ => true
  | .bnew _ _ | .fnew _ _ | .cnew _ | .dnew _ _ | .ramnew _ _ _ _ _ | .romnew _ _ _ _ _ | .mapnewI _ _ _ _ _ _
  | .mapnewM _ _ _ _ _ _ _ | .mapnewB _ _ _ _ _ _ _ | .faddl _ _ | .caddl _ _ | .cartnew _ _ _ _ _ _ _ _ _ => false
  | .divOnt _ _ | .extOnt _ _ | .ramRd _ _ | .ramWr _ _ | .ramOth _ _ | .romRd _ _ | .romWr _ _ | .romOth _ _
  | .mapRd _ _ | .mapWr _ _ | .mapOth _ _ | .extOnf _ _ => false

/-- The reactions: carried by delivery words, never accepted from an agent (R90, R104). -/
def Instr.isReaction : Instr → Bool
  | .brd _ | .bwc _ _ | .bwm _ _ | .fget _ | .fset _ _ | .tick _ | .tickn _ _ | .mxlt _ _ | .mbsel _ _ => false
  | .bnew _ _ | .fnew _ _ | .cnew _ | .dnew _ _ | .ramnew _ _ _ _ _ | .romnew _ _ _ _ _ | .mapnewI _ _ _ _ _ _
  | .mapnewM _ _ _ _ _ _ _ | .mapnewB _ _ _ _ _ _ _ | .faddl _ _ | .caddl _ _ | .cartnew _ _ _ _ _ _ _ _ _ => false
  | .divOnt _ _ | .extOnt _ _ | .ramRd _ _ | .ramWr _ _ | .ramOth _ _ | .romRd _ _ | .romWr _ _ | .romOth _ _
  | .mapRd _ _ | .mapWr _ _ | .mapOth _ _ | .extOnf _ _ => true

/-- Why a byte sequence is no operation (R93, R104, R105): each of these makes the word refused. -/
inductive DecodeError where
  /-- The bytes end inside a word or a payload (R93). That such bytes are refused, where the rest might be waited for, is a DESIGN CHOICE
  (log 20). Safe: nothing is carried out. -/
  | truncated
  /-- The `op` is in none of the tables of R92, R94 and R98 (R104). Safe: nothing is carried out. -/
  | unassignedOp (op : Byte)
  /-- A field that must be 0 is not, or a reserved value stands in one (R95, R97, R105). Safe: nothing is carried out. -/
  | reservedField (op : Byte)
deriving DecidableEq, Repr

end Sys2Proof
end

