-- ==== Sys2Proof/Machine/State.lean ====
section
/-! DEFINITION. The state of the fabric (R20): every unit with its configuration and its state, the dispatch stack, the external
listeners' behaviours and private states, and the model's own interface fields, all plain data. The errors of R281, the refusals of R301 and the
three outcomes of R15. -/

namespace Sys2Proof.Machine

/-- The two phases (R305). -/
inductive Phase where
  | wiring
  | run
deriving DecidableEq, Repr

/-- The classes of flag values (R26, R101). -/
inductive ValueClass where
  | read
  | write
  | other
deriving DecidableEq, Repr

/-- A listener on a flag's or a clock's list (R96). -/
inductive Listener where
  | divider (d : Handle)
  | memory (m : Handle)
  | mapper (k : Handle)
  | external (x : Handle)
deriving DecidableEq, Repr

/-- A bus (R23): configuration `width`, state `value`. -/
structure Bus where
  width : Nat
  value : Word
deriving DecidableEq, Repr

/-- A flag (R25): configuration `set` and `listeners`, state `value`. -/
structure Flag where
  set : BitVec 4
  value : Byte
  listeners : List Listener
deriving DecidableEq, Repr

/-- What makes a clock a divider (R28): configuration `period`, state `counter`. -/
structure Divider where
  period : Nat
  counter : Nat
deriving DecidableEq, Repr

/-- A clock, plain or a divider (R27, R28). -/
structure Clock where
  divider : Option Divider
  listeners : List Listener
deriving DecidableEq, Repr

/-- The two kinds of memory (R29). -/
inductive MemKind where
  | ram
  | rom
deriving DecidableEq, Repr

/-- The cells of one memory by offset (R29, R30): offsets strictly rising, no listed cell 0, a cell not listed holds 0. -/
abbrev Memory := List Host.Cell

/-- A memory (R29): configuration but for `contents`. -/
structure Mem where
  kind : MemKind
  start : Nat
  last : Nat
  abus : Handle
  dbus : Handle
  flag : Handle
  contents : Memory
deriving DecidableEq, Repr

/-- The three kinds of mapper with their own fields (R31, R32); `sel`, the bank selector, is state, the rest configuration. -/
inductive MapKind where
  | identity
  | mirrored (mask : Word)
  | banked (bases : List Word) (sel : Byte)
deriving DecidableEq, Repr

/-- A mapper (R31): configuration but for the selector inside `kind`. -/
structure Mapper where
  kind : MapKind
  first : Nat
  last : Nat
  outer : Triple
  inner : Triple
  mem : Handle
deriving DecidableEq, Repr

/-- A cartridge (R33), immutable after construction (R259). -/
structure Cart where
  prg : List Byte
  chr : List Byte
  mirroring : Bool
  mapperId : Byte
deriving DecidableEq, Repr

/-- The event a dispatch delivers: a pulse of clock c, or a change of flag f with the value set (R18, R156). -/
inductive Event where
  | onTick (c : Handle)
  | onFlagChange (val : Byte) (f : Handle)
deriving DecidableEq, Repr

/-- The errors (R281) with their payloads. The last is R287's "error of its own" of an external listener (log 7). -/
inductive FabricError where
  | invalidBusWidth (width : Int)
  | invalidBusData (bus : Handle) (value : Word)
  | invalidAddressRange (lo hi : Int)
  | sizeMismatch (expected : List Nat) (actual : Nat)
  | unsupportedMapper (id : Byte)
  | signalPropagation (cause : FabricError)
  | ofListener (x : Handle) (code : Nat)
deriving DecidableEq, Repr

/-- The two-place operations a behaviour may compute with, on natural numbers; a comparison is 1 or 0. -/
inductive Binary where
  | add
  | sub
  | mul
  | div
  | mod
  | lt
  | eq
deriving DecidableEq, Repr

/-- A number a behaviour reads or computes at the moment of a delivery, from the event, the fabric state and the listener's private state
(R9, R161); 0 where what it names is absent (log 6). -/
inductive Quantity where
  | lit (n : Nat)
  /-- 1 for a pulse, 0 for a flag change. -/
  | isPulse
  /-- The value delivered; 0 for a pulse, as in the delivery word (R98). -/
  | value
  /-- The handle of the flag or clock dispatched. -/
  | source
  | bus (b : Handle)
  | flag (f : Handle)
  | counter (d : Handle)
  | cell (m : Handle) (offset : Quantity)
  | selector (k : Handle)
  /-- An element of the private state. -/
  | own (i : Nat)
  | op (o : Binary) (x y : Quantity)
  /-- `x` where `c` is not 0, else `y`. -/
  | choose (c x y : Quantity)
deriving DecidableEq, Repr

/-- A run-phase command (R92) whose operands a behaviour computes; each is taken modulo its field. -/
inductive Order where
  | brd (b : Quantity)
  | bwc (b v : Quantity)
  | bwm (b v : Quantity)
  | fget (f : Quantity)
  | fset (f val : Quantity)
  | tick (c : Quantity)
  | tickn (c n : Quantity)
  | mxlt (k a : Quantity)
  | mbsel (k bank : Quantity)
deriving DecidableEq, Repr

/-- A choice among errors: which of them a listener handles (R9, D42). -/
inductive ErrorTest where
  | never
  | always
  /-- This error. -/
  | is (e : FabricError)
  /-- The errors of this root cause (R287). -/
  | cause (e : FabricError)
  /-- The errors whose root cause is InvalidBusData of this bus, whatever the value. -/
  | busData (b : Handle)
  /-- The errors of this number (R106). -/
  | code (n : Nat)
  | not (t : ErrorTest)
  | both (t u : ErrorTest)
  | either (t u : ErrorTest)
deriving DecidableEq, Repr

/-- An order, and which errors of it the listener handles (R9, R298). -/
structure RuleCommand where
  order : Order
  handles : ErrorTest
deriving DecidableEq, Repr

/-- One case of a behaviour: taken when `guard` is not 0, it yields these commands, this failure and this private state. -/
structure Rule where
  guard : Quantity
  commands : List RuleCommand
  failure : Option Quantity
  own : List Quantity
deriving DecidableEq, Repr

/-- The behaviour function of an external listener (R9, R34, R161), configuration: written out, as the first case whose guard holds (and
with none, nothing is issued and the private state stays), or the n-th of the functions the spec leaves open (D42), of which nothing is
known (DESIGN CHOICE for the form, log 6). -/
inductive Behaviour where
  | rules (rs : List Rule)
  | parameter (n : Nat)
deriving DecidableEq, Repr

/-- The state of an external listener: its private state (R34), and the events delivered to it so far, oldest first, a record that only
the model keeps and nothing reads (DESIGN CHOICE, log 6, safe). -/
structure Ext where
  own : List Nat
  seen : List Event
deriving DecidableEq, Repr

/-- The outcome of a step as its issuer gets it (R15, R40): `ok` with its result if it has one, or `err` with its error. -/
inductive Report where
  | ok (result : Option Word)
  | err (e : FabricError)
deriving DecidableEq, Repr

/-- One frame of the dispatch stack (R35): the flag or clock dispatched, the index of the listener now running, and for a flag the
value the dispatch carries (R36). -/
inductive Frame where
  | flag (f : Handle) (index : Nat) (val : Byte)
  | clock (c : Handle) (index : Nat)
deriving DecidableEq, Repr

/-- The fabric (R20). Units of each kind are kept by handle (R102). The fields from `platform` on are the model's own. -/
structure State where
  /-- Wiring or run phase (R305). -/
  phase : Phase
  /-- Buses (R23). -/
  buses : Table Bus
  /-- Flags (R25). -/
  flags : Table Flag
  /-- Plain clocks and dividers, in one handle space (R27, R28). -/
  clocks : Table Clock
  /-- RAMs and ROMs, in one handle space (R29). -/
  mems : Table Mem
  /-- Mappers (R31). -/
  maps : Table Mapper
  /-- Cartridges (R33). -/
  carts : Table Cart
  /-- External listeners' behaviour functions (R20, R34), configuration; one not listed is an observer (R161, log 6). -/
  behaviours : Table Behaviour
  /-- External listeners' states (R34); one not listed has an empty private state and has seen nothing (log 6). -/
  exts : Table Ext
  /-- The dispatch stack, innermost frame first; empty between steps (R35). -/
  stack : List Frame
  /-- The flag values a platform defines beside the four of R100, with their classes: the parameter `class(v)` (R11, R26, log 8). -/
  platform : List (Byte × ValueClass)
  /-- The parameter `FUEL`: how deep a cascade may go before the model refuses (R11, R300, log 5). -/
  fuel : Nat
  /-- The outcome of the last step, absent before the first (R15, log 4). -/
  report : Option Report
  /-- The bytes of the operations the driver is still going to issue (R8, R103, log 2). -/
  driver : List Byte
  /-- A delivery word presented to one listener on its own (R40, R90, log 3). -/
  delivery : Option (BitVec 48)
deriving DecidableEq, Repr

/-- What stops the machine with a fault: nothing. Every error of the spec ends its operation and the fabric goes on (R293). -/
inductive Fault where
deriving DecidableEq, Repr

/-- The kinds of unit a handle can name (R102). -/
inductive UnitKind where
  | bus
  | flag
  | clock
  | memory
  | mapper
  | cartridge
deriving DecidableEq, Repr

/-- The refusals (R15, R301): the operands, the wiring or the phase are outside what the spec gives a meaning. Each is safe: the model
stops where the fabric has no behaviour, so nothing can be proved of what follows. -/
inductive Refusal where
  /-- An arm of `exec` without a meaning; no arm answers so. -/
  | notModelled (mnemonic : String)
  /-- `step`: the bytes issued are no operation (R104, R105), or end inside one (DESIGN CHOICE, log 20). Safe. -/
  | undecodable (why : DecodeError)
  /-- `step`: an agent issued a delivery word (R104). Safe. -/
  | deliveryFromAgent
  /-- `step`: the word at the delivery port is not a delivery word (R90). Safe. -/
  | notADelivery
  /-- Any operation: a handle names no unit of its kind (R102). Safe. -/
  | noSuchUnit (kind : UnitKind) (h : Handle)
  /-- A constructor: the new handle is already in use (R38 item 8, R301). Safe. -/
  | handleInUse (kind : UnitKind) (h : Handle)
  /-- A configuration record issued in the run phase (R104, R305). Safe. -/
  | wiringInRunPhase
  /-- FSET, FNEW: a value outside the flag's set, or undefined (R151, R162). A memory's or mapper's reaction: an undefined value, which
  selects none (R99, R100). Safe. -/
  | flagValue (f : Handle) (val : Byte)
  /-- FADDL, CADDL: the listener is already on the list (R152, R173). Safe. -/
  | listenerListed
  /-- FADDL, CADDL: a listener reference of a kind not allowed (R96). Safe. -/
  | listenerKind
  /-- DNEW: a period less than 1 (R172). Safe. -/
  | badPeriod
  /-- MAPNEW.B: no bank (R218). Safe. -/
  | noBanks
  /-- MBSEL, or the translation of a banked mapper: a bank index outside the bank table (R225). Safe. -/
  | bankIndex
  /-- MBSEL on a mapper of kind I or M (R225). Safe. -/
  | notBanked
  /-- RAMNEW on a data bus wider than a cell, or a data bus value wider than a cell reaching a RAM (R38 item 7, log 16). Safe. -/
  | ramBusTooWide
  /-- A mapper whose inner memory is not on its inner triple (R38 item 5). Safe. -/
  | mapperMisplaced
  /-- A mapper whose two flags are the same (R38 item 6). Safe. -/
  | mapperFlagsEqual
  /-- CADDL: the wiring would make a cycle of dividers (R173, R183). Safe. -/
  | dividerCycle
  /-- TICK, TICKN, DIV.ONT: a pulse of the clock is already in progress (R183). Safe. -/
  | clockBusy (c : Handle)
  /-- An address, size, mask, bank base or translated sum of 2^31 or more (R14, R301). Safe. -/
  | tooLarge
  /-- The cascade is deeper than `fuel` (R300). Safe. -/
  | outOfFuel
  /-- A reaction whose handle names no unit of the kind the delivery word's `op` says: no RAM, no ROM, no divider (R98, R102, log 10).
  Safe. -/
  | wrongUnit
  /-- A delivery word with a non-zero reserved field (R98, R105, log 10). Safe. -/
  | reservedDelivery
  /-- An external listener issues something that is no run-phase command (R92). Safe. -/
  | notACommand
deriving DecidableEq, Repr

/-- The outcome of an operation (R15): `ok` with the state reached and its result if it has one, `err` with the state reached when
the error was raised, or a refusal, which carries no state. -/
inductive Res where
  | ok (s : State) (result : Option Word)
  | err (s : State) (e : FabricError)
  | refused (r : Refusal)
deriving DecidableEq, Repr

/-- The fabric before its first configuration record (R320, log 1): no unit is constructed, the stack is empty (R41); each record
then gives its unit the reset values of R41. External listeners only observe and have empty private states (DESIGN CHOICE, log 6). The
model's own fields: no platform value is defined (R100, log 8), `FUEL` is the default
(DESIGN CHOICE, log 5), no step has ended (DESIGN CHOICE, log 4), the driver has nothing to issue and no delivery is presented
(DESIGN CHOICE, logs 2 and 3). -/
def State.reset : State where
  phase := .wiring
  buses := []
  flags := []
  clocks := []
  mems := []
  maps := []
  carts := []
  behaviours := []
  exts := []
  stack := []
  platform := []
  fuel := Config.cascadeFuel
  report := none
  driver := []
  delivery := none

end Sys2Proof.Machine
end

