-- ==== Sys2Proof/Machine/Flags.lean ====
section
/-! DEFINITION. Flag values: codes, sets and classes (R26, R100, R101, R162). -/

namespace Sys2Proof.Machine

/-- READ (R100). -/
def valRead : Byte := 0x00#8

/-- WRITE (R100). -/
def valWrite : Byte := 0x01#8

/-- HALT (R100). -/
def valHalt : Byte := 0x10#8

/-- START (R100). -/
def valStart : Byte := 0x11#8

/-- The set a value code belongs to: `set[7:4]` (R100). -/
def codeSet (val : Byte) : BitVec 4 := val.extractLsb' 4 4

/-- The class a platform gives a further value, if it defines it (R11, R26, log 8). -/
def platformClass : List (Byte × ValueClass) → Byte → Option ValueClass
  | [], _ => none
  | (v, c) :: rest, val => if v = val then some c else platformClass rest val

/-- `class(val)` (R101), absent for a code that is not defined (R100). -/
def State.classOf (s : State) (val : Byte) : Option ValueClass :=
  if val = valRead then some .read
  else if val = valWrite then some .write
  else if val = valHalt then some .other
  else if val = valStart then some .other
  else platformClass s.platform val

/-- A value code is defined (R100). -/
def State.definesValue (s : State) (val : Byte) : Bool := (s.classOf val).isSome

/-- A value code is a defined member of a set (R162). -/
def State.memberOf (s : State) (set : BitVec 4) (val : Byte) : Bool := s.definesValue val && codeSet val == set

end Sys2Proof.Machine
end

