-- ==== Sys2Proof/Machine/Table.lean ====
section
/-! DEFINITION. Tables kept by key, keys rising: reading, writing and removing an entry, and the canonical form. -/

namespace Sys2Proof.Table

/-- The entry of a key. -/
def look {α : Type} : Table α → Nat → Option α
  | [], _ => none
  | (j, v) :: t, k => if j = k then some v else look t k

/-- The table with the entry of key `k` made `v`; keys stay rising. -/
def put {α : Type} (k : Nat) (v : α) : Table α → Table α
  | [] => [(k, v)]
  | (j, w) :: t => if k < j then (k, v) :: (j, w) :: t else if k = j then (k, v) :: t else (j, w) :: put k v t

/-- The table without an entry of key `k`. -/
def remove {α : Type} (k : Nat) (t : Table α) : Table α := t.filter fun p => p.1 ≠ k

/-- The keys rise strictly. -/
abbrev Rising {α : Type} (t : Table α) : Prop := t.Pairwise fun p q => p.1 < q.1

end Sys2Proof.Table
end

