-- ==== Sys2Proof/Machine/Memory.lean ====
section
/-! DEFINITION. The cells of a memory (R29, R30): reading and writing one cell, the contents array of a constructor, and the
canonical form. -/

namespace Sys2Proof.Machine.Memory

/-- What a cell that is not listed holds: 0, "reading an untouched address in range returns `0`" (R30). -/
def untouched : Byte := 0#8

/-- `contents[i]` (R13). -/
def read (mem : Memory) (i : Nat) : Byte := (Table.look mem i).getD untouched

/-- `contents[i] <- v` (R13); a cell that holds 0 is not listed. -/
def write (mem : Memory) (i : Nat) (v : Byte) : Memory :=
  if v = untouched then Table.remove i mem else Table.put i v mem

/-- The cells of a construction array from offset `i` on (R30, R191). -/
def ofArray (i : Nat) : List Byte → Memory
  | [] => []
  | v :: vs => if v = untouched then ofArray (i + 1) vs else (i, v) :: ofArray (i + 1) vs

/-- The canonical form of contents of `size` cells: offsets strictly rising and below `size`, no listed cell 0. -/
abbrev wf (size : Nat) (mem : Memory) : Prop :=
  Table.Rising mem ∧ ∀ p ∈ mem, p.1 < size ∧ p.2 ≠ untouched

end Sys2Proof.Machine.Memory
end

