-- ==== Sys2Proof/Machine/Ops.lean ====
section
/-! DEFINITION. The operations all meanings share: reading and writing units by handle, the checked and the masking bus write,
what an error does (raise, wrap, no rollback), the dispatch loop, and the step boundary that reports an outcome to the issuer. -/

namespace Sys2Proof.Machine

/-! ## Units by handle (R102) -/

def State.bus? (s : State) (b : Handle) : Option Bus := Table.look s.buses b.toNat
def State.flag? (s : State) (f : Handle) : Option Flag := Table.look s.flags f.toNat
def State.clock? (s : State) (c : Handle) : Option Clock := Table.look s.clocks c.toNat
def State.mem? (s : State) (m : Handle) : Option Mem := Table.look s.mems m.toNat
def State.map? (s : State) (k : Handle) : Option Mapper := Table.look s.maps k.toNat
def State.cart? (s : State) (q : Handle) : Option Cart := Table.look s.carts q.toNat

/-- The state of external listener x; every index 0 to 255 names one (R102, log 6). -/
def State.ext (s : State) (x : Handle) : Ext := (Table.look s.exts x.toNat).getD ⟨[], []⟩

/-- The behaviour of external listener x: an observer's where none is listed (R161, log 6). -/
def State.behaviour (s : State) (x : Handle) : Behaviour := (Table.look s.behaviours x.toNat).getD (.rules [])

def State.putBus (s : State) (b : Handle) (u : Bus) : State := { s with buses := Table.put b.toNat u s.buses }
def State.putFlag (s : State) (f : Handle) (u : Flag) : State := { s with flags := Table.put f.toNat u s.flags }
def State.putClock (s : State) (c : Handle) (u : Clock) : State := { s with clocks := Table.put c.toNat u s.clocks }
def State.putMem (s : State) (m : Handle) (u : Mem) : State := { s with mems := Table.put m.toNat u s.mems }
def State.putMap (s : State) (k : Handle) (u : Mapper) : State := { s with maps := Table.put k.toNat u s.maps }
def State.putCart (s : State) (q : Handle) (u : Cart) : State := { s with carts := Table.put q.toNat u s.carts }
def State.putExt (s : State) (x : Handle) (u : Ext) : State := { s with exts := Table.put x.toNat u s.exts }
def State.withStack (s : State) (fs : List Frame) : State := { s with stack := fs }
def State.withReport (s : State) (r : Report) : State := { s with report := some r }

/-- The run phase begins with the first run-phase command and never ends (R305). -/
def State.enterRun (s : State) : State := { s with phase := .run }

/-- The unit a handle names, or the refusal of R102. -/
def withBus (s : State) (b : Handle) (k : Bus → Res) : Res :=
  match s.bus? b with
  | none => .refused (.noSuchUnit .bus b)
  | some u => k u

def withFlag (s : State) (f : Handle) (k : Flag → Res) : Res :=
  match s.flag? f with
  | none => .refused (.noSuchUnit .flag f)
  | some u => k u

def withClock (s : State) (c : Handle) (k : Clock → Res) : Res :=
  match s.clock? c with
  | none => .refused (.noSuchUnit .clock c)
  | some u => k u

def withMem (s : State) (m : Handle) (k : Mem → Res) : Res :=
  match s.mem? m with
  | none => .refused (.noSuchUnit .memory m)
  | some u => k u

def withMap (s : State) (k : Handle) (c : Mapper → Res) : Res :=
  match s.map? k with
  | none => .refused (.noSuchUnit .mapper k)
  | some u => c u

/-! ## Outcomes and errors (R15, R280 to R298) -/

/-- `raise e`: the operation ends with `err`, and the state written so far is kept (R13, R292). -/
def raise (e : FabricError) (s : State) : Res := .err s e

/-- `wrap(e)` (R13, R286). -/
def wrap (e : FabricError) : FabricError := .signalPropagation e

/-- Carry on from an `ok`; an error or a refusal ends the operation there (R290, R292). -/
def Res.andThen (r : Res) (k : State → Res) : Res :=
  match r with
  | .ok s _ => k s
  | .err s e => .err s e
  | .refused w => .refused w

/-- An error is wrapped once (R230, R286); anything else passes. -/
def Res.wrapped (r : Res) : Res :=
  match r with
  | .ok s v => .ok s v
  | .err s e => .err s (wrap e)
  | .refused w => .refused w

/-- The dispatch stack an `ok` or an `err` leaves: every dispatch the operation began is finished or unwound (R35, R164). -/
def Res.unwound (r : Res) (stack : List Frame) : Res :=
  match r with
  | .ok s v => .ok (s.withStack stack) v
  | .err s e => .err (s.withStack stack) e
  | .refused w => .refused w

/-- `rootCause(e)` (R287). -/
def FabricError.rootCause : FabricError → FabricError
  | .signalPropagation cause => cause.rootCause
  | .invalidBusWidth w => .invalidBusWidth w
  | .invalidBusData b v => .invalidBusData b v
  | .invalidAddressRange lo hi => .invalidAddressRange lo hi
  | .sizeMismatch es n => .sizeMismatch es n
  | .unsupportedMapper id => .unsupportedMapper id
  | .ofListener x code => .ofListener x code

/-- The number of an error (R106, R281); an external listener's own error has none. -/
def FabricError.code : FabricError → Option Nat
  | .invalidBusWidth _ => some 1
  | .invalidBusData _ _ => some 2
  | .invalidAddressRange _ _ => some 3
  | .sizeMismatch _ _ => some 4
  | .unsupportedMapper _ => some 5
  | .signalPropagation _ => some 6
  | .ofListener _ _ => none

/-- An error at the step boundary, the fabric's whole "trap entry" (R297): nothing is saved and nothing undone, the state is the one
reached, and the error goes back to the issuer. -/
def takeError (e : FabricError) (s : State) : Host.Outcome State Fault Refusal := .next (s.withReport (.err e))

/-- The end of a step (R15, R16): `ok` and `err` both leave a next state, with the outcome reported to the issuer (R293, log 4). -/
def settle (r : Res) : Host.Outcome State Fault Refusal :=
  match r with
  | .ok s v => .next (s.withReport (.ok v))
  | .err s e => takeError e s
  | .refused w => .refused w

/-! ## Bus writes (R133 to R135) -/

/-- `mask(w) = 2^w - 1` (R12, R14). -/
def maskOf (width : Nat) : Word := BitVec.ofNat 32 (2 ^ width - 1)

/-- No bit of `v` is set outside the mask (R133). -/
def fits (width : Nat) (v : Word) : Bool := v &&& ~~~(maskOf width) == 0#32

/-- `BUS[b] <-c v` (R133): raises InvalidBusData and leaves the bus as it was when `v` does not fit (R292). -/
def busWriteChecked (b : Handle) (v : Word) (s : State) : Res :=
  withBus s b fun u =>
    if fits u.width v then .ok (s.putBus b { u with value := v }) none else raise (.invalidBusData b v) s

/-- `BUS[b] <-m v` (R134): stores the bits that fit and answers whether all did. -/
def busWriteMasked (b : Handle) (v : Word) (s : State) : Res :=
  withBus s b fun u =>
    .ok (s.putBus b { u with value := v &&& maskOf u.width }) (some (if fits u.width v then 1#32 else 0#32))

/-! ## Cells (R13, R195) -/

/-- `MemRead` of the cell at an offset of memory unit `u` (R13), as a bus operand. -/
def cellWord (u : Mem) (offset : Nat) : Word := (Memory.read u.contents offset).setWidth 32

/-- `MemWrite` of a data-bus value to the cell at an offset of memory m (R13, R197). A value wider than a cell cannot occur in a
well-formed wiring (R38 item 7, R67) and is refused (log 16). -/
def cellStore (m : Handle) (u : Mem) (offset : Nat) (v : Word) (s : State) : Res :=
  if v.toNat < 2 ^ Config.cellWidth then
    .ok (s.putMem m { u with contents := Memory.write u.contents offset (v.setWidth 8) }) none
  else .refused .ramBusTooWide

/-! ## Dispatch (R154 to R164, R174 to R176) -/

/-- The delivery word of a pulse of clock c to a listener, as the operation its `op` and `unit` select (R98). -/
def tickReaction (c : Handle) : Listener → Except Refusal Instr
  | .divider d => .ok (.divOnt d ⟨0#16, c, 0#8⟩)
  | .external x => .ok (.extOnt x ⟨0#16, c, 0#8⟩)
  | .memory _ => .error .listenerKind
  | .mapper _ => .error .listenerKind

/-- The reaction of a memory of the given kind to a value of the given class (R99). -/
def memoryReaction (kind : MemKind) (cls : ValueClass) (m : Handle) (dw : Delivery) : Instr :=
  match kind, cls with
  | .ram, .read => .ramRd m dw
  | .ram, .write => .ramWr m dw
  | .ram, .other => .ramOth m dw
  | .rom, .read => .romRd m dw
  | .rom, .write => .romWr m dw
  | .rom, .other => .romOth m dw

/-- The reaction of a mapper to a value of the given class (R99). -/
def mapperReaction (cls : ValueClass) (k : Handle) (dw : Delivery) : Instr :=
  match cls with
  | .read => .mapRd k dw
  | .write => .mapWr k dw
  | .other => .mapOth k dw

/-- The delivery word of a change of flag f to `val`, as the operation it selects: by the listener's kind (R98) and, for a memory or a
mapper, the class of the value (R99). -/
def flagReaction (f : Handle) (val : Byte) (s : State) (l : Listener) : Except Refusal Instr :=
  let dw : Delivery := ⟨0#16, f, val⟩
  match l with
  | .divider _ => .error .listenerKind
  | .external x => .ok (.extOnf x dw)
  | .memory m =>
    match s.mem? m, s.classOf val with
    | none, _ => .error (.noSuchUnit .memory m)
    | some _, none => .error (.flagValue f val)
    | some u, some cls => .ok (memoryReaction u.kind cls m dw)
  | .mapper k =>
    match s.classOf val with
    | none => .error (.flagValue f val)
    | some cls => .ok (mapperReaction cls k dw)

/-- Deliver one event to the listeners of a list, the first of which has index `i`, in order, each to completion; the first that fails
ends the loop with its error wrapped, and the rest are not invoked (R155 to R157, R160, R176). `react` forms the delivery, `nested`
carries it out, `frame i` is the frame of the dispatch while listener `i` runs, above the frames `outer` (R35). -/
def deliverAll (nested : Instr → State → Res) (react : State → Listener → Except Refusal Instr) (frame : Nat → Frame)
    (outer : List Frame) : Nat → List Listener → State → Res
  | _, [], s => .ok s none
  | i, l :: ls, s =>
    match react s l with
    | .error w => .refused w
    | .ok reaction =>
      match nested reaction (s.withStack (frame i :: outer)) with
      | .ok s' _ => deliverAll nested react frame outer (i + 1) ls s'
      | .err s' e => .err s' (wrap e)
      | .refused w => .refused w

/-- One dispatch (R164): its frame stands on the stack while it runs and is gone when it ends, by completion or by an error (R35). -/
def dispatch (nested : Instr → State → Res) (react : State → Listener → Except Refusal Instr) (frame : Nat → Frame)
    (ls : List Listener) (s : State) : Res :=
  (deliverAll nested react frame s.stack 0 ls s).unwound s.stack

/-- A pulse of clock c is in progress (R183): a frame of the stack is c's. -/
def State.midPulse (s : State) (c : Handle) : Bool :=
  s.stack.any fun fr =>
    match fr with
    | .clock c' _ => c' == c
    | .flag _ _ _ => false

end Sys2Proof.Machine
end

