-- ==== Sys2Proof/Machine/Listener.lean ====
section
/-! DEFINITION. External listeners (R9, R34): what a behaviour function may read, what a behaviour written out computes, and the reaction
an external listener makes to an event. -/

namespace Sys2Proof.Machine

/-- What of the state a behaviour function may read (R9, R161): every unit. Not among it are the dispatch stack, observable only through
the order of effects (R35), other listeners' private states (R34), and the model's own fields (log 6). -/
structure Fabric where
  buses : Table Bus
  flags : Table Flag
  clocks : Table Clock
  mems : Table Mem
  maps : Table Mapper
  carts : Table Cart
deriving DecidableEq, Repr

/-- The fabric state a behaviour function is applied to (R161). -/
def State.fabric (s : State) : Fabric := ⟨s.buses, s.flags, s.clocks, s.mems, s.maps, s.carts⟩

/-- The value an event carries: that of a flag change, 0 for a pulse (R98). -/
def Event.value : Event → Nat
  | .onTick _ => 0
  | .onFlagChange val _ => val.toNat

/-- The flag or clock dispatched. -/
def Event.source : Event → Handle
  | .onTick c => c
  | .onFlagChange _ f => f

def Event.isPulse : Event → Bool
  | .onTick _ => true
  | .onFlagChange _ _ => false

/-- The counter of a divider; a plain clock has none. -/
def Clock.count (u : Clock) : Nat :=
  match u.divider with
  | none => 0
  | some v => v.counter

/-- The selector of a banked mapper; the other kinds have none. -/
def MapKind.selector : MapKind → Nat
  | .identity => 0
  | .mirrored _ => 0
  | .banked _ sel => sel.toNat

def Binary.apply : Binary → Nat → Nat → Nat
  | .add, x, y => x + y
  | .sub, x, y => x - y
  | .mul, x, y => x * y
  | .div, x, y => x / y
  | .mod, x, y => x % y
  | .lt, x, y => if x < y then 1 else 0
  | .eq, x, y => if x = y then 1 else 0

/-- What a quantity is at a delivery (R161). -/
def Quantity.eval (ev : Event) (v : Fabric) (own : List Nat) : Quantity → Nat
  | .lit n => n
  | .isPulse => ev.isPulse.toNat
  | .value => ev.value
  | .source => ev.source.toNat
  | .bus b => ((Table.look v.buses b.toNat).map fun u => u.value.toNat).getD 0
  | .flag f => ((Table.look v.flags f.toNat).map fun u => u.value.toNat).getD 0
  | .counter d => ((Table.look v.clocks d.toNat).map Clock.count).getD 0
  | .cell m offset =>
    ((Table.look v.mems m.toNat).map fun u => (Memory.read u.contents (offset.eval ev v own)).toNat).getD 0
  | .selector k => ((Table.look v.maps k.toNat).map fun u => u.kind.selector).getD 0
  | .own i => own[i]?.getD 0
  | .op o x y => o.apply (x.eval ev v own) (y.eval ev v own)
  | .choose c x y => if c.eval ev v own = 0 then y.eval ev v own else x.eval ev v own

/-- The command an order is when its operands are computed by `n` (R92). -/
def Order.command (n : Quantity → Nat) : Order → Instr
  | .brd b => .brd (BitVec.ofNat 8 (n b))
  | .bwc b v => .bwc (BitVec.ofNat 8 (n b)) (BitVec.ofNat 32 (n v))
  | .bwm b v => .bwm (BitVec.ofNat 8 (n b)) (BitVec.ofNat 32 (n v))
  | .fget f => .fget (BitVec.ofNat 8 (n f))
  | .fset f val => .fset (BitVec.ofNat 8 (n f)) (BitVec.ofNat 8 (n val))
  | .tick c => .tick (BitVec.ofNat 8 (n c))
  | .tickn c k => .tickn (BitVec.ofNat 8 (n c)) (BitVec.ofNat 32 (n k))
  | .mxlt k a => .mxlt (BitVec.ofNat 8 (n k)) (BitVec.ofNat 31 (n a))
  | .mbsel k bank => .mbsel (BitVec.ofNat 8 (n k)) (BitVec.ofNat 8 (n bank))

/-- An error is one of those chosen. -/
def ErrorTest.holds : ErrorTest → FabricError → Bool
  | .never, _ => false
  | .always, _ => true
  | .is e', e => e == e'
  | .cause e', e => e.rootCause == e'
  | .busData b, e =>
    match e.rootCause with
    | .invalidBusData b' _ => b' == b
    | .invalidBusWidth _ | .invalidAddressRange _ _ | .sizeMismatch _ _ | .unsupportedMapper _ | .signalPropagation _
    | .ofListener _ _ => false
  | .code n, e => e.code == some n
  | .not t, e => !t.holds e
  | .both t u, e => t.holds e && u.holds e
  | .either t u, e => t.holds e || u.holds e

/-- One command of an external listener's reaction, and which errors of it the listener handles: any choice, made error by error when the
command has failed (R9, R298, D42). -/
structure ExtCommand where
  command : Instr
  handles : FabricError → Bool

/-- What the behaviour function of an external listener yields for one delivery (R9, R161): its commands in order, the error of its own
with which it fails after them, if it does (R287), and its new private state. It is no part of State. -/
structure Reaction where
  commands : List ExtCommand
  failure : Option Nat
  own : List Nat
deriving Inhabited

/-- What one case of a behaviour yields, its quantities computed by `n`. -/
def Rule.reaction (n : Quantity → Nat) (r : Rule) : Reaction where
  commands := r.commands.map fun c => ⟨c.order.command n, c.handles.holds⟩
  failure := r.failure.map n
  own := r.own.map n

/-- What a behaviour written out yields: the first case whose guard holds; with none, nothing, and the private state stays. -/
def rulesReaction (n : Quantity → Nat) (own : List Nat) : List Rule → Reaction
  | [] => ⟨[], none, own⟩
  | r :: rs => if n r.guard = 0 then rulesReaction n own rs else r.reaction n

end Sys2Proof.Machine

namespace Sys2Proof

open Machine

/-- FREE VALUE (DESIGN CHOICE, log 6, safe): the behaviour functions the spec leaves open (D42, U28), the n-th one as listener x has it.
They have no body: a claim that holds with them holds whatever function of the event, the fabric state and the private state they are. -/
opaque Config.listenerReaction (n : Nat) (x : Handle) (ev : Event) (v : Fabric) (own : List Nat) : Reaction

end Sys2Proof

namespace Sys2Proof.Machine

/-- A behaviour function applied to an event, the fabric state and the private state of listener x (R9, R161). -/
def Behaviour.react (x : Handle) (ev : Event) (v : Fabric) (own : List Nat) : Behaviour → Reaction
  | .rules rs => rulesReaction (Quantity.eval ev v own) own rs
  | .parameter n => Config.listenerReaction n x ev v own

/-- The reaction external listener x makes to an event delivered now (R161, R179). -/
def State.reaction (s : State) (x : Handle) (ev : Event) : Reaction :=
  (s.behaviour x).react x ev s.fabric (s.ext x).own

/-- Listener x after an event is delivered to it and before its commands: its new private state (R161), the event on record (log 6). -/
def State.moveOn (s : State) (x : Handle) (ev : Event) : State :=
  s.putExt x ⟨(s.reaction x ev).own, (s.ext x).seen ++ [ev]⟩

end Sys2Proof.Machine
end

