-- ==== Sys2Proof/Machine/Operands.lean ====
section
/-! DEFINITION. Operand forms and the checks on them: delivery operands, the address decoders of a memory and a mapper, address
translation, listener references, range bounds and the wiring constraints of R38. -/

namespace Sys2Proof.Machine

/-! ## Delivery words and address decoding -/

/-- A delivery word with its reserved field zero (R98, R105). -/
def withFormed (dw : Delivery) (k : Res) : Res := if dw.zero = 0#16 then k else .refused .reservedDelivery

/-- A pulse's delivery word: also the value field is 0 (R98). -/
def withPulse (dw : Delivery) (k : Res) : Res :=
  withFormed dw (if dw.val = 0#8 then k else .refused .reservedDelivery)

/-- The class of the value a delivery word carries, which selects the reaction (R99, R101). A code that is not defined has none and is
refused (R100, R162). -/
def withClass (dw : Delivery) (s : State) (k : ValueClass → Res) : Res :=
  match s.classOf dw.val with
  | none => .refused (.flagValue dw.src dw.val)
  | some cls => k cls

/-- The memory a delivery word selects, of the kind its `op` names (R98), and the class of its value (R99). -/
def withMemReaction (kind : MemKind) (m : Handle) (dw : Delivery) (s : State) (k : Mem → ValueClass → Res) : Res :=
  withFormed dw <| withMem s m fun u => if u.kind ≠ kind then .refused .wrongUnit else withClass dw s (k u)

/-- Common decode of a memory (R195): its own flag fired and the address bus now holds an address of its range; else no effect. `k` gets
the offset. -/
def memAnswer (u : Mem) (dw : Delivery) (s : State) (k : Nat → Res) : Res :=
  if dw.src ≠ u.flag then .ok s none
  else withBus s u.abus fun a =>
    if a.value.toNat < u.start ∨ u.last < a.value.toNat then .ok s none else k (a.value.toNat - u.start)

/-- The mapper a delivery word selects (R98), and the class of its value (R99). -/
def withMapReaction (k : Handle) (dw : Delivery) (s : State) (c : Mapper → ValueClass → Res) : Res :=
  withFormed dw <| withMap s k fun u => withClass dw s (c u)

/-- The translation of an address inside the range (R222 to R224). A sum of 2^31 or more is refused (R14). -/
def translateInside (u : Mapper) (a : Nat) : Except Refusal Nat :=
  match u.kind with
  | .identity => .ok a
  | .mirrored mask => .ok (a &&& mask.toNat)
  | .banked bases sel =>
    match bases[sel.toNat]? with
    | none => .error .bankIndex
    | some base =>
      if base.toNat + (a - u.first) < Config.addressLimit then .ok (base.toNat + (a - u.first)) else .error .tooLarge

/-- The source's `translate(addr)` (R221): outside the range the address is returned unchanged. -/
def translateAddress (u : Mapper) (a : Nat) : Except Refusal Nat :=
  if a < u.first ∨ u.last < a then .ok a else translateInside u a

/-- Common decode of a mapper (R226): its outer flag fired and the outer address bus now holds an address of its range; else no effect.
`k` gets the translated address. -/
def mapAnswer (u : Mapper) (dw : Delivery) (s : State) (k : Word → Res) : Res :=
  if dw.src ≠ u.outer.flag then .ok s none
  else withBus s u.outer.abus fun a =>
    if a.value.toNat < u.first ∨ u.last < a.value.toNat then .ok s none
    else
      match translateAddress u a.value.toNat with
      | .error w => .refused w
      | .ok t => k (BitVec.ofNat 32 t)

/-- A bus write of the relay: an error is wrapped once (R230). -/
def relayWrite (b : Handle) (v : Word) (s : State) : Res := (busWriteChecked b v s).wrapped

/-- A copy of one bus to another by a checked write of the relay (R227, R228). -/
def relayCopy (dst src : Handle) (s : State) : Res := withBus s src fun u => relayWrite dst u.value s

/-! ## Range bounds (R193, R219) -/

/-- The condition under which a constructor raises InvalidAddressRange (R193, R219): a negative bound, or `last <= start`. -/
def badRange (lo hi : Word) : Bool := lo.toInt < 0 || hi.toInt < 0 || hi.toInt ≤ lo.toInt

/-- Carry on with a legal range, or raise InvalidAddressRange (R193, R219, R284). -/
def withRange (lo hi : Word) (s : State) (k : Res) : Res :=
  if badRange lo hi then raise (.invalidAddressRange lo.toInt hi.toInt) s else k

/-- `last - start + 1` (R14). -/
def rangeSize (lo hi : Word) : Nat := hi.toNat - lo.toNat + 1

/-- Carry on when the contents array, if given, has the size of the range, or raise SizeMismatch (R193, R285). -/
def withSize (lo hi : Word) (contents : Option (List Byte)) (s : State) (k : Res) : Res :=
  match contents with
  | none => k
  | some cells =>
    if cells.length = rangeSize lo hi then k else raise (.sizeMismatch [rangeSize lo hi] cells.length) s

/-- A non-negative operand below 2^31 (R301). -/
def inLimit (v : Word) : Bool := v.toNat < Config.addressLimit

/-! ## Wiring (R38, R94, R96) -/

/-- A configuration record is accepted in the wiring phase only (R104, R305). -/
def inWiring (s : State) (k : Res) : Res :=
  match s.phase with
  | .wiring => k
  | .run => .refused .wiringInRunPhase

/-- A check that refuses when it fails. -/
def require (c : Bool) (w : Refusal) (k : Res) : Res := if c then k else .refused w

/-- The handles of a triple name units (R38 item 8). -/
def withTriple (t : Triple) (s : State) (k : Res) : Res :=
  withBus s t.abus fun _ => withBus s t.dbus fun _ => withFlag s t.flag fun _ => k

/-- `flag[f].listeners <- flag[f].listeners ++ [l]` (R152, R194, R220); a listener already on the list is refused (R38 item 9). -/
def flagAppend (f : Handle) (l : Listener) (s : State) : Res :=
  withFlag s f fun u =>
    require (!u.listeners.contains l) .listenerListed <|
      .ok (s.putFlag f { u with listeners := u.listeners ++ [l] }) none

/-- `clk[c].listeners <- clk[c].listeners ++ [l]` (R173); a listener already on the list is refused (R38 item 9). -/
def clockAppend (c : Handle) (l : Listener) (s : State) : Res :=
  withClock s c fun u =>
    require (!u.listeners.contains l) .listenerListed <|
      .ok (s.putClock c { u with listeners := u.listeners ++ [l] }) none

/-- The dividers on the listener list of clock c. -/
def State.childDividers (s : State) (c : Handle) : List Handle :=
  match s.clock? c with
  | none => []
  | some u =>
    u.listeners.filterMap fun l =>
      match l with
      | .divider d => some d
      | .memory _ | .mapper _ | .external _ => none

/-- The clocks of a list and those reached from them by steps from a clock to a divider on its list, `n` rounds of steps at most. -/
def State.reachedBy (s : State) : Nat → List Handle → List Handle
  | 0, cs => cs
  | n + 1, cs =>
    match ((cs.flatMap s.childDividers).filter fun d => !cs.contains d).dedup with
    | [] => cs
    | d :: ds => s.reachedBy n (cs ++ d :: ds)

/-- The number of handles of one kind (R102): rounds enough to reach every clock. -/
def handleCount : Nat := 256

/-- Listing divider d on clock c would make a divider, directly or through other dividers, a listener of itself (R173, R183): c is d
or is reached from d. -/
def State.wouldCycle (s : State) (c d : Handle) : Bool := (s.reachedBy handleCount [d]).contains c

/-- The memory named by a mapper is on exactly the mapper's inner triple (R38 item 5). -/
def onTriple (u : Mem) (t : Triple) : Bool := u.abus == t.abus && u.dbus == t.dbus && u.flag == t.flag

end Sys2Proof.Machine
end

