-- ==== Sys2Proof/Machine/Cascade.lean ====
section
/-! DEFINITION. What each run-phase command and each reaction does, as an operation with an outcome of R15, and the depth-first
carrying out of a cascade (R158, R164). An operation that starts a nested one takes `nested`, which carries that one out to
completion before the operation goes on (R69, R70). -/

namespace Sys2Proof.Machine

/-! ## Commands (R92) -/

/-- `BRD b` (R132): the bus's value; nothing changes. -/
def runBrd (b : Handle) (s : State) : Res := withBus s b fun u => .ok s (some u.value)

/-- `BWC b, v` (R133). -/
def runBwc (b : Handle) (v : Word) (s : State) : Res := busWriteChecked b v s

/-- `BWM b, v` (R134): never raises; the result is `fit`. -/
def runBwm (b : Handle) (v : Word) (s : State) : Res := busWriteMasked b v s

/-- `FGET f` (R153): the flag's value; nothing changes. -/
def runFget (f : Handle) (s : State) : Res := withFlag s f fun u => .ok s (some (u.value.setWidth 32))

/-- `FSET f, val` (R160): store first, whether or not the value changes (R154), then dispatch to the listeners wiring left on the list
(R163). A value that is not a defined member of the flag's set is refused (R162). -/
def runFset (nested : Instr → State → Res) (f : Handle) (val : Byte) (s : State) : Res :=
  withFlag s f fun u =>
    require (s.memberOf u.set val) (.flagValue f val) <|
      dispatch nested (flagReaction f val) (fun i => .flag f i val) u.listeners (s.putFlag f { u with value := val })

/-- `TICK c` (R176): one pulse of a clock or divider; a divider's counter is neither read nor changed (R182). A pulse of a clock in
mid-pulse is refused (R183). -/
def runTick (nested : Instr → State → Res) (c : Handle) (s : State) : Res :=
  withClock s c fun u =>
    require (!s.midPulse c) (.clockBusy c) <|
      dispatch nested (fun _ => tickReaction c) (fun i => .clock c i) u.listeners s

/-- `n` pulses of c one after the other; the first that raises ends the sequence with its error as it is (R177). -/
def pulses (nested : Instr → State → Res) (c : Handle) : Nat → State → Res
  | 0, s => .ok s none
  | n + 1, s => (runTick nested c s).andThen (pulses nested c n)

/-- `TICKN c, n` (R177): `max(n, 0)` pulses. -/
def runTickn (nested : Instr → State → Res) (c : Handle) (n : Word) (s : State) : Res :=
  withClock s c fun _ => pulses nested c n.toInt.toNat s

/-- `MXLT k, a` (R221): the translated address; nothing changes. -/
def runMxlt (k : Handle) (a : BitVec 31) (s : State) : Res :=
  withMap s k fun u =>
    match translateAddress u a.toNat with
    | .error w => .refused w
    | .ok t => .ok s (some (BitVec.ofNat 32 t))

/-- `MBSEL k, bank` (R225): the bank selector of a mapper of kind B; nothing is dispatched. -/
def runMbsel (k : Handle) (bank : Byte) (s : State) : Res :=
  withMap s k fun u =>
    match u.kind with
    | .identity => .refused .notBanked
    | .mirrored _ => .refused .notBanked
    | .banked bases _ =>
      require (decide (bank.toNat < bases.length)) .bankIndex <|
        .ok (s.putMap k { u with kind := .banked bases bank }) none

/-! ## Reactions to a pulse (R178, R179) -/

/-- `DIV.ONT` (R178): count the pulse; on the last of a period the counter is reset before the divider's own listeners are pulsed.
The source handle `dw.src` is not checked: it need name no clock, nor one that lists d (DESIGN CHOICE, log 19). -/
def runDivOnt (nested : Instr → State → Res) (d : Handle) (dw : Delivery) (s : State) : Res :=
  withPulse dw <| withClock s d fun u =>
    match u.divider with
    | none => .refused .wrongUnit
    | some v =>
      if v.counter + 1 = v.period then
        (nested (.tick d) (s.putClock d { u with divider := some { v with counter := 0 } })).andThen fun s' => .ok s' none
      else .ok (s.putClock d { u with divider := some { v with counter := v.counter + 1 } }) none

/-- The commands of an external listener's reaction in order (R9, R161): the first error the listener does not handle is its error; one
it handles, by its own choice of which errors, lets it go on from the state reached (R298). -/
def runCommands (nested : Instr → State → Res) : List ExtCommand → State → Res
  | [], s => .ok s none
  | c :: cs, s =>
    if c.command.isCommand then
      match nested c.command s with
      | .ok s' _ => runCommands nested cs s'
      | .err s' e => if c.handles e then runCommands nested cs s' else .err s' e
      | .refused w => .refused w
    else .refused .notACommand

/-- The reaction of an external listener x to an event (R9, R161, R179): its behaviour function is applied to the event, the fabric state
and its private state as they are now; its private state moves on, then its commands are carried out, then it fails with an error of its
own if it does so (R287). -/
def extReact (nested : Instr → State → Res) (x : Handle) (ev : Event) (s : State) : Res :=
  (runCommands nested (s.reaction x ev).commands (s.moveOn x ev)).andThen fun s' =>
    match (s.reaction x ev).failure with
    | none => .ok s' none
    | some code => raise (.ofListener x code) s'

/-- `EXT.ONT` (R179). The source handle is handed on as it is: it need name no clock, nor one that lists x (DESIGN CHOICE, log 19). -/
def runExtOnt (nested : Instr → State → Res) (x : Handle) (dw : Delivery) (s : State) : Res :=
  withPulse dw <| extReact nested x (.onTick dw.src) s

/-- `EXT.ONF` (R161). The source handle and the value are handed on as they are: the handle need name no flag, nor one that lists x, and the
value need not be defined or in that flag's set (DESIGN CHOICE, log 19). -/
def runExtOnf (nested : Instr → State → Res) (x : Handle) (dw : Delivery) (s : State) : Res :=
  withFormed dw <| extReact nested x (.onFlagChange dw.val dw.src) s

/-! ## Reactions of a memory (R195 to R201)

The class of the delivered value selects the effect (R99). For the four values of R100 that is the row the operation is; a value of a
platform's own is read by the decoder as the `.OTH` row, whatever its class (log 10). -/

/-- A READ-type value (R196, R199): the cell the address bus selects is put on the data bus by a checked write. -/
def memRead (u : Mem) (dw : Delivery) (s : State) : Res :=
  memAnswer u dw s fun offset => busWriteChecked u.dbus (cellWord u offset) s

/-- A WRITE-type value at a RAM (R197): the data bus's current value goes into the cell the address bus selects. -/
def memWrite (m : Handle) (u : Mem) (dw : Delivery) (s : State) : Res :=
  memAnswer u dw s fun offset => withBus s u.dbus fun d => cellStore m u offset d.value s

/-- What a RAM does on a value of each class; on OTHER nothing, in range or out (R196 to R198). -/
def ramEffect (m : Handle) (u : Mem) (dw : Delivery) (s : State) : ValueClass → Res
  | .read => memRead u dw s
  | .write => memWrite m u dw s
  | .other => .ok s none

/-- What a ROM does on a value of each class; on WRITE and OTHER nothing, in range or out, and no error (R199 to R201). -/
def romEffect (u : Mem) (dw : Delivery) (s : State) : ValueClass → Res
  | .read => memRead u dw s
  | .write => .ok s none
  | .other => .ok s none

/-- `RAM.RD` (R196). -/
def runRamRd (m : Handle) (dw : Delivery) (s : State) : Res := withMemReaction .ram m dw s fun u => ramEffect m u dw s

/-- `RAM.WR` (R197). -/
def runRamWr (m : Handle) (dw : Delivery) (s : State) : Res := withMemReaction .ram m dw s fun u => ramEffect m u dw s

/-- `RAM.OTH` (R198). -/
def runRamOth (m : Handle) (dw : Delivery) (s : State) : Res := withMemReaction .ram m dw s fun u => ramEffect m u dw s

/-- `ROM.RD` (R199). -/
def runRomRd (m : Handle) (dw : Delivery) (s : State) : Res := withMemReaction .rom m dw s fun u => romEffect u dw s

/-- `ROM.WR` (R200). -/
def runRomWr (m : Handle) (dw : Delivery) (s : State) : Res := withMemReaction .rom m dw s fun u => romEffect u dw s

/-- `ROM.OTH` (R201). -/
def runRomOth (m : Handle) (dw : Delivery) (s : State) : Res := withMemReaction .rom m dw s fun u => romEffect u dw s

/-! ## Reactions of a mapper: the relay (R226 to R230), its effect selected by the class of the delivered value (R99) -/

/-- A READ-type value (R227): address in, relay, and when the inner cascade has resolved the inner data bus out, whether or not the inner
memory answered (R232). -/
def relayRead (nested : Instr → State → Res) (u : Mapper) (dw : Delivery) (s : State) : Res :=
  mapAnswer u dw s fun t =>
    (relayWrite u.inner.abus t s).andThen fun s1 =>
      (nested (.fset u.inner.flag dw.val) s1).andThen fun s2 => relayCopy u.outer.dbus u.inner.dbus s2

/-- A WRITE-type value (R228): address in, data in, relay. -/
def relayStore (nested : Instr → State → Res) (u : Mapper) (dw : Delivery) (s : State) : Res :=
  mapAnswer u dw s fun t =>
    (relayWrite u.inner.abus t s).andThen fun s1 =>
      (relayCopy u.inner.dbus u.outer.dbus s1).andThen fun s2 =>
        (nested (.fset u.inner.flag dw.val) s2).andThen fun s3 => .ok s3 none

/-- A value of class OTHER (R229): address in, relay, no data moves. -/
def relayOther (nested : Instr → State → Res) (u : Mapper) (dw : Delivery) (s : State) : Res :=
  mapAnswer u dw s fun t =>
    (relayWrite u.inner.abus t s).andThen fun s1 =>
      (nested (.fset u.inner.flag dw.val) s1).andThen fun s2 => .ok s2 none

/-- What a mapper does on a value of each class (R227 to R229). -/
def mapEffect (nested : Instr → State → Res) (u : Mapper) (dw : Delivery) (s : State) : ValueClass → Res
  | .read => relayRead nested u dw s
  | .write => relayStore nested u dw s
  | .other => relayOther nested u dw s

/-- `MAP.RD` (R227). -/
def runMapRd (nested : Instr → State → Res) (k : Handle) (dw : Delivery) (s : State) : Res :=
  withMapReaction k dw s fun u => mapEffect nested u dw s

/-- `MAP.WR` (R228). -/
def runMapWr (nested : Instr → State → Res) (k : Handle) (dw : Delivery) (s : State) : Res :=
  withMapReaction k dw s fun u => mapEffect nested u dw s

/-- `MAP.OTH` (R229). -/
def runMapOth (nested : Instr → State → Res) (k : Handle) (dw : Delivery) (s : State) : Res :=
  withMapReaction k dw s fun u => mapEffect nested u dw s

/-! ## Cascades (R158, R300) -/

/-- One operation of a cascade. A configuration record is never one: an external listener issues run-phase commands only (R92, R305). -/
def act (nested : Instr → State → Res) (i : Instr) (s : State) : Res :=
  match i with
  | .brd b => runBrd b s
  | .bwc b v => runBwc b v s
  | .bwm b v => runBwm b v s
  | .fget f => runFget f s
  | .fset f val => runFset nested f val s
  | .tick c => runTick nested c s
  | .tickn c n => runTickn nested c n s
  | .mxlt k a => runMxlt k a s
  | .mbsel k bank => runMbsel k bank s
  | .bnew _ _ => .refused .notACommand
  | .fnew _ _ => .refused .notACommand
  | .cnew _ => .refused .notACommand
  | .dnew _ _ => .refused .notACommand
  | .ramnew _ _ _ _ _ => .refused .notACommand
  | .romnew _ _ _ _ _ => .refused .notACommand
  | .mapnewI _ _ _ _ _ _ => .refused .notACommand
  | .mapnewM _ _ _ _ _ _ _ => .refused .notACommand
  | .mapnewB _ _ _ _ _ _ _ => .refused .notACommand
  | .faddl _ _ => .refused .notACommand
  | .caddl _ _ => .refused .notACommand
  | .cartnew _ _ _ _ _ _ _ _ _ => .refused .notACommand
  | .divOnt d dw => runDivOnt nested d dw s
  | .extOnt x dw => runExtOnt nested x dw s
  | .ramRd m dw => runRamRd m dw s
  | .ramWr m dw => runRamWr m dw s
  | .ramOth m dw => runRamOth m dw s
  | .romRd m dw => runRomRd m dw s
  | .romWr m dw => runRomWr m dw s
  | .romOth m dw => runRomOth m dw s
  | .mapRd k dw => runMapRd nested k dw s
  | .mapWr k dw => runMapWr nested k dw s
  | .mapOth k dw => runMapOth nested k dw s
  | .extOnf x dw => runExtOnf nested x dw s

/-- An operation with its whole cascade, at most `fuel` operations deep. Depth alone costs fuel: every list of a cascade is finite. When
the fuel runs out the model refuses and invents no outcome (R300). -/
def perform : Nat → Instr → State → Res
  | 0, _, _ => .refused .outOfFuel
  | n + 1, i, s => act (perform n) i s

end Sys2Proof.Machine
end

