-- ==== Sys2Proof/Machine/BusUnit.lean ====
section
/-! DEFINITION. Bus meanings: BNEW, BRD, BWC, BWM (40_bus.md). -/

namespace Sys2Proof.Machine

/-- `BNEW b, width` (R131): raises InvalidBusWidth outside 1 to 31, else the bus is made and holds 0. -/
def execBnew (b : Handle) (width : Word) (s : State) : Host.Outcome State Fault Refusal :=
  settle <| inWiring s <|
    if width.toInt < 1 ∨ (Config.maxBusWidth : Int) < width.toInt then raise (.invalidBusWidth width.toInt) s
    else require (s.bus? b).isNone (.handleInUse .bus b) <| .ok (s.putBus b ⟨width.toNat, 0#32⟩) none

/-- `BRD b` (R132). -/
def execBrd (b : Handle) (s : State) : Host.Outcome State Fault Refusal := settle (runBrd b s.enterRun)

/-- `BWC b, v` (R133). -/
def execBwc (b : Handle) (v : Word) (s : State) : Host.Outcome State Fault Refusal := settle (runBwc b v s.enterRun)

/-- `BWM b, v` (R134). -/
def execBwm (b : Handle) (v : Word) (s : State) : Host.Outcome State Fault Refusal := settle (runBwm b v s.enterRun)

end Sys2Proof.Machine
end

