-- ==== Sys2Proof/Machine/MapperUnit.lean ====
section
/-! DEFINITION. Mapper meanings: MAPNEW.I, MAPNEW.M, MAPNEW.B, MXLT, MBSEL, MAP.RD, MAP.WR, MAP.OTH (44_mapper.md). -/

namespace Sys2Proof.Machine

/-- Construction of a mapper (R216, R219, R220): the range, then the refusals of R301 (log 9; `operands` are those of the kind's own
fields), then the mapper is made and put on its outer flag's list. -/
def buildMap (kind : MapKind) (operands : Res → Res) (k : Handle) (first last : Word) (outer inner : Triple) (mem : Handle)
    (s : State) : Res :=
  withRange first last s <| operands <| require (s.map? k).isNone (.handleInUse .mapper k) <|
    withTriple outer s <| withTriple inner s <| require (outer.flag != inner.flag) .mapperFlagsEqual <|
      withMem s mem fun u => require (onTriple u inner) .mapperMisplaced <|
        flagAppend outer.flag (.mapper k) (s.putMap k ⟨kind, first.toNat, last.toNat, outer, inner, mem⟩)

/-- Construction of a mirrored mapper (R217): any mask below 2^31 (R223, R301). -/
def buildMirrored (k : Handle) (first last : Word) (outer inner : Triple) (mem : Handle) (mask : Word) (s : State) : Res :=
  buildMap (.mirrored mask) (require (inLimit mask) .tooLarge) k first last outer inner mem s

/-- `MAPNEW.I k, first, last, outer, inner, mem` (R216). -/
def execMapnewI (k : Handle) (first last : Word) (outer inner : Triple) (mem : Handle) (s : State) :
    Host.Outcome State Fault Refusal :=
  settle <| inWiring s <| buildMap .identity id k first last outer inner mem s

/-- `MAPNEW.M k, first, last, outer, inner, mem, mask` (R217). -/
def execMapnewM (k : Handle) (first last : Word) (outer inner : Triple) (mem : Handle) (mask : Word) (s : State) :
    Host.Outcome State Fault Refusal :=
  settle <| inWiring s <| buildMirrored k first last outer inner mem mask s

/-- `MAPNEW.B k, first, last, outer, inner, mem, bases` (R218): at least one bank, no negative base; the selector is 0.
No bank count is too large, 2^31 and above too (DESIGN CHOICE, log 21). -/
def execMapnewB (k : Handle) (first last : Word) (outer inner : Triple) (mem : Handle) (bases : List Word) (s : State) :
    Host.Outcome State Fault Refusal :=
  settle <| inWiring s <|
    buildMap (.banked bases 0#8)
      (fun r => require (!bases.isEmpty) .noBanks <| require (bases.all inLimit) .tooLarge r) k first last outer inner mem s

/-- `MXLT k, a` (R221). -/
def execMxlt (k : Handle) (a : BitVec 31) (s : State) : Host.Outcome State Fault Refusal := settle (runMxlt k a s.enterRun)

/-- `MBSEL k, bank` (R225). -/
def execMbsel (k : Handle) (bank : Byte) (s : State) : Host.Outcome State Fault Refusal := settle (runMbsel k bank s.enterRun)

/-- `MAP.RD` (R227), with its whole cascade. -/
def execMapRd (k : Handle) (dw : Delivery) (s : State) : Host.Outcome State Fault Refusal :=
  settle (runMapRd (perform s.fuel) k dw s)

/-- `MAP.WR` (R228), with its whole cascade. -/
def execMapWr (k : Handle) (dw : Delivery) (s : State) : Host.Outcome State Fault Refusal :=
  settle (runMapWr (perform s.fuel) k dw s)

/-- `MAP.OTH` (R229), with its whole cascade. -/
def execMapOth (k : Handle) (dw : Delivery) (s : State) : Host.Outcome State Fault Refusal :=
  settle (runMapOth (perform s.fuel) k dw s)

end Sys2Proof.Machine
end

