-- ==== Sys2Proof/Machine/MemoryUnit.lean ====
section
/-! DEFINITION. Memory meanings: RAMNEW, ROMNEW, RAM.RD, RAM.WR, RAM.OTH, ROM.RD, ROM.WR, ROM.OTH (43_memory_device.md). -/

namespace Sys2Proof.Machine

/-- The cells a constructor gives a memory: the contents array, or zeros (R191). -/
def initialCells (contents : Option (List Byte)) : Memory :=
  match contents with
  | none => []
  | some cells => Memory.ofArray 0 cells

/-- A RAM's data bus is at most a cell wide (R38 item 7). A ROM's is not constrained (R192). -/
def withRamBus (kind : MemKind) (t : Triple) (s : State) (k : Res) : Res :=
  match kind with
  | .rom => k
  | .ram => withBus s t.dbus fun u => require (decide (u.width ≤ Config.cellWidth)) .ramBusTooWide k

/-- Construction of a memory (R191 to R194): range, then size, as R193 orders them; then the refusals of R301 (log 9); then the memory is
made and put on its flag's list. -/
def buildMem (kind : MemKind) (m : Handle) (start last : Word) (t : Triple) (contents : Option (List Byte)) (s : State) :
    Res :=
  withRange start last s <| withSize start last contents s <|
    require (decide (rangeSize start last < Config.addressLimit)) .tooLarge <|
      require (s.mem? m).isNone (.handleInUse .memory m) <| withTriple t s <| withRamBus kind t s <|
        flagAppend t.flag (.memory m)
          (s.putMem m ⟨kind, start.toNat, last.toNat, t.abus, t.dbus, t.flag, initialCells contents⟩)

/-- `RAMNEW m, start, last, A, D, F [, contents]` (R191). -/
def execRamnew (m : Handle) (start last : Word) (t : Triple) (contents : Option (List Byte)) (s : State) :
    Host.Outcome State Fault Refusal :=
  settle <| inWiring s <| buildMem .ram m start last t contents s

/-- `ROMNEW m, start, last, A, D, F [, contents]` (R192). -/
def execRomnew (m : Handle) (start last : Word) (t : Triple) (contents : Option (List Byte)) (s : State) :
    Host.Outcome State Fault Refusal :=
  settle <| inWiring s <| buildMem .rom m start last t contents s

/-- `RAM.RD` (R196). -/
def execRamRd (m : Handle) (dw : Delivery) (s : State) : Host.Outcome State Fault Refusal := settle (runRamRd m dw s)

/-- `RAM.WR` (R197). -/
def execRamWr (m : Handle) (dw : Delivery) (s : State) : Host.Outcome State Fault Refusal := settle (runRamWr m dw s)

/-- `RAM.OTH` (R198). -/
def execRamOth (m : Handle) (dw : Delivery) (s : State) : Host.Outcome State Fault Refusal := settle (runRamOth m dw s)

/-- `ROM.RD` (R199). -/
def execRomRd (m : Handle) (dw : Delivery) (s : State) : Host.Outcome State Fault Refusal := settle (runRomRd m dw s)

/-- `ROM.WR` (R200). -/
def execRomWr (m : Handle) (dw : Delivery) (s : State) : Host.Outcome State Fault Refusal := settle (runRomWr m dw s)

/-- `ROM.OTH` (R201). -/
def execRomOth (m : Handle) (dw : Delivery) (s : State) : Host.Outcome State Fault Refusal := settle (runRomOth m dw s)

end Sys2Proof.Machine
end

