-- ==== Sys2Proof/Machine/Cartridge.lean ====
section
/-! DEFINITION. The cartridge: CARTNEW, and the iNES parse that gives its four inputs (45_cartridge.md, 30_encoding.md section 8). -/

namespace Sys2Proof.Machine

/-- The two PRG sizes of variant 0 (R254 to R256). -/
def prgSizes : List Nat := [16384, 32768]

/-- The mirrored ROM and mapper of variant 0 for a PRG array of `n` bytes, `n` one of the two sizes (R254, R255): the ROM at inner
addresses 0 to n - 1, the mapper over the cartridge window with mask n - 1. -/
def buildVariant0 (n : Nat) (outer inner : Triple) (mem map : Handle) (prg : List Byte) (s : State) : Res :=
  (buildMem .rom mem 0#32 (BitVec.ofNat 32 (n - 1)) inner (some prg) s).andThen
    (buildMirrored map (BitVec.ofNat 32 Config.cartFirst) (BitVec.ofNat 32 Config.cartLast) outer inner mem
      (BitVec.ofNat 32 (n - 1)))

/-- `CARTNEW q, mapperId, mirroring, outer, inner, mem, map, prg, chr` (R253): UnsupportedMapper before every other check (R257), then
SizeMismatch (R256), then the wiring of variant 0; the four inputs are retained (R258). No CHR length is refused, 2^31 and above too
(DESIGN CHOICE, log 21), and a PRG length of 2^31 and above is a SizeMismatch like any other (log 9). -/
def execCartnew (q : Handle) (mapperId : Byte) (mirroring : Bool) (outer inner : Triple) (mem map : Handle)
    (prg chr : List Byte) (s : State) : Host.Outcome State Fault Refusal :=
  settle <| inWiring s <|
    if mapperId ≠ Config.supportedMapper then raise (.unsupportedMapper mapperId) s
    else if prg.length ∉ prgSizes then raise (.sizeMismatch prgSizes prg.length) s
    else require (s.cart? q).isNone (.handleInUse .cartridge q) <|
      (buildVariant0 prg.length outer inner mem map prg s).andThen fun s' =>
        .ok (s'.putCart q ⟨prg, chr, mirroring, mapperId⟩) none

/-! ## The iNES image (R110 to R118, R252) -/

/-- The magic: the bytes of `N E S` and 0x1A (R110, R111). -/
def inesMagic : List Byte := [0x4E#8, 0x45#8, 0x53#8, 0x1A#8]

/-- The mapper number: `(flags6 >> 4) | (flags7 & 0xF0)` (R117). -/
def inesMapperId (flags6 flags7 : Byte) : Byte := (flags6 >>> 4) ||| (flags7 &&& 0xF0#8)

/-- The bytes a trainer takes: 512 if `flags6[2]` is 1 (R116). -/
def inesTrainer (flags6 : Byte) : Nat := if flags6.getLsbD 2 then 512 else 0

/-- The parse (R252): the four inputs of CARTNEW as a `Cart`, or none when the magic is wrong or the file is too short (R118). -/
def inesParse (file : List Byte) : Option Cart :=
  if file.take 4 = inesMagic then
    match file.drop 4 with
    | prgUnits :: chrUnits :: flags6 :: flags7 :: _ =>
      let p0 := 16 + inesTrainer flags6
      let prgLen := prgUnits.toNat * 16384
      let chrLen := chrUnits.toNat * 8192
      if p0 + prgLen + chrLen ≤ file.length then
        some ⟨(file.drop p0).take prgLen, (file.drop (p0 + prgLen)).take chrLen, flags6.getLsbD 0,
          inesMapperId flags6 flags7⟩
      else none
    | _ => none
  else none

end Sys2Proof.Machine
end

