-- ==== Sys2Proof/Machine/ClockUnit.lean ====
section
/-! DEFINITION. Clock meanings: CNEW, DNEW, CADDL, TICK, TICKN, DIV.ONT, EXT.ONT (42_clock_divider.md). -/

namespace Sys2Proof.Machine

/-- `CNEW c` (R171). -/
def execCnew (c : Handle) (s : State) : Host.Outcome State Fault Refusal :=
  settle <| inWiring s <| require (s.clock? c).isNone (.handleInUse .clock c) <| .ok (s.putClock c ⟨none, []⟩) none

/-- `DNEW c, period` (R172): a period less than 1 is refused; the counter is 0. -/
def execDnew (c : Handle) (period : Word) (s : State) : Host.Outcome State Fault Refusal :=
  settle <| inWiring s <| require (decide (1 ≤ period.toInt)) .badPeriod <|
    require (s.clock? c).isNone (.handleInUse .clock c) <|
      .ok (s.putClock c ⟨some ⟨period.toNat, 0⟩, []⟩) none

/-- The divider a listener reference of kind 0x02 names (R96). -/
def withDivider (s : State) (d : Handle) (k : Res) : Res :=
  withClock s d fun u => require u.divider.isSome .listenerKind k

/-- `CADDL c, l` (R173): l is a divider, and then no cycle of dividers may arise, or an external listener (R96). -/
def execCaddl (c : Handle) (l : ListenerRef) (s : State) : Host.Outcome State Fault Refusal :=
  settle <| inWiring s <|
    if l.kind = 0x02#8 then
      withDivider s l.index <| require (!s.wouldCycle c l.index) .dividerCycle <| clockAppend c (.divider l.index) s
    else require (l.kind == 0x05#8) .listenerKind <| clockAppend c (.external l.index) s

/-- `TICK c` (R176), with its whole cascade (R16). -/
def execTick (c : Handle) (s : State) : Host.Outcome State Fault Refusal := settle (runTick (perform s.fuel) c s.enterRun)

/-- `TICKN c, n` (R177), with its whole cascade. -/
def execTickn (c : Handle) (n : Word) (s : State) : Host.Outcome State Fault Refusal :=
  settle (runTickn (perform s.fuel) c n s.enterRun)

/-- `DIV.ONT` (R178), with its whole cascade. -/
def execDivOnt (d : Handle) (dw : Delivery) (s : State) : Host.Outcome State Fault Refusal :=
  settle (runDivOnt (perform s.fuel) d dw s)

/-- `EXT.ONT` (R179), with its whole cascade. -/
def execExtOnt (x : Handle) (dw : Delivery) (s : State) : Host.Outcome State Fault Refusal :=
  settle (runExtOnt (perform s.fuel) x dw s)

end Sys2Proof.Machine
end

