-- ==== Sys2Proof/Machine/FlagUnit.lean ====
section
/-! DEFINITION. Flag meanings: FNEW, FADDL, FGET, FSET, EXT.ONF (41_flag.md). -/

namespace Sys2Proof.Machine

/-- `FNEW f, init` (R151): nothing is dispatched; a code that is not defined is refused. -/
def execFnew (f : Handle) (init : Byte) (s : State) : Host.Outcome State Fault Refusal :=
  settle <| inWiring s <| require (s.definesValue init) (.flagValue f init) <|
    require (s.flag? f).isNone (.handleInUse .flag f) <| .ok (s.putFlag f ⟨codeSet init, init, []⟩) none

/-- `FADDL f, l` (R152): l is an external listener (R96). -/
def execFaddl (f : Handle) (l : ListenerRef) (s : State) : Host.Outcome State Fault Refusal :=
  settle <| inWiring s <| require (l.kind == 0x05#8) .listenerKind <| flagAppend f (.external l.index) s

/-- `FGET f` (R153). -/
def execFget (f : Handle) (s : State) : Host.Outcome State Fault Refusal := settle (runFget f s.enterRun)

/-- `FSET f, val` (R160), with its whole cascade (R16). -/
def execFset (f : Handle) (val : Byte) (s : State) : Host.Outcome State Fault Refusal :=
  settle (runFset (perform s.fuel) f val s.enterRun)

/-- `EXT.ONF` (R161), with its whole cascade. -/
def execExtOnf (x : Handle) (dw : Delivery) (s : State) : Host.Outcome State Fault Refusal :=
  settle (runExtOnf (perform s.fuel) x dw s)

end Sys2Proof.Machine
end

