-- ==== Sys2Proof/Machine/Dispatch.lean ====
section
/-! DEFINITION. One arm per operation. -/

namespace Sys2Proof.Machine

def exec (i : Instr) (s : State) : Host.Outcome State Fault Refusal :=
  match i with
  -- commands (R92)
  | .brd b => Sys2Proof.Machine.execBrd b s
  | .bwc b v => Sys2Proof.Machine.execBwc b v s
  | .bwm b v => Sys2Proof.Machine.execBwm b v s
  | .fget f => Sys2Proof.Machine.execFget f s
  | .fset f val => Sys2Proof.Machine.execFset f val s
  | .tick c => Sys2Proof.Machine.execTick c s
  | .tickn c n => Sys2Proof.Machine.execTickn c n s
  | .mxlt k a => Sys2Proof.Machine.execMxlt k a s
  | .mbsel k bank => Sys2Proof.Machine.execMbsel k bank s
  -- configuration records (R94)
  | .bnew b width => Sys2Proof.Machine.execBnew b width s
  | .fnew f init => Sys2Proof.Machine.execFnew f init s
  | .cnew c => Sys2Proof.Machine.execCnew c s
  | .dnew c period => Sys2Proof.Machine.execDnew c period s
  | .ramnew m start last t contents => Sys2Proof.Machine.execRamnew m start last t contents s
  | .romnew m start last t contents => Sys2Proof.Machine.execRomnew m start last t contents s
  | .mapnewI k first last outer inner mem => Sys2Proof.Machine.execMapnewI k first last outer inner mem s
  | .mapnewM k first last outer inner mem mask => Sys2Proof.Machine.execMapnewM k first last outer inner mem mask s
  | .mapnewB k first last outer inner mem bases => Sys2Proof.Machine.execMapnewB k first last outer inner mem bases s
  | .faddl f l => Sys2Proof.Machine.execFaddl f l s
  | .caddl c l => Sys2Proof.Machine.execCaddl c l s
  | .cartnew q mapperId mirroring outer inner mem map prg chr => Sys2Proof.Machine.execCartnew q mapperId mirroring outer inner mem map prg chr s
  -- reactions (R98)
  | .divOnt d dw => Sys2Proof.Machine.execDivOnt d dw s
  | .extOnt x dw => Sys2Proof.Machine.execExtOnt x dw s
  | .ramRd m dw => Sys2Proof.Machine.execRamRd m dw s
  | .ramWr m dw => Sys2Proof.Machine.execRamWr m dw s
  | .ramOth m dw => Sys2Proof.Machine.execRamOth m dw s
  | .romRd m dw => Sys2Proof.Machine.execRomRd m dw s
  | .romWr m dw => Sys2Proof.Machine.execRomWr m dw s
  | .romOth m dw => Sys2Proof.Machine.execRomOth m dw s
  | .mapRd k dw => Sys2Proof.Machine.execMapRd k dw s
  | .mapWr k dw => Sys2Proof.Machine.execMapWr k dw s
  | .mapOth k dw => Sys2Proof.Machine.execMapOth k dw s
  | .extOnf x dw => Sys2Proof.Machine.execExtOnf x dw s

end Sys2Proof.Machine
end

