-- ==== Sys2Proof/Decode.lean ====
section
/-! DEFINITION. The decoder, total on any bytes, and the encoder (R90 to R99, R103 to R105). Words are serialised most
significant byte first (R103). -/

namespace Sys2Proof

/-- Four bytes as a word, the first in bits 31:24 (R103). -/
def word4 (a b c d : Byte) : Word := a ++ b ++ c ++ d

/-- The bytes of a word, bits 31:24 first (R103). -/
def wordBytes (w : Word) : List Byte :=
  [w.extractLsb' 24 8, w.extractLsb' 16 8, w.extractLsb' 8 8, w.extractLsb' 0 8]

/-- The next 32-bit extension word (R93). Fewer than four bytes are refused as truncated (DESIGN CHOICE, log 20). -/
def takeWord : List Byte → Except DecodeError (Word × List Byte)
  | a :: b :: c :: d :: rest => .ok (word4 a b c d, rest)
  | _ => .error .truncated

/-- The next `n` extension words (R97: bank bases), `n` any 32-bit value (DESIGN CHOICE, log 21). -/
def takeWords : Nat → List Byte → Except DecodeError (List Word × List Byte)
  | 0, bs => .ok ([], bs)
  | n + 1, bs => do
    let (w, bs) ← takeWord bs
    let (ws, bs) ← takeWords n bs
    return (w :: ws, bs)

/-- The next `n` extension words as cells: the cell in bits 7:0, the bits above zero (R97). -/
def takeCells (op : Byte) : Nat → List Byte → Except DecodeError (List Byte × List Byte)
  | 0, bs => .ok ([], bs)
  | n + 1, bs => do
    let (w, bs) ← takeWord bs
    if w.extractLsb' 8 24 ≠ 0#24 then .error (.reservedField op)
    let (cs, bs) ← takeCells op n bs
    return (w.extractLsb' 0 8 :: cs, bs)

/-- The next `n` bytes of a payload (R97). Fewer are refused as truncated (DESIGN CHOICE, log 20). -/
def takeBytes : Nat → List Byte → Except DecodeError (List Byte × List Byte)
  | 0, bs => .ok ([], bs)
  | _ + 1, [] => .error .truncated
  | n + 1, b :: bs => do
    let (l, bs) ← takeBytes n bs
    return (b :: l, bs)

/-- The number of unused bytes in the last word of a packed array of `n` bytes (R97). -/
def padding (n : Nat) : Nat := (4 - n % 4) % 4

/-- A packed byte array of `n` bytes: four bytes a word, first byte in bits 31:24, unused bytes zero (R97). -/
def takePacked (op : Byte) (n : Nat) (bs : List Byte) : Except DecodeError (List Byte × List Byte) := do
  let (l, bs) ← takeBytes n bs
  let (pad, bs) ← takeBytes (padding n) bs
  if pad.any (· ≠ 0#8) then .error (.reservedField op)
  return (l, bs)

/-- The wiring word `A[31:24] ++ D[23:16] ++ F[15:8] ++ x[7:0]` (R95). -/
def takeWiring (bs : List Byte) : Except DecodeError (Triple × Byte × List Byte) := do
  let (w, bs) ← takeWord bs
  return (⟨w.extractLsb' 24 8, w.extractLsb' 16 8, w.extractLsb' 8 8⟩, w.extractLsb' 0 8, bs)

/-- `imm` split as a delivery word's operand (R98). -/
def deliveryOf (imm : Word) : Delivery := ⟨imm.extractLsb' 16 16, imm.extractLsb' 8 8, imm.extractLsb' 0 8⟩

/-- A field that must be 0 (R105). -/
def mustBeZero {n : Nat} (op : Byte) (field : BitVec n) : Except DecodeError Unit :=
  if field = 0#n then .ok () else .error (.reservedField op)

/-- The range end, wiring word and optional contents payload that follow RAMNEW's and ROMNEW's head (R94, R95, R97). -/
def takeMemory (op : Byte) (bs : List Byte) :
    Except DecodeError (Word × Triple × Option (List Byte) × List Byte) := do
  let (last, bs) ← takeWord bs
  let (t, fill, bs) ← takeWiring bs
  if fill = 0#8 then return (last, t, none, bs)
  if fill ≠ 1#8 then .error (.reservedField op)
  let (len, bs) ← takeWord bs
  let (cells, bs) ← takeCells op len.toNat bs
  return (last, t, some cells, bs)

/-- The range end and the two wiring words that follow a mapper's head (R94, R95). -/
def takeMapper (op : Byte) (bs : List Byte) : Except DecodeError (Word × Triple × Triple × Handle × List Byte) := do
  let (last, bs) ← takeWord bs
  let (outer, x, bs) ← takeWiring bs
  mustBeZero op x
  let (inner, mem, bs) ← takeWiring bs
  return (last, outer, inner, mem, bs)

/-- The extension words of CARTNEW (R94, R97). A PRG or CHR length of any 32-bit value is read, 2^31 and above too (DESIGN CHOICE, log 21). -/
def takeCart (op : Byte) (bs : List Byte) :
    Except DecodeError (Triple × Triple × Handle × Handle × List Byte × List Byte × List Byte) := do
  let (outer, x, bs) ← takeWiring bs
  mustBeZero op x
  let (inner, mem, bs) ← takeWiring bs
  let (mapWord, bs) ← takeWord bs
  mustBeZero op (mapWord.extractLsb' 0 24)
  let (prgLen, bs) ← takeWord bs
  let (chrLen, bs) ← takeWord bs
  let (prg, bs) ← takePacked op prgLen.toNat bs
  let (chr, bs) ← takePacked op chrLen.toNat bs
  return (outer, inner, mem, mapWord.extractLsb' 24 8, prg, chr, bs)

/-- The operation with the given head, read from the tables of R92, R94 and R98, with what its extension words hold, and the
bytes after it. A delivery word's `.RD`, `.WR` and `.OTH` rows are told apart by the value field (R99). -/
def decodeHead (op unit : Byte) (imm : Word) (bs : List Byte) : Except DecodeError (Instr × List Byte) :=
  match op with
  | 0x01#8 => do mustBeZero op imm; return (.brd unit, bs)
  | 0x02#8 => return (.bwc unit imm, bs)
  | 0x03#8 => return (.bwm unit imm, bs)
  | 0x08#8 => do mustBeZero op imm; return (.fget unit, bs)
  | 0x09#8 => do mustBeZero op (imm.extractLsb' 8 24); return (.fset unit (imm.extractLsb' 0 8), bs)
  | 0x10#8 => do mustBeZero op imm; return (.tick unit, bs)
  | 0x11#8 => return (.tickn unit imm, bs)
  | 0x18#8 => do mustBeZero op (imm.extractLsb' 31 1); return (.mxlt unit (imm.extractLsb' 0 31), bs)
  | 0x19#8 => do mustBeZero op (imm.extractLsb' 8 24); return (.mbsel unit (imm.extractLsb' 0 8), bs)
  | 0x40#8 => return (.bnew unit imm, bs)
  | 0x41#8 => do mustBeZero op (imm.extractLsb' 8 24); return (.fnew unit (imm.extractLsb' 0 8), bs)
  | 0x42#8 => do mustBeZero op imm; return (.cnew unit, bs)
  | 0x43#8 => return (.dnew unit imm, bs)
  | 0x44#8 => do
    let (last, t, contents, bs) ← takeMemory op bs
    return (.ramnew unit imm last t contents, bs)
  | 0x45#8 => do
    let (last, t, contents, bs) ← takeMemory op bs
    return (.romnew unit imm last t contents, bs)
  | 0x46#8 => do
    let (last, outer, inner, mem, bs) ← takeMapper op bs
    return (.mapnewI unit imm last outer inner mem, bs)
  | 0x47#8 => do
    let (last, outer, inner, mem, bs) ← takeMapper op bs
    let (mask, bs) ← takeWord bs
    return (.mapnewM unit imm last outer inner mem mask, bs)
  | 0x48#8 => do
    let (last, outer, inner, mem, bs) ← takeMapper op bs
    let (nbanks, bs) ← takeWord bs
    let (bases, bs) ← takeWords nbanks.toNat bs
    return (.mapnewB unit imm last outer inner mem bases, bs)
  | 0x49#8 => do
    mustBeZero op (imm.extractLsb' 16 16)
    return (.faddl unit ⟨imm.extractLsb' 8 8, imm.extractLsb' 0 8⟩, bs)
  | 0x4A#8 => do
    mustBeZero op (imm.extractLsb' 16 16)
    return (.caddl unit ⟨imm.extractLsb' 8 8, imm.extractLsb' 0 8⟩, bs)
  | 0x4B#8 => do
    mustBeZero op (imm.extractLsb' 9 23)
    let (outer, inner, mem, map, prg, chr, bs) ← takeCart op bs
    return (.cartnew unit (imm.extractLsb' 0 8) (imm.getLsbD 8) outer inner mem map prg chr, bs)
  | 0x80#8 => return (.divOnt unit (deliveryOf imm), bs)
  | 0x81#8 => return (.extOnt unit (deliveryOf imm), bs)
  | 0x88#8 =>
    let dw := deliveryOf imm
    if dw.val = 0x00#8 then return (.ramRd unit dw, bs)
    else if dw.val = 0x01#8 then return (.ramWr unit dw, bs)
    else return (.ramOth unit dw, bs)
  | 0x89#8 =>
    let dw := deliveryOf imm
    if dw.val = 0x00#8 then return (.romRd unit dw, bs)
    else if dw.val = 0x01#8 then return (.romWr unit dw, bs)
    else return (.romOth unit dw, bs)
  | 0x8A#8 =>
    let dw := deliveryOf imm
    if dw.val = 0x00#8 then return (.mapRd unit dw, bs)
    else if dw.val = 0x01#8 then return (.mapWr unit dw, bs)
    else return (.mapOth unit dw, bs)
  | 0x8F#8 => return (.extOnf unit (deliveryOf imm), bs)
  | _ => .error (.unassignedOp op)

/-- The operation at the front of a byte sequence, and the bytes after it (R91, R93, R103). A sequence that ends inside an operation is
refused as truncated (DESIGN CHOICE, log 20). -/
def decode : List Byte → Except DecodeError (Instr × List Byte)
  | op :: unit :: a :: b :: c :: d :: rest => decodeHead op unit (word4 a b c d) rest
  | _ => .error .truncated

/-! ## The encoder -/

/-- A head word: `op[47:40] ++ unit[39:32] ++ imm[31:0]` (R91). -/
def headBytes (op unit : Byte) (imm : Word) : List Byte := op :: unit :: wordBytes imm

/-- A wiring word (R95). -/
def wiringBytes (t : Triple) (x : Byte) : List Byte := [t.abus, t.dbus, t.flag, x]

/-- A packed byte array's bytes: the array and the zero bytes that fill its last word (R97). -/
def packedBytes (l : List Byte) : List Byte := l ++ List.replicate (padding l.length) 0#8

/-- A length word (R97). -/
def lengthBytes {α : Type} (l : List α) : List Byte := wordBytes (BitVec.ofNat 32 l.length)

/-- `imm` of a delivery word (R98). -/
def deliveryImm (dw : Delivery) : Word := dw.zero ++ dw.src ++ dw.val

/-- `imm` of FADDL and CADDL (R94, R96). -/
def listenerImm (l : ListenerRef) : Word := 0#16 ++ l.kind ++ l.index

/-- What follows RAMNEW's and ROMNEW's head (R94, R95, R97). -/
def memoryBytes (last : Word) (t : Triple) : Option (List Byte) → List Byte
  | none => wordBytes last ++ wiringBytes t 0#8
  | some cells => wordBytes last ++ wiringBytes t 1#8 ++ lengthBytes cells ++
      cells.flatMap (fun c => wordBytes (c.setWidth 32))

/-- What follows a mapper's head (R94, R95). -/
def mapperBytes (last : Word) (outer inner : Triple) (mem : Handle) : List Byte :=
  wordBytes last ++ wiringBytes outer 0#8 ++ wiringBytes inner mem

/-- The words of an operation as bytes (R91 to R98, R103). -/
def encode : Instr → List Byte
  | .brd b => headBytes 0x01#8 b 0#32
  | .bwc b v => headBytes 0x02#8 b v
  | .bwm b v => headBytes 0x03#8 b v
  | .fget f => headBytes 0x08#8 f 0#32
  | .fset f val => headBytes 0x09#8 f (val.setWidth 32)
  | .tick c => headBytes 0x10#8 c 0#32
  | .tickn c n => headBytes 0x11#8 c n
  | .mxlt k a => headBytes 0x18#8 k (a.setWidth 32)
  | .mbsel k bank => headBytes 0x19#8 k (bank.setWidth 32)
  | .bnew b width => headBytes 0x40#8 b width
  | .fnew f init => headBytes 0x41#8 f (init.setWidth 32)
  | .cnew c => headBytes 0x42#8 c 0#32
  | .dnew c period => headBytes 0x43#8 c period
  | .ramnew m start last t contents => headBytes 0x44#8 m start ++ memoryBytes last t contents
  | .romnew m start last t contents => headBytes 0x45#8 m start ++ memoryBytes last t contents
  | .mapnewI k first last outer inner mem => headBytes 0x46#8 k first ++ mapperBytes last outer inner mem
  | .mapnewM k first last outer inner mem mask =>
      headBytes 0x47#8 k first ++ mapperBytes last outer inner mem ++ wordBytes mask
  | .mapnewB k first last outer inner mem bases =>
      headBytes 0x48#8 k first ++ mapperBytes last outer inner mem ++ lengthBytes bases ++ bases.flatMap wordBytes
  | .faddl f l => headBytes 0x49#8 f (listenerImm l)
  | .caddl c l => headBytes 0x4A#8 c (listenerImm l)
  | .cartnew q mapperId mirroring outer inner mem map prg chr =>
      headBytes 0x4B#8 q (0#23 ++ BitVec.ofBool mirroring ++ mapperId) ++ wiringBytes outer 0#8 ++
        wiringBytes inner mem ++ wordBytes (map ++ 0#24) ++ lengthBytes prg ++ lengthBytes chr ++
        packedBytes prg ++ packedBytes chr
  | .divOnt d dw => headBytes 0x80#8 d (deliveryImm dw)
  | .extOnt x dw => headBytes 0x81#8 x (deliveryImm dw)
  | .ramRd m dw => headBytes 0x88#8 m (deliveryImm dw)
  | .ramWr m dw => headBytes 0x88#8 m (deliveryImm dw)
  | .ramOth m dw => headBytes 0x88#8 m (deliveryImm dw)
  | .romRd m dw => headBytes 0x89#8 m (deliveryImm dw)
  | .romWr m dw => headBytes 0x89#8 m (deliveryImm dw)
  | .romOth m dw => headBytes 0x89#8 m (deliveryImm dw)
  | .mapRd k dw => headBytes 0x8A#8 k (deliveryImm dw)
  | .mapWr k dw => headBytes 0x8A#8 k (deliveryImm dw)
  | .mapOth k dw => headBytes 0x8A#8 k (deliveryImm dw)
  | .extOnf x dw => headBytes 0x8F#8 x (deliveryImm dw)

/-! ## The table's words -/

/-- Byte `i` of a number, byte 0 the least significant. -/
def byteOfNat (w i : Nat) : Byte := BitVec.ofNat 8 (w >>> (8 * i))

/-- The longest run of extension words an operation has when every word of it is 0: CARTNEW's five (R94). -/
def zeroExtensionWords : Nat := 5

/-- The bytes of the operation whose first `nbits` bits are `w` and whose other bits are 0: the 48-bit head in bits 47:0, then the
32-bit extension words in bits 79:48, 111:80 and on, each serialised most significant byte first (R91, R93, R103). -/
def tableBytes (nbits w : Nat) : List Byte :=
  let v := w % 2 ^ nbits
  let head := [5, 4, 3, 2, 1, 0].map (byteOfNat v)
  let ext := (List.range zeroExtensionWords).flatMap fun j => [3, 2, 1, 0].map fun k => byteOfNat v (6 + 4 * j + k)
  head ++ ext

/-- The operation the decoder reads from the opcode table's word `w` of `nbits` bits, any further bits 0. -/
def decodeTableWord (nbits w : Nat) : Option Instr :=
  match decode (tableBytes nbits w) with
  | .ok (i, _) => some i
  | .error _ => none

end Sys2Proof
end

