-- ==== Sys2Proof/Machine/Fetch.lean ====
section
/-! DEFINITION. Where the next operation comes from: a delivery presented to one listener (R40), else the bytes the driver is going to
issue (R8). The fabric has no program counter (R22). -/

namespace Sys2Proof.Machine

/-- What the fabric does next. -/
inductive Fetched where
  /-- The driver has nothing to issue: the fabric does nothing and loses nothing (R309). -/
  | idle
  /-- An operation to carry out, on the state with the operation taken from where it stood. -/
  | run (i : Instr) (s : State)
  /-- What stands there is refused. -/
  | refuse (r : Refusal)
deriving DecidableEq, Repr

/-- The bytes of a 48-bit word, most significant first (R103). -/
def word48Bytes (w : BitVec 48) : List Byte :=
  [w.extractLsb' 40 8, w.extractLsb' 32 8, w.extractLsb' 24 8, w.extractLsb' 16 8, w.extractLsb' 8 8, w.extractLsb' 0 8]

/-- A word at the delivery port must be a delivery word (R90, R98); that a dispatcher could have formed it is not asked (DESIGN CHOICE,
log 19). -/
def fetchDelivery (w : BitVec 48) (s : State) : Fetched :=
  match decode (word48Bytes w) with
  | .error e => .refuse (.undecodable e)
  | .ok (i, _) => if i.isReaction then .run i { s with delivery := none } else .refuse .notADelivery

/-- The next operation the driver issues; a delivery word is never accepted from an agent (R104). Bytes that end inside a word or payload are
refused and not kept for the rest to come (DESIGN CHOICE, log 20). -/
def fetchDriver (s : State) : Fetched :=
  match s.driver with
  | [] => .idle
  | b :: bs =>
    match decode (b :: bs) with
    | .error e => .refuse (.undecodable e)
    | .ok (i, rest) => if i.isReaction then .refuse .deliveryFromAgent else .run i { s with driver := rest }

/-- The next operation. -/
def fetch (s : State) : Fetched :=
  match s.delivery with
  | some w => fetchDelivery w s
  | none => fetchDriver s

/-- The first `op` of the delivery words (R98, R104). -/
def firstDeliveryOp : Nat := 0x80

/-- The operation whose first `nbits` bits are `w`, any further bits 0, placed where `fetch` takes its next operation: a delivery word at
the delivery port, anything else over the bytes the driver issues first (log 1). -/
def placeWord (s : State) (nbits w : Nat) : State :=
  let v := w % 2 ^ nbits
  if firstDeliveryOp ≤ v % 2 ^ 48 / 2 ^ 40 then { s with delivery := some (BitVec.ofNat 48 v) }
  else { s with delivery := none, driver := tableBytes nbits w ++ s.driver.drop (tableBytes nbits w).length }

end Sys2Proof.Machine
end

