-- ==== Sys2Proof/Machine/Step.lean ====
section
/-! DEFINITION. One step (R16): the next operation with its whole cascade. -/

namespace Sys2Proof.Machine

/-- One step of the fabric (R16). -/
def step (s : State) : Host.Outcome State Fault Refusal :=
  match fetch s with
  | .idle => .next s
  | .run i s' => exec i s'
  | .refuse r => .refused r

/-- `s` with the operation whose bits are `w` where `step` takes its next operation. -/
def State.withFetchWord (s : State) (nbits w : Nat) : State := placeWord s nbits w

end Sys2Proof.Machine
end

