-- ==== Sys2Proof/Safety.lean ====
section
/-! DEFINITION. The terms claims use: the configuration of a fabric (R20), the invariants the spec gives its state (R23, R25, R28, R29,
R32) and its wiring (R38), overlap of ranges (R74), paths in the clock tree (R173), and the access sequences (R79, R80, R108). -/

namespace Sys2Proof.Machine

/-! ## Configuration K (R20): every unit with its state fields left out -/

def Bus.configuration (u : Bus) : Bus := { u with value := 0#32 }
def Flag.configuration (u : Flag) : Flag := { u with value := 0#8 }
def Clock.configuration (u : Clock) : Clock := { u with divider := u.divider.map fun v => { v with counter := 0 } }
def Mem.configuration (u : Mem) : Mem := { u with contents := [] }

def MapKind.configuration : MapKind → MapKind
  | .identity => .identity
  | .mirrored mask => .mirrored mask
  | .banked bases _ => .banked bases 0#8

def Mapper.configuration (u : Mapper) : Mapper := { u with kind := u.kind.configuration }

/-- The configuration of a fabric: what is fixed when wiring ends (R20). -/
structure Configuration where
  buses : Table Bus
  flags : Table Flag
  clocks : Table Clock
  mems : Table Mem
  maps : Table Mapper
  carts : Table Cart
  behaviours : Table Behaviour
  platform : List (Byte × ValueClass)
  fuel : Nat
deriving DecidableEq, Repr

/-- A table with a function applied to every entry. -/
def onEntries {α : Type} (g : α → α) (t : Table α) : Table α := t.map fun p => (p.1, g p.2)

def State.configuration (s : State) : Configuration where
  buses := onEntries Bus.configuration s.buses
  flags := onEntries Flag.configuration s.flags
  clocks := onEntries Clock.configuration s.clocks
  mems := onEntries Mem.configuration s.mems
  maps := onEntries Mapper.configuration s.maps
  carts := s.carts
  behaviours := s.behaviours
  platform := s.platform
  fuel := s.fuel

/-! ## Invariants of the state -/

/-- Every bus is 1 to 31 bits wide and its value is pre-masked (R23, R38 item 1). -/
abbrev State.busesFit (s : State) : Prop :=
  ∀ p ∈ s.buses, 1 ≤ p.2.width ∧ p.2.width ≤ Config.maxBusWidth ∧ p.2.value.toNat < 2 ^ p.2.width

/-- Every flag's value is a defined member of its set (R25). -/
abbrev State.flagsInSet (s : State) : Prop := ∀ p ∈ s.flags, s.memberOf p.2.set p.2.value = true

/-- A divider's period is 1 or more and its counter below it (R28, R38 item 10). -/
def Clock.counts (u : Clock) : Bool := u.divider.all fun v => decide (1 ≤ v.period ∧ v.counter < v.period)

abbrev State.countersInRange (s : State) : Prop := ∀ p ∈ s.clocks, p.2.counts = true

/-- Every memory has a legal range and canonical contents of its size (R29, R38 item 2). -/
abbrev State.memoriesCanonical (s : State) : Prop :=
  ∀ p ∈ s.mems, p.2.start < p.2.last ∧ p.2.last < Config.addressLimit ∧
    Memory.wf (p.2.last - p.2.start + 1) p.2.contents

/-- A mapper's own fields are legal: a mask or bases below 2^31, the selector inside the bank table (R32, R38 item 10). -/
def MapKind.legal : MapKind → Bool
  | .identity => true
  | .mirrored mask => inLimit mask
  | .banked bases sel => bases.all inLimit && decide (sel.toNat < bases.length)

/-- Every mapper has a legal range and legal fields of its kind (R31, R32, R38 items 3 and 10). -/
abbrev State.mappersLegal (s : State) : Prop :=
  ∀ p ∈ s.maps, p.2.first < p.2.last ∧ p.2.last < Config.addressLimit ∧ p.2.kind.legal = true

/-- The keys of a table are handles, rising. -/
abbrev handled {α : Type} (t : Table α) : Prop := Table.Rising t ∧ ∀ p ∈ t, p.1 < handleCount

/-- The three handles of a triple name units (R38 item 8). -/
def State.hasTriple (s : State) (t : Triple) : Bool := (s.bus? t.abus).isSome && (s.bus? t.dbus).isSome && (s.flag? t.flag).isSome

/-- A listener may stand on the list of flag f: an external listener, a memory whose flag is f, or a mapper whose outer flag is f
(R38 items 8 and 9, R194, R220). -/
def State.mayHearFlag (s : State) (f : Handle) : Listener → Bool
  | .divider _ => false
  | .external _ => true
  | .memory m => (s.mem? m).any fun u => u.flag == f
  | .mapper k => (s.map? k).any fun u => u.outer.flag == f

/-- A listener may stand on the list of a clock: an external listener or a divider (R38 item 8, R96). -/
def State.mayHearClock (s : State) : Listener → Bool
  | .divider d => (s.clock? d).any fun u => u.divider.isSome
  | .external _ => true
  | .memory _ => false
  | .mapper _ => false

/-- Listener l is on the list of flag f. -/
def State.hearsFlag (s : State) (f : Handle) (l : Listener) : Bool := (s.flag? f).any fun u => u.listeners.contains l

/-- Every flag's list names existing listeners of it, none twice (R38 items 8 and 9). -/
abbrev State.flagsWired (s : State) : Prop :=
  ∀ p ∈ s.flags, p.2.listeners.Nodup ∧ ∀ l ∈ p.2.listeners, s.mayHearFlag (BitVec.ofNat 8 p.1) l = true

/-- Every clock's list names existing listeners, none twice (R38 items 8 and 9). -/
abbrev State.clocksWired (s : State) : Prop :=
  ∀ p ∈ s.clocks, p.2.listeners.Nodup ∧ ∀ l ∈ p.2.listeners, s.mayHearClock l = true

/-- Every memory is on an existing triple and on the list of its flag; a RAM's data bus is at most a cell wide (R38 items 7 to 9). -/
abbrev State.memoriesWired (s : State) : Prop :=
  ∀ p ∈ s.mems, s.hasTriple ⟨p.2.abus, p.2.dbus, p.2.flag⟩ = true ∧
    s.hearsFlag p.2.flag (.memory (BitVec.ofNat 8 p.1)) = true ∧
    (p.2.kind = .ram → (s.bus? p.2.dbus).all (fun u => decide (u.width ≤ Config.cellWidth)) = true)

/-- Every mapper is on existing triples with two different flags, its memory is on its inner triple, and it is on the list of its outer
flag (R38 items 5, 6, 8 and 9). -/
abbrev State.mappersWired (s : State) : Prop :=
  ∀ p ∈ s.maps, s.hasTriple p.2.outer = true ∧ s.hasTriple p.2.inner = true ∧ p.2.outer.flag ≠ p.2.inner.flag ∧
    (s.mem? p.2.mem).any (fun u => onTriple u p.2.inner) = true ∧
    s.hearsFlag p.2.outer.flag (.mapper (BitVec.ofNat 8 p.1)) = true

/-- The configuration is well formed (R38). Item 4 is CARTNEW's: an unsupported cartridge is not made. -/
abbrev State.wellWired (s : State) : Prop :=
  (handled s.buses ∧ handled s.flags ∧ handled s.clocks ∧ handled s.mems ∧ handled s.maps) ∧ s.busesFit ∧
    s.memoriesCanonical ∧ s.mappersLegal ∧ s.countersInRange ∧ s.flagsWired ∧ s.clocksWired ∧ s.memoriesWired ∧ s.mappersWired

/-! ## Ranges, paths, accesses -/

/-- The outer triple and range a listener answers on, if it is a memory or a mapper. -/
def State.answers (s : State) : Listener → Option (Triple × Nat × Nat)
  | .divider _ => none
  | .external _ => none
  | .memory m => (s.mem? m).map fun u => (⟨u.abus, u.dbus, u.flag⟩, u.start, u.last)
  | .mapper k => (s.map? k).map fun u => (u.outer, u.first, u.last)

/-- Two listeners do not answer one address of one triple. -/
def State.apart (s : State) (l l' : Listener) : Bool :=
  match s.answers l, s.answers l' with
  | some (t, lo, hi), some (t', lo', hi') => t != t' || decide (hi < lo' ∨ hi' < lo)
  | none, _ => true
  | some _, none => true

/-- No two answering devices on one triple have intersecting ranges: R74's named premise, not a constraint. -/
abbrev State.noOverlap (s : State) : Prop :=
  ∀ p ∈ s.flags, p.2.listeners.Pairwise fun l l' => s.apart l l' = true

/-- Divider d is on the listener list of clock c. -/
def State.feeds (s : State) (c d : Handle) : Prop := ∃ u, s.clock? c = some u ∧ Listener.divider d ∈ u.listeners

/-- A pulse of clock c reaches divider d, directly or through other dividers, or d is c (R173, R181). -/
inductive State.Reaches (s : State) : Handle → Handle → Prop
  | here (c : Handle) : State.Reaches s c c
  | further {c d e : Handle} : State.Reaches s c d → s.feeds d e → State.Reaches s c e

/-- Operations carried out one after the other, stopping at the first refusal. -/
def runAll : List Instr → State → Host.Outcome State Fault Refusal
  | [], s => .next s
  | i :: is, s =>
    match exec i s with
    | .next s' => runAll is s'
    | .fault f => .fault f
    | .refused w => .refused w

/-- `LOAD (A,D,F), a` (R79, R108). -/
def loadAccess (t : Triple) (a : Word) : List Instr := [.bwc t.abus a, .fset t.flag valRead, .brd t.dbus]

/-- `STORE (A,D,F), a, v` (R80, R108). -/
def storeAccess (t : Triple) (a v : Word) : List Instr := [.bwc t.abus a, .bwc t.dbus v, .fset t.flag valWrite]

/-- The state after an event has been delivered, in order, to external listeners that only observe (R161): each private state moves on. -/
def State.observedBy (s : State) (ev : Event) : List Handle → State
  | [] => s
  | x :: xs => State.observedBy (s.moveOn x ev) ev xs

/-- A behaviour function of an observer (R161): whatever it is applied to, it issues no command and never fails. -/
def Behaviour.onlyObserves (h : Behaviour) : Prop :=
  ∀ x ev v own, (h.react x ev v own).commands = [] ∧ (h.react x ev v own).failure = none

/-- External listener x is an observer (R161). -/
def State.observes (s : State) (x : Handle) : Prop := (s.behaviour x).onlyObserves

/-- Mapper k, in its turn at the delivery, answers it, and the address translates to t (R226). -/
abbrev State.relays (s : State) (k : Handle) (u : Mapper) (dw : Delivery) (t : Nat) : Prop :=
  s.map? k = some u ∧ dw.zero = 0#16 ∧ dw.src = u.outer.flag ∧
    ∃ a, s.bus? u.outer.abus = some a ∧ u.first ≤ a.value.toNat ∧ a.value.toNat ≤ u.last ∧
      translateAddress u a.value.toNat = .ok t

/-- The cell at an offset of memory m, if the memory exists (R13). -/
def State.cell? (s : State) (m : Handle) (i : Nat) : Option Byte := (s.mem? m).map fun u => Memory.read u.contents i

end Sys2Proof.Machine
end

