-- ==== Sys2Proof/WellFormed.lean ====
section
/-! DEFINITION. When a term of `Instr` is one the encodings of R92 to R99 can carry as the spec describes it. -/

namespace Sys2Proof

/-- The kinds of listener reference FADDL accepts (R96): an external listener. -/
def ListenerRef.forFlag (l : ListenerRef) : Bool := l.kind == 0x05#8

/-- The kinds of listener reference CADDL accepts (R96): a divider or an external listener. -/
def ListenerRef.forClock (l : ListenerRef) : Bool := l.kind == 0x02#8 || l.kind == 0x05#8

/-- A delivery word's operand as the dispatcher forms it: `imm[31:16]` is 0 (R98). -/
def Delivery.formed (dw : Delivery) : Bool := dw.zero == 0#16

/-- A pulse's operand: formed, and the value field is 0 (R98). -/
def Delivery.pulse (dw : Delivery) : Bool := dw.formed && dw.val == 0#8

/-- The value field selects the `.RD` row of the opcode table (R99). -/
def Delivery.rowRd (dw : Delivery) : Bool := dw.formed && dw.val == 0x00#8

/-- The value field selects the `.WR` row of the opcode table (R99). -/
def Delivery.rowWr (dw : Delivery) : Bool := dw.formed && dw.val == 0x01#8

/-- The value field selects the `.OTH` row of the opcode table (R99). -/
def Delivery.rowOth (dw : Delivery) : Bool := dw.formed && dw.val != 0x00#8 && dw.val != 0x01#8

/-- A payload's length fits its 32-bit length word (R97); lengths of 2^31 and above are among them (DESIGN CHOICE, log 21). -/
def lengthFits {α : Type} (l : List α) : Bool := decide (l.length < 2 ^ 32)

/-- The checks of R95 to R99 on an operation's operands. -/
def Instr.wellFormed : Instr → Bool
  | .brd _ => true
  | .bwc _ _ => true
  | .bwm _ _ => true
  | .fget _ => true
  | .fset _ _ => true
  | .tick _ => true
  | .tickn _ _ => true
  | .mxlt _ _ => true
  | .mbsel _ _ => true
  | .bnew _ _ => true
  | .fnew _ _ => true
  | .cnew _ => true
  | .dnew _ _ => true
  | .ramnew _ _ _ _ contents => contents.all lengthFits
  | .romnew _ _ _ _ contents => contents.all lengthFits
  | .mapnewI _ _ _ _ _ _ => true
  | .mapnewM _ _ _ _ _ _ _ => true
  | .mapnewB _ _ _ _ _ _ bases => lengthFits bases
  | .faddl _ l => l.forFlag
  | .caddl _ l => l.forClock
  | .cartnew _ _ _ _ _ _ _ prg chr => lengthFits prg && lengthFits chr
  | .divOnt _ dw => dw.pulse
  | .extOnt _ dw => dw.pulse
  | .ramRd _ dw => dw.rowRd
  | .ramWr _ dw => dw.rowWr
  | .ramOth _ dw => dw.rowOth
  | .romRd _ dw => dw.rowRd
  | .romWr _ dw => dw.rowWr
  | .romOth _ dw => dw.rowOth
  | .mapRd _ dw => dw.rowRd
  | .mapWr _ dw => dw.rowWr
  | .mapOth _ dw => dw.rowOth
  | .extOnf _ dw => dw.formed

end Sys2Proof
end

