-- ==== Sys2Proof/Certificates/Slice0/Obligations.lean ====
section
/-! DEFINITION. The statements for the provers. Each docstring names the rules of spec/ the statement formalises. Throughout, the outcome
of an operation (R15) is read in `report` and an error is a next state (the model's form, log 4); a bound on `fuel` says the cascade is
not cut short (R300, log 5); `enterRun` is the run phase beginning (R305, log 14). -/

open Sys2Proof Sys2Proof.Machine

/-! ## Encodings and the step -/

/-- R91 to R99, R103: an encoded well-formed operation decodes to itself, whatever follows it. That payload lengths of 2^31 and above are
among them is the model's choice (log 21). -/
def Obligations.DecodeOfEncodeIsTheOperation : Prop :=
  ∀ (i : Instr) (rest : List Byte), i.wellFormed = true → decode (encode i ++ rest) = .ok (i, rest)

/-- R91 to R99, R103, R105: bytes that decode are the encoding of what they decode to, so no operation has two encodings and no
bit of one is dropped. -/
def Obligations.BytesThatDecodeAreTheEncoding : Prop :=
  ∀ (bs rest : List Byte) (i : Instr), decode bs = .ok (i, rest) → bs = encode i ++ rest

/-- R92, R94, R98 and the listings of 95_test_vectors.md: words of every family written out from the spec decode to what they
stand for. -/
def Obligations.ListedWordsDecode : Prop :=
  decode [0x40#8, 0x00#8, 0x00#8, 0x00#8, 0x00#8, 0x10#8] = .ok (.bnew 0#8 16#32, []) ∧
  decode [0x09#8, 0x02#8, 0x00#8, 0x00#8, 0x00#8, 0x11#8] = .ok (.fset 2#8 0x11#8, []) ∧
  decode [0x11#8, 0x00#8, 0xFF#8, 0xFF#8, 0xFF#8, 0xFF#8] = .ok (.tickn 0#8 (-1#32), []) ∧
  decode [0x44#8, 0x00#8, 0x00#8, 0x00#8, 0x00#8, 0x00#8, 0x00#8, 0x00#8, 0x07#8, 0xFF#8, 0x00#8, 0x01#8, 0x00#8, 0x00#8] =
    .ok (.ramnew 0#8 0#32 0x7FF#32 ⟨0#8, 1#8, 0#8⟩ none, []) ∧
  decode [0x18#8, 0x00#8, 0x00#8, 0x00#8, 0x08#8, 0x02#8] = .ok (.mxlt 0#8 0x802#31, []) ∧
  decode [0x88#8, 0x03#8, 0x00#8, 0x00#8, 0x02#8, 0x01#8] = .ok (.ramWr 3#8 ⟨0#16, 2#8, 1#8⟩, []) ∧
  decode [0x4B#8, 0x00#8, 0x00#8, 0x00#8, 0x01#8, 0x00#8, 0x00#8, 0x01#8, 0x00#8, 0x00#8, 0x02#8, 0x03#8, 0x01#8, 0x05#8, 0x06#8, 0x00#8,
      0x00#8, 0x00#8, 0x00#8, 0x00#8, 0x00#8, 0x01#8, 0x00#8, 0x00#8, 0x00#8, 0x00#8, 0xAA#8, 0x00#8, 0x00#8, 0x00#8] =
    .ok (.cartnew 0#8 0#8 true ⟨0#8, 1#8, 0#8⟩ ⟨2#8, 3#8, 1#8⟩ 5#8 6#8 [0xAA#8] [], [])

/-- R8, R16, R40, R309: a step carries out the operation whose bytes the driver issues next, or the reaction whose delivery word is
presented, on the state with it taken from there; with neither it changes nothing. (That a step reads its operation from these
two fields is the model's choice, logs 2 and 3.) -/
def Obligations.StepRunsTheDecodedOperation : Prop :=
  (∀ (s : State) (i : Instr) (rest : List Byte), s.delivery = none → decode s.driver = .ok (i, rest) → i.isReaction = false →
    step s = exec i { s with driver := rest }) ∧
  (∀ (s : State) (w : BitVec 48) (i : Instr), s.delivery = some w → word48Bytes w = encode i → i.wellFormed = true →
    i.isReaction = true → step s = exec i { s with delivery := none }) ∧
  (∀ s : State, s.delivery = none → s.driver = [] → step s = .next s)

/-- R104: an unassigned `op`, an `op` from 0x80 on issued by an agent, and a wiring-phase `op` (0x40 to 0x4B) issued in the run phase are
refused, whatever the rest of the word and whatever follows. -/
def Obligations.UnacceptableOpsAreRefused : Prop :=
  ∀ (s : State) (op unit a b c d : Byte) (rest : List Byte), s.delivery = none → s.driver = op :: unit :: a :: b :: c :: d :: rest →
    (op ∉ [0x01#8, 0x02#8, 0x03#8, 0x08#8, 0x09#8, 0x10#8, 0x11#8, 0x18#8, 0x19#8, 0x40#8, 0x41#8, 0x42#8, 0x43#8, 0x44#8, 0x45#8,
        0x46#8, 0x47#8, 0x48#8, 0x49#8, 0x4A#8, 0x4B#8] ∨
      (0x40#8 ≤ op ∧ op ≤ 0x4B#8 ∧ s.phase = .run)) →
    ∃ w, step s = .refused w

/-! ## Buses -/

/-- R131: BNEW outside 1 to 31 raises InvalidBusWidth and makes no bus; else the bus is made with value 0, nothing else changes. Said for a
handle not in use; for one in use see OperandsOutsideTheFabricAreRefused. -/
def Obligations.BnewMakesTheBusOrRaises : Prop :=
  ∀ (s : State) (b : Handle) (width : Word), s.phase = .wiring → s.bus? b = none →
    (width.toInt < 1 ∨ 31 < width.toInt →
      exec (.bnew b width) s = .next (s.withReport (.err (.invalidBusWidth width.toInt)))) ∧
    (1 ≤ width.toInt → width.toInt ≤ 31 →
      exec (.bnew b width) s = .next ((s.putBus b ⟨width.toInt.toNat, 0#32⟩).withReport (.ok none)))

/-- R132, R153: BRD answers the bus's value and FGET the flag's stored value, and neither changes anything (the run phase is entered,
R305). -/
def Obligations.BrdAndFgetReadWithoutChange : Prop :=
  (∀ (s : State) (b : Handle) (u : Bus), s.bus? b = some u →
    exec (.brd b) s = .next (s.enterRun.withReport (.ok (some u.value)))) ∧
  (∀ (s : State) (f : Handle) (u : Flag), s.flag? f = some u →
    exec (.fget f) s = .next (s.enterRun.withReport (.ok (some (u.value.setWidth 32)))))

/-- R133: BWC stores a value that fits and raises InvalidBusData for one that does not, leaving the bus as it was; nothing else
changes. -/
def Obligations.BwcStoresWhatFitsOrRaises : Prop :=
  ∀ (s : State) (b : Handle) (u : Bus) (v : Word), s.bus? b = some u → u.width ≤ 31 →
    (v.toNat < 2 ^ u.width →
      exec (.bwc b v) s = .next ((s.enterRun.putBus b { u with value := v }).withReport (.ok none))) ∧
    (2 ^ u.width ≤ v.toNat →
      exec (.bwc b v) s = .next (s.enterRun.withReport (.err (.invalidBusData b v))))

/-- R134: BWM stores the bits that fit, reports 1 when no bit was dropped and 0 when one was, and never raises. -/
def Obligations.BwmStoresLowBitsAndReportsFit : Prop :=
  ∀ (s : State) (b : Handle) (u : Bus) (v : Word), s.bus? b = some u → u.width ≤ 31 →
    exec (.bwm b v) s =
      .next ((s.enterRun.putBus b { u with value := BitVec.ofNat 32 (v.toNat % 2 ^ u.width) }).withReport
        (.ok (some (if v.toNat < 2 ^ u.width then 1#32 else 0#32))))

/-- R23: every step keeps every bus 1 to 31 bits wide and its value pre-masked. -/
def Obligations.EveryStepKeepsBusValuesMasked : Prop :=
  ∀ s t : State, s.busesFit → step s = .next t → t.busesFit

/-! ## Flags -/

/-- R151: FNEW makes a flag with the value's set, the value and no listeners, and dispatches nothing; a code that is not defined is
refused. -/
def Obligations.FnewMakesTheFlag : Prop :=
  ∀ (s : State) (f : Handle) (init : Byte), s.phase = .wiring →
    (s.definesValue init = true → s.flag? f = none →
      exec (.fnew f init) s = .next ((s.putFlag f ⟨init.extractLsb' 4 4, init, []⟩).withReport (.ok none))) ∧
    (s.definesValue init = false → exec (.fnew f init) s = .refused (.flagValue f init))

/-- R152: FADDL appends an external listener; one already listed, another kind, and the run phase are refused. -/
def Obligations.FaddlAppendsAnExternalListener : Prop :=
  ∀ (s : State) (f : Handle) (u : Flag) (l : ListenerRef), s.flag? f = some u →
    (s.phase = .wiring → l.kind = 0x05#8 → .external l.index ∉ u.listeners →
      exec (.faddl f l) s =
        .next ((s.putFlag f { u with listeners := u.listeners ++ [.external l.index] }).withReport (.ok none))) ∧
    (s.phase = .wiring → l.kind = 0x05#8 → .external l.index ∈ u.listeners → exec (.faddl f l) s = .refused .listenerListed) ∧
    (s.phase = .wiring → l.kind ≠ 0x05#8 → exec (.faddl f l) s = .refused .listenerKind) ∧
    (s.phase = .run → exec (.faddl f l) s = .refused .wiringInRunPhase)

/-- R154, R155, R156, R160: FSET stores the value and delivers it with the flag once to every listener in registration order, whatever
the flag held before; said for listeners that only observe, of which there may be none.
What a listener saw is read off the record the model keeps (log 6). -/
def Obligations.FsetDeliversOnceWhetherOrNotTheValueChanges : Prop :=
  ∀ (s : State) (f : Handle) (u : Flag) (val : Byte) (xs : List Handle), s.flag? f = some u → s.memberOf u.set val = true →
    u.listeners = xs.map .external → (∀ x ∈ xs, s.observes x) → 1 ≤ s.fuel →
    exec (.fset f val) s =
      .next (((s.enterRun.putFlag f { u with value := val }).observedBy (.onFlagChange val f) xs).withReport (.ok none))

/-- R157, R286, R292: when a listener of an FSET fails, the listeners after it are not invoked, the error is wrapped once, and the state
is the one reached: the listeners before it stay done and the value stays stored. -/
def Obligations.FsetStopsAtTheFirstFailingListener : Prop :=
  ∀ (s s1 s2 : State) (f : Handle) (u : Flag) (val : Byte) (before after : List Listener) (l : Listener) (r : Instr)
    (v : Option Word) (e : FabricError),
    s.flag? f = some u → s.memberOf u.set val = true → u.listeners = before ++ l :: after →
    deliverAll (perform s.fuel) (flagReaction f val) (fun i => .flag f i val) s.stack 0 before
      (s.enterRun.putFlag f { u with value := val }) = .ok s1 v →
    flagReaction f val s1 l = .ok r →
    perform s.fuel r (s1.withStack (.flag f before.length val :: s.stack)) = .err s2 e →
    exec (.fset f val) s = .next ((s2.withStack s.stack).withReport (.err (.signalPropagation e)))

/-- R158, R36: a listener that sets the flag in mid-dispatch is re-entered, the nested dispatch reaches every listener before the outer one
goes on, and the outer one still delivers its own value. Said for any behaviour function that yields one such FSET for the outer event and
nothing for the nested one, each applied to the fabric state of its moment. What a listener saw is read off the record the model keeps, and
the private state moves on before the commands run (the model's choice, log 6). -/
def Obligations.ReentrantFsetIsDepthFirst : Prop :=
  ∀ (s s1 s2 : State) (f x y : Handle) (u : Flag) (val val' : Byte) (h : FabricError → Bool) (own own' : List Nat), s.flag? f = some u →
    s.memberOf u.set val = true → s.memberOf u.set val' = true → u.listeners = [.external x, .external y] → x ≠ y →
    s1 = s.enterRun.putFlag f { u with value := val } →
    s1.reaction x (.onFlagChange val f) = ⟨[⟨.fset f val', h⟩], none, own⟩ →
    s2 = (s1.putExt x ⟨own, (s.ext x).seen ++ [.onFlagChange val f]⟩).putFlag f { u with value := val' } →
    s2.reaction x (.onFlagChange val' f) = ⟨[], none, own'⟩ → s.observes y → 3 ≤ s.fuel →
    ∃ t, exec (.fset f val) s = .next t ∧ t.report = some (.ok none) ∧ t.flag? f = some { u with value := val' } ∧
      t.ext x = ⟨own', (s.ext x).seen ++ [.onFlagChange val f, .onFlagChange val' f]⟩ ∧
      (t.ext y).seen = (s.ext y).seen ++ [.onFlagChange val' f, .onFlagChange val f] ∧ (∀ z, z ≠ x → z ≠ y → t.ext z = s.ext z) ∧
      (∀ g, g ≠ f → t.flag? g = s.flag? g) ∧ t.buses = s.buses ∧ t.clocks = s.clocks ∧ t.mems = s.mems ∧ t.maps = s.maps ∧
      t.carts = s.carts ∧ t.stack = s.stack

/-- R160, R195 to R201, R204: FSET on a flag that only memories hear completes. On a READ-type value only data buses of listed memories may
take other values, and only such a read may end with an error. On a WRITE-type value no bus changes, and of all cells only those change
that a listed RAM answers at: in each such RAM the cell at the address on its address bus less its start takes its data bus's value, and
every other cell, and every cell of a RAM that does not answer, stays. Otherwise only the flag's value changes. -/
def Obligations.FsetOverMemoriesCompletes : Prop :=
  ∀ (s : State) (f : Handle) (u : Flag) (val : Byte), s.wellWired → s.flag? f = some u → s.memberOf u.set val = true →
    (∀ l ∈ u.listeners, ∃ m, l = .memory m) → 1 ≤ s.fuel →
    ∃ t, exec (.fset f val) s = .next t ∧ t.flag? f = some { u with value := val } ∧ (∀ g, g ≠ f → t.flag? g = s.flag? g) ∧
      t.clocks = s.clocks ∧ t.maps = s.maps ∧ t.carts = s.carts ∧ t.exts = s.exts ∧ t.stack = s.stack ∧
      (∀ b, (∀ m w, .memory m ∈ u.listeners → s.mem? m = some w → w.dbus ≠ b) → t.bus? b = s.bus? b) ∧
      (∀ b d, s.bus? b = some d → ∃ v, t.bus? b = some { d with value := v }) ∧
      (s.classOf val ≠ some .read → t.buses = s.buses ∧ t.report = some (.ok none)) ∧
      (s.classOf val ≠ some .write → t.mems = s.mems) ∧
      (∀ m w, s.mem? m = some w → w.kind = .rom ∨ .memory m ∉ u.listeners → t.mem? m = some w) ∧
      (s.classOf val = some .write → ∀ m w a d, .memory m ∈ u.listeners → s.mem? m = some w → w.kind = .ram →
        s.bus? w.abus = some a → s.bus? w.dbus = some d →
        ∃ cells, t.mem? m = some { w with contents := cells } ∧
          ∀ j, Memory.read cells j =
            if w.start ≤ a.value.toNat ∧ a.value.toNat ≤ w.last ∧ j = a.value.toNat - w.start then d.value.setWidth 8
            else Memory.read w.contents j)

/-- R38 items 5, 6, 8 and 10, R102, R162, R301: refused are a command whose handle names no unit (TICKN also when its count is 0 or less: log
15), FSET of a value that is not a defined member of the flag's set, a constructor of a unit whose handle is already in use (its other
operands legal), RAMNEW on a data bus wider than a cell, a memory of 2^31 cells (log 15), and MAPNEW with an inner memory that is absent or
off the inner triple, with one flag for both triples, with no bank, or with a mask or base of 2^31 and above (log 15). -/
def Obligations.OperandsOutsideTheFabricAreRefused : Prop :=
  (∀ (s : State) (b : Handle) (v : Word), s.bus? b = none → exec (.brd b) s = .refused (.noSuchUnit .bus b) ∧
    exec (.bwc b v) s = .refused (.noSuchUnit .bus b) ∧ exec (.bwm b v) s = .refused (.noSuchUnit .bus b)) ∧
  (∀ (s : State) (f : Handle) (val : Byte), s.flag? f = none → exec (.fget f) s = .refused (.noSuchUnit .flag f) ∧
    exec (.fset f val) s = .refused (.noSuchUnit .flag f)) ∧
  (∀ (s : State) (c : Handle) (n : Word), s.clock? c = none → exec (.tick c) s = .refused (.noSuchUnit .clock c) ∧
    exec (.tickn c n) s = .refused (.noSuchUnit .clock c)) ∧
  (∀ (s : State) (k : Handle) (a : BitVec 31) (bank : Byte), s.map? k = none →
    exec (.mxlt k a) s = .refused (.noSuchUnit .mapper k) ∧ exec (.mbsel k bank) s = .refused (.noSuchUnit .mapper k)) ∧
  (∀ (s : State) (f : Handle) (u : Flag) (val : Byte), s.flag? f = some u → s.memberOf u.set val = false →
    exec (.fset f val) s = .refused (.flagValue f val)) ∧
  (∀ (s : State) (h : Handle) (w : Word) (init : Byte), s.phase = .wiring →
    (∀ u, s.bus? h = some u → 1 ≤ w.toInt → w.toInt ≤ 31 → exec (.bnew h w) s = .refused (.handleInUse .bus h)) ∧
    (∀ u, s.flag? h = some u → s.definesValue init = true → exec (.fnew h init) s = .refused (.handleInUse .flag h)) ∧
    (∀ u, s.clock? h = some u → exec (.cnew h) s = .refused (.handleInUse .clock h) ∧
      (1 ≤ w.toInt → exec (.dnew h w) s = .refused (.handleInUse .clock h)))) ∧
  (∀ (s : State) (m : Handle) (start last : Word) (t : Triple), s.phase = .wiring → 0 ≤ start.toInt → start.toInt < last.toInt →
    (2 ^ 31 ≤ last.toInt - start.toInt + 1 → exec (.ramnew m start last t none) s = .refused .tooLarge ∧
      exec (.romnew m start last t none) s = .refused .tooLarge) ∧
    (last.toInt - start.toInt + 1 < 2 ^ 31 →
      (∀ u, s.mem? m = some u → exec (.ramnew m start last t none) s = .refused (.handleInUse .memory m) ∧
        exec (.romnew m start last t none) s = .refused (.handleInUse .memory m)) ∧
      (∀ d, s.mem? m = none → s.hasTriple t = true → s.bus? t.dbus = some d → 8 < d.width →
        exec (.ramnew m start last t none) s = .refused .ramBusTooWide))) ∧
  (∀ (s : State) (k : Handle) (first last : Word) (outer inner : Triple) (mem : Handle), s.phase = .wiring → 0 ≤ first.toInt →
    first.toInt < last.toInt →
    (∀ mask : Word, 2 ^ 31 ≤ mask.toNat → exec (.mapnewM k first last outer inner mem mask) s = .refused .tooLarge) ∧
    exec (.mapnewB k first last outer inner mem []) s = .refused .noBanks ∧
    (∀ bases : List Word, (∃ b ∈ bases, 2 ^ 31 ≤ b.toNat) →
      exec (.mapnewB k first last outer inner mem bases) s = .refused .tooLarge) ∧
    (∀ i : Instr, (i = .mapnewI k first last outer inner mem ∨
        (∃ mask, mask.toNat < 2 ^ 31 ∧ i = .mapnewM k first last outer inner mem mask) ∨
        ∃ bases, bases ≠ [] ∧ (∀ b ∈ bases, b.toNat < 2 ^ 31) ∧ i = .mapnewB k first last outer inner mem bases) →
      (∀ u, s.map? k = some u → exec i s = .refused (.handleInUse .mapper k)) ∧
      (s.map? k = none → s.hasTriple outer = true → s.hasTriple inner = true →
        (outer.flag = inner.flag → exec i s = .refused .mapperFlagsEqual) ∧
        (outer.flag ≠ inner.flag → s.mem? mem = none → exec i s = .refused (.noSuchUnit .memory mem)) ∧
        (∀ w, outer.flag ≠ inner.flag → s.mem? mem = some w →
          ¬(w.abus = inner.abus ∧ w.dbus = inner.dbus ∧ w.flag = inner.flag) → exec i s = .refused .mapperMisplaced)))) ∧
  (∀ (s : State) (q : Handle) (mirroring : Bool) (outer inner : Triple) (mem map : Handle) (prg chr : List Byte),
    s.phase = .wiring → (prg.length = 16384 ∨ prg.length = 32768) →
    (∀ u, s.cart? q = some u →
      exec (.cartnew q 0#8 mirroring outer inner mem map prg chr) s = .refused (.handleInUse .cartridge q)) ∧
    (∀ u, s.cart? q = none → s.mem? mem = some u →
      exec (.cartnew q 0#8 mirroring outer inner mem map prg chr) s = .refused (.handleInUse .memory mem)))

/-- R25: every step keeps every flag's value a defined member of its set. -/
def Obligations.EveryStepKeepsFlagsInTheirSets : Prop :=
  ∀ s t : State, s.flagsInSet → step s = .next t → t.flagsInSet

/-! ## External listeners -/

/-- R161, R179: a delivery for which an external listener's behaviour function issues no command and does not fail changes nothing but that
listener's private state, which becomes the one the function yields. (That the event is put on record beside it is the model's choice,
log 6; that a word presented on its own is taken whatever source handle and value it carries, log 19.) -/
def Obligations.ObserversChangeNothingElse : Prop :=
  ∀ (s : State) (x : Handle) (dw : Delivery) (own : List Nat), dw.zero = 0#16 →
    (s.reaction x (.onFlagChange dw.val dw.src) = ⟨[], none, own⟩ →
      exec (.extOnf x dw) s =
        .next ((s.putExt x ⟨own, (s.ext x).seen ++ [.onFlagChange dw.val dw.src]⟩).withReport (.ok none))) ∧
    (dw.val = 0#8 → s.reaction x (.onTick dw.src) = ⟨[], none, own⟩ →
      exec (.extOnt x dw) s = .next ((s.putExt x ⟨own, (s.ext x).seen ++ [.onTick dw.src]⟩).withReport (.ok none)))

/-- R9, R161, R287, R298: an external listener's commands are carried out in order; the first error it does not handle is its error and ends
its reaction; one it handles lets it go on, and an error of its own comes after its commands. Said for two bus writes, the first of which
does not fit. Second, the commands are computed from the event and the fabric state of the moment: a listener whose behaviour copies bus b to
bus c on one value and issues nothing on any other does so with what bus b then holds. Third, which errors are handled is chosen error by
error: the one command of a reaction, whichever it is, may fail with any error, and the choice is asked about that one; the state is the one
reached.
What a listener saw is read off the record the model keeps, and the written form of a behaviour is the model's (log 6);
so is that a word presented on its own is taken whatever source handle and value it carries (log 19). -/
def Obligations.ListenerFailsWithItsFirstUnhandledError : Prop :=
  (∀ (s : State) (x b : Handle) (u : Bus) (v w : Word) (h h' : FabricError → Bool) (failure : Option Nat) (own : List Nat) (dw : Delivery),
    s.bus? b = some u → u.width ≤ 31 → 2 ^ u.width ≤ v.toNat → w.toNat < 2 ^ u.width → 1 ≤ s.fuel →
    s.reaction x (.onFlagChange dw.val dw.src) = ⟨[⟨.bwc b v, h⟩, ⟨.bwc b w, h'⟩], failure, own⟩ → dw.zero = 0#16 →
    exec (.extOnf x dw) s =
      .next (if h (.invalidBusData b v) then
          ((s.putExt x ⟨own, (s.ext x).seen ++ [.onFlagChange dw.val dw.src]⟩).putBus b { u with value := w }).withReport
            (failure.elim (.ok none) fun code => .err (.ofListener x code))
        else
          (s.putExt x ⟨own, (s.ext x).seen ++ [.onFlagChange dw.val dw.src]⟩).withReport (.err (.invalidBusData b v)))) ∧
  (∀ (s : State) (x b c : Handle) (u w : Bus) (val : Byte) (dw : Delivery), s.bus? b = some u → s.bus? c = some w →
    w.width ≤ 31 → u.value.toNat < 2 ^ w.width → 1 ≤ s.fuel → dw.zero = 0#16 →
    s.behaviour x = .rules [⟨.op .eq .value (.lit val.toNat), [⟨.bwc (.lit c.toNat) (.bus b), .never⟩], none, [.own 0]⟩] →
    (dw.val = val →
      exec (.extOnf x dw) s =
        .next (((s.putExt x ⟨[((s.ext x).own[0]?).getD 0], (s.ext x).seen ++ [.onFlagChange dw.val dw.src]⟩).putBus c
          { w with value := u.value }).withReport (.ok none))) ∧
    (dw.val ≠ val →
      exec (.extOnf x dw) s =
        .next ((s.putExt x ⟨(s.ext x).own, (s.ext x).seen ++ [.onFlagChange dw.val dw.src]⟩).withReport (.ok none)))) ∧
  (∀ (s s' : State) (x : Handle) (i : Instr) (h : FabricError → Bool) (failure : Option Nat) (own : List Nat) (dw : Delivery)
    (e : FabricError),
    s.reaction x (.onFlagChange dw.val dw.src) = ⟨[⟨i, h⟩], failure, own⟩ → dw.zero = 0#16 → i.isCommand = true →
    perform s.fuel i (s.putExt x ⟨own, (s.ext x).seen ++ [.onFlagChange dw.val dw.src]⟩) = .err s' e →
    exec (.extOnf x dw) s =
      .next (s'.withReport (if h e then failure.elim (.ok none) fun code => .err (.ofListener x code) else .err e)))

/-! ## Clocks -/

/-- R171, R172: CNEW makes a plain clock with no listeners; DNEW makes a divider with counter 0 and no listeners, and a period less than 1 is
refused. -/
def Obligations.CnewAndDnewMakeTheClock : Prop :=
  ∀ (s : State) (c : Handle), s.phase = .wiring →
    (s.clock? c = none → exec (.cnew c) s = .next ((s.putClock c ⟨none, []⟩).withReport (.ok none))) ∧
    (∀ period : Word, 1 ≤ period.toInt → s.clock? c = none →
      exec (.dnew c period) s = .next ((s.putClock c ⟨some ⟨period.toInt.toNat, 0⟩, []⟩).withReport (.ok none))) ∧
    (∀ period : Word, period.toInt < 1 → exec (.dnew c period) s = .refused .badPeriod)

/-- R173, R183: CADDL appends an external listener, or a divider from which no path of dividers leads back; a listener already listed and a
divider from which one does are refused. -/
def Obligations.CaddlAppendsUnlessACycleArises : Prop :=
  ∀ (s : State) (c : Handle) (u : Clock) (l : ListenerRef), s.phase = .wiring → s.clock? c = some u →
    (l.kind = 0x05#8 →
      (.external l.index ∉ u.listeners →
        exec (.caddl c l) s =
          .next ((s.putClock c { u with listeners := u.listeners ++ [.external l.index] }).withReport (.ok none))) ∧
      (.external l.index ∈ u.listeners → exec (.caddl c l) s = .refused .listenerListed)) ∧
    (∀ d, l.kind = 0x02#8 → s.clock? l.index = some d → d.divider.isSome = true →
      (s.Reaches l.index c → exec (.caddl c l) s = .refused .dividerCycle) ∧
      (¬s.Reaches l.index c → .divider l.index ∉ u.listeners →
        exec (.caddl c l) s =
          .next ((s.putClock c { u with listeners := u.listeners ++ [.divider l.index] }).withReport (.ok none))) ∧
      (¬s.Reaches l.index c → .divider l.index ∈ u.listeners → exec (.caddl c l) s = .refused .listenerListed)) ∧
    (l.kind ≠ 0x02#8 → l.kind ≠ 0x05#8 → exec (.caddl c l) s = .refused .listenerKind)

/-- R175, R176, R182: TICK delivers one pulse to every listener in registration order and reads and changes no counter; said for
listeners that only observe, of which there may be none.
What a listener saw is read off the record the model keeps (log 6). -/
def Obligations.TickPulsesEveryListenerOnce : Prop :=
  ∀ (s : State) (c : Handle) (u : Clock) (xs : List Handle), s.clock? c = some u → s.midPulse c = false →
    u.listeners = xs.map .external → (∀ x ∈ xs, s.observes x) → 1 ≤ s.fuel →
    exec (.tick c) s = .next ((s.enterRun.observedBy (.onTick c) xs).withReport (.ok none))

/-- R183: a TICK of a clock in mid-pulse is refused, and so is the pulse whose own listener's behaviour function yields one first. -/
def Obligations.TickInsideItsOwnPulseIsRefused : Prop :=
  (∀ (s : State) (c : Handle) (u : Clock), s.clock? c = some u → s.midPulse c = true → exec (.tick c) s = .refused (.clockBusy c)) ∧
  (∀ (s : State) (c x : Handle) (u : Clock) (h : FabricError → Bool) (cs : List ExtCommand) (failure : Option Nat) (own : List Nat)
    (ls : List Listener), s.clock? c = some u → s.midPulse c = false → u.listeners = .external x :: ls →
    s.reaction x (.onTick c) = ⟨⟨.tick c, h⟩ :: cs, failure, own⟩ → 2 ≤ s.fuel → exec (.tick c) s = .refused (.clockBusy c))

/-- R177: TICKN with n of 0 or less issues no pulse and succeeds; with n of 1 or more it is one TICK and then, if that succeeds, TICKN with
one less, else it ends with that pulse's error as it is. -/
def Obligations.TicknIsThatManyTicks : Prop :=
  ∀ (s : State) (c : Handle) (u : Clock) (n : Word), s.clock? c = some u →
    (n.toInt ≤ 0 → exec (.tickn c n) s = .next (s.enterRun.withReport (.ok none))) ∧
    (0 < n.toInt →
      (∀ t, exec (.tick c) s = .next t → t.report = some (.ok none) → exec (.tickn c n) s = exec (.tickn c (n - 1#32)) t) ∧
      (∀ t e, exec (.tick c) s = .next t → t.report = some (.err e) → exec (.tickn c n) s = .next t) ∧
      (∀ w, exec (.tick c) s = .refused w → exec (.tickn c n) s = .refused w))

/-- R178: DIV.ONT counts the pulse; on the last pulse of a period the counter is 0 and the divider's own listeners are pulsed (said for
listeners that only observe, of which there may be none).
What a listener saw is read off the record the model keeps (log 6); that a word presented on its own is taken whatever source handle it
carries is the model's choice (log 19). -/
def Obligations.DivOntCountsAndFires : Prop :=
  ∀ (s : State) (d : Handle) (u : Clock) (v : Divider) (dw : Delivery) (xs : List Handle), s.clock? d = some u →
    u.divider = some v → dw.zero = 0#16 → dw.val = 0#8 →
    (v.counter + 1 ≠ v.period →
      exec (.divOnt d dw) s =
        .next ((s.putClock d { u with divider := some { v with counter := v.counter + 1 } }).withReport (.ok none))) ∧
    (v.counter + 1 = v.period → s.midPulse d = false → u.listeners = xs.map .external → (∀ x ∈ xs, s.observes x) → 2 ≤ s.fuel →
      exec (.divOnt d dw) s =
        .next (((s.putClock d { u with divider := some { v with counter := 0 } }).observedBy (.onTick d) xs).withReport
          (.ok none)))

/-- R180: of n pulses of its parent a divider of period N, its counter at k, fires its listener exactly (k + n) / N times, and its counter
ends at (k + n) mod N; from reset, k is 0, so it fires on exactly the pulses N, 2N, 3N and on.
What a listener saw is read off the record the model keeps (log 6). -/
def Obligations.DividerFiresOnEveryPeriodthPulse : Prop :=
  ∀ (s : State) (c d x : Handle) (uc ud : Clock) (v : Divider) (n : Word), s.clock? c = some uc → s.clock? d = some ud → c ≠ d →
    uc.listeners = [.divider d] → ud.divider = some v → ud.listeners = [.external x] → s.observes x →
    1 ≤ v.period → v.counter < v.period → s.midPulse c = false → s.midPulse d = false → 3 ≤ s.fuel → 0 ≤ n.toInt →
    ∃ t, exec (.tickn c n) s = .next t ∧ t.report = some (.ok none) ∧
      t.clock? d = some { ud with divider := some { v with counter := (v.counter + n.toInt.toNat) % v.period } } ∧
      (t.ext x).seen = (s.ext x).seen ++ List.replicate ((v.counter + n.toInt.toNat) / v.period) (.onTick d) ∧
      t.buses = s.buses ∧ t.flags = s.flags ∧ t.mems = s.mems ∧ t.maps = s.maps ∧ t.carts = s.carts ∧ t.stack = s.stack

/-- R289, R292: a failure inside a divided pulse is wrapped once per clock level and undoes nothing: the divider's counter stays 0.
What a listener saw is read off the record the model keeps (log 6). -/
def Obligations.FailureInADividedPulseKeepsTheCounterReset : Prop :=
  ∀ (s s1 : State) (c d x : Handle) (uc ud : Clock) (v : Divider) (code : Nat) (own : List Nat), s.clock? c = some uc →
    s.clock? d = some ud → c ≠ d → uc.listeners = [.divider d] → ud.divider = some v → v.counter + 1 = v.period →
    ud.listeners = [.external x] → s1 = s.enterRun.putClock d { ud with divider := some { v with counter := 0 } } →
    s1.reaction x (.onTick d) = ⟨[], some code, own⟩ → s.midPulse c = false → s.midPulse d = false → 3 ≤ s.fuel →
    exec (.tick c) s =
      .next ((s1.putExt x ⟨own, (s.ext x).seen ++ [.onTick d]⟩).withReport
        (.err (.signalPropagation (.signalPropagation (.ofListener x code)))))

/-- R28: every step keeps every divider's counter below its period, and the period 1 or more. -/
def Obligations.EveryStepKeepsCountersBelowPeriods : Prop :=
  ∀ s t : State, s.countersInRange → step s = .next t → t.countersInRange

/-! ## Memories -/

/-- R193, R219: for RAMNEW, ROMNEW and the three mapper constructors alike an illegal range raises InvalidAddressRange; under a legal one
a contents array of another length than the range's size raises SizeMismatch; nothing is made. That these errors come before any refusal
of the other operands, a contents length of 2^31 and above among them, is the model's reading (log 9). -/
def Obligations.RangeAndSizeErrorsMakeNothing : Prop :=
  ∀ (s : State) (h : Handle) (lo hi : Word), s.phase = .wiring →
    (lo.toInt < 0 ∨ hi.toInt < 0 ∨ hi.toInt ≤ lo.toInt → ∀ i : Instr,
      ((∃ t contents, i = .ramnew h lo hi t contents ∨ i = .romnew h lo hi t contents) ∨
        ∃ outer inner mem, i = .mapnewI h lo hi outer inner mem ∨ (∃ mask, i = .mapnewM h lo hi outer inner mem mask) ∨
          ∃ bases, i = .mapnewB h lo hi outer inner mem bases) →
      exec i s = .next (s.withReport (.err (.invalidAddressRange lo.toInt hi.toInt)))) ∧
    (∀ (t : Triple) (cells : List Byte), 0 ≤ lo.toInt → lo.toInt < hi.toInt → (cells.length : Int) ≠ hi.toInt - lo.toInt + 1 →
      exec (.ramnew h lo hi t (some cells)) s =
        .next (s.withReport (.err (.sizeMismatch [(hi.toInt - lo.toInt + 1).toNat] cells.length))) ∧
      exec (.romnew h lo hi t (some cells)) s =
        .next (s.withReport (.err (.sizeMismatch [(hi.toInt - lo.toInt + 1).toNat] cells.length))))

/-- R191, R192, R194, R30: RAMNEW and ROMNEW with a legal range make a memory whose cells are the array's or 0 and append it to its flag's
list; nothing else changes. Only a RAM's data bus is bounded by the cell width. -/
def Obligations.RamnewAndRomnewMakeTheMemory : Prop :=
  ∀ (s : State) (m : Handle) (start last : Word) (t : Triple) (contents : Option (List Byte)) (a d : Bus) (fl : Flag),
    s.phase = .wiring → 0 ≤ start.toInt → start.toInt < last.toInt → last.toInt - start.toInt + 1 < 2 ^ 31 →
    (∀ cells, contents = some cells → (cells.length : Int) = last.toInt - start.toInt + 1) → s.mem? m = none →
    s.bus? t.abus = some a → s.bus? t.dbus = some d → s.flag? t.flag = some fl → .memory m ∉ fl.listeners →
    ∃ cells, (∀ i, Memory.read cells i = ((contents.getD [])[i]?).getD 0#8) ∧
      Memory.wf (last.toNat - start.toNat + 1) cells ∧
      (d.width ≤ 8 → exec (.ramnew m start last t contents) s =
        .next (((s.putMem m ⟨.ram, start.toNat, last.toNat, t.abus, t.dbus, t.flag, cells⟩).putFlag t.flag
          { fl with listeners := fl.listeners ++ [.memory m] }).withReport (.ok none))) ∧
      exec (.romnew m start last t contents) s =
        .next (((s.putMem m ⟨.rom, start.toNat, last.toNat, t.abus, t.dbus, t.flag, cells⟩).putFlag t.flag
          { fl with listeners := fl.listeners ++ [.memory m] }).withReport (.ok none))

/-- R196, R199: a READ-type value of its own flag makes a memory put the cell the address bus selects on the data bus, or raise
InvalidBusData when the cell does not fit; nothing else changes, the memory included. RAM.RD and ROM.RD, and the .OTH rows when a platform gives their value this class (R99, log 10). -/
def Obligations.MemoryReadPutsTheCellOnTheDataBus : Prop :=
  ∀ (s : State) (m : Handle) (u : Mem) (a d : Bus) (dw : Delivery) (i : Instr), s.mem? m = some u → dw.zero = 0#16 →
    s.classOf dw.val = some .read → dw.src = u.flag → s.bus? u.abus = some a → u.start ≤ a.value.toNat →
    a.value.toNat ≤ u.last → s.bus? u.dbus = some d → d.width ≤ 31 →
    (u.kind = .ram ∧ (i = .ramRd m dw ∨ i = .ramOth m dw) ∨ u.kind = .rom ∧ (i = .romRd m dw ∨ i = .romOth m dw)) →
    ((Memory.read u.contents (a.value.toNat - u.start)).toNat < 2 ^ d.width →
      exec i s = .next ((s.putBus u.dbus
        { d with value := (Memory.read u.contents (a.value.toNat - u.start)).setWidth 32 }).withReport (.ok none))) ∧
    (2 ^ d.width ≤ (Memory.read u.contents (a.value.toNat - u.start)).toNat →
      exec i s = .next (s.withReport
        (.err (.invalidBusData u.dbus ((Memory.read u.contents (a.value.toNat - u.start)).setWidth 32)))))

/-- R197: a WRITE-type value of its own flag makes a RAM store the data bus's current value in the cell the address bus selects; no bus,
no flag and no other cell changes. RAM.WR, and RAM.OTH when a platform gives its value this class (R99, log 10). -/
def Obligations.RamWriteStoresTheDataBus : Prop :=
  ∀ (s : State) (m : Handle) (u : Mem) (a d : Bus) (dw : Delivery), s.mem? m = some u → u.kind = .ram → dw.zero = 0#16 →
    s.classOf dw.val = some .write → dw.src = u.flag → s.bus? u.abus = some a → u.start ≤ a.value.toNat →
    a.value.toNat ≤ u.last → s.bus? u.dbus = some d → d.value.toNat < 256 →
    ∃ cells, (∀ j, Memory.read cells j =
        if j = a.value.toNat - u.start then d.value.setWidth 8 else Memory.read u.contents j) ∧
      ∀ i, i = .ramWr m dw ∨ i = .ramOth m dw → exec i s = .next ((s.putMem m { u with contents := cells }).withReport (.ok none))

/-- R198, R200, R201: a RAM and a ROM do nothing on a value of class OTHER, and a ROM nothing on a WRITE-type value, in range or out. -/
def Obligations.SilentReactionsChangeNothing : Prop :=
  ∀ (s : State) (m : Handle) (u : Mem) (dw : Delivery), s.mem? m = some u → dw.zero = 0#16 →
    (u.kind = .ram → s.classOf dw.val = some .other → exec (.ramOth m dw) s = .next (s.withReport (.ok none))) ∧
    (u.kind = .rom → s.classOf dw.val = some .other → exec (.romOth m dw) s = .next (s.withReport (.ok none))) ∧
    (u.kind = .rom → s.classOf dw.val = some .write → exec (.romWr m dw) s = .next (s.withReport (.ok none)) ∧
      exec (.romOth m dw) s = .next (s.withReport (.ok none)))

/-- R195, R202: a memory does nothing on a flag not its own, and nothing when its address bus holds an address outside its range, whatever
the class of the value. -/
def Obligations.MemoryOutsideItsRangeIsSilent : Prop :=
  ∀ (s : State) (m : Handle) (u : Mem) (a : Bus) (dw : Delivery) (cls : ValueClass) (i : Instr), s.mem? m = some u →
    dw.zero = 0#16 → s.bus? u.abus = some a → (dw.src ≠ u.flag ∨ a.value.toNat < u.start ∨ u.last < a.value.toNat) →
    s.classOf dw.val = some cls →
    (u.kind = .ram ∧ (i = .ramRd m dw ∨ i = .ramWr m dw ∨ i = .ramOth m dw) ∨
      u.kind = .rom ∧ (i = .romRd m dw ∨ i = .romWr m dw ∨ i = .romOth m dw)) →
    exec i s = .next (s.withReport (.ok none))

/-- R72, R79, R80, R197: on a triple only one RAM hears, a STORE to one address, a STORE to another and a LOAD of the first answer the value
stored first, whatever the data bus held in between. -/
def Obligations.LoadReturnsTheLatestStore : Prop :=
  ∀ (s : State) (t : Triple) (m : Handle) (u : Mem) (a d : Bus) (fl : Flag) (x x' v v' : Word), s.mem? m = some u →
    u.kind = .ram → u.abus = t.abus → u.dbus = t.dbus → u.flag = t.flag → t.abus ≠ t.dbus → s.bus? t.abus = some a →
    s.bus? t.dbus = some d → s.flag? t.flag = some fl → fl.set = 0#4 → fl.listeners = [.memory m] → a.width ≤ 31 → d.width ≤ 8 →
    x.toNat < 2 ^ a.width → x'.toNat < 2 ^ a.width → v.toNat < 2 ^ d.width → v'.toNat < 2 ^ d.width → x ≠ x' →
    u.start ≤ x.toNat → x.toNat ≤ u.last → u.start ≤ x'.toNat → x'.toNat ≤ u.last → 1 ≤ s.fuel →
    ∃ e, runAll (storeAccess t x v ++ storeAccess t x' v' ++ loadAccess t x) s = .next e ∧ e.report = some (.ok (some v)) ∧
      e.cell? m (x.toNat - u.start) = some (v.setWidth 8) ∧ e.cell? m (x'.toNat - u.start) = some (v'.setWidth 8)

/-- R74: when two memories on one flag both answer a READ-type access, the data bus ends with the value of the one registered last. -/
def Obligations.LastAnsweringListenerWinsARead : Prop :=
  ∀ (s : State) (f m m' : Handle) (u u' : Mem) (fl : Flag) (a d : Bus), s.flag? f = some fl → fl.set = 0#4 →
    fl.listeners = [.memory m, .memory m'] → s.mem? m = some u → s.mem? m' = some u' → u.flag = f → u'.flag = f →
    u'.abus = u.abus → u'.dbus = u.dbus → u.abus ≠ u.dbus → s.bus? u.abus = some a → s.bus? u.dbus = some d → 8 ≤ d.width →
    d.width ≤ 31 → u.start ≤ a.value.toNat → a.value.toNat ≤ u.last → u'.start ≤ a.value.toNat → a.value.toNat ≤ u'.last →
    1 ≤ s.fuel →
    ∃ t, exec (.fset f valRead) s = .next t ∧ t.report = some (.ok none) ∧
      t.bus? u.dbus = some { d with value := (Memory.read u'.contents (a.value.toNat - u'.start)).setWidth 32 }

/-- R29: every step keeps every memory's range legal and its contents canonical: offsets rising and in range, no listed cell 0. -/
def Obligations.EveryStepKeepsMemoriesCanonical : Prop :=
  ∀ s t : State, s.memoriesCanonical → step s = .next t → t.memoriesCanonical

/-- R30, R200, R259: no step changes a ROM: cells of a ROM are never written after construction. -/
def Obligations.NoStepChangesARom : Prop :=
  ∀ (s t : State) (m : Handle) (u : Mem), s.mem? m = some u → u.kind = .rom → step s = .next t → t.mem? m = some u

/-! ## Mappers -/

/-- R216 to R218, R220: the mapper constructors make the mapper and append it to its outer flag's list, and change nothing else; the bank
selector of kind B is 0. That no number of banks is too large, 2^31 and above too, is the model's choice (log 21). -/
def Obligations.MapnewMakesTheMapper : Prop :=
  ∀ (s : State) (k : Handle) (first last : Word) (outer inner : Triple) (mem : Handle) (w : Mem) (fl : Flag),
    s.phase = .wiring → 0 ≤ first.toInt → first.toInt < last.toInt → s.map? k = none → s.hasTriple outer = true →
    s.hasTriple inner = true → outer.flag ≠ inner.flag → s.mem? mem = some w → w.abus = inner.abus → w.dbus = inner.dbus →
    w.flag = inner.flag → s.flag? outer.flag = some fl → .mapper k ∉ fl.listeners →
    exec (.mapnewI k first last outer inner mem) s =
      .next (((s.putMap k ⟨.identity, first.toNat, last.toNat, outer, inner, mem⟩).putFlag outer.flag
        { fl with listeners := fl.listeners ++ [.mapper k] }).withReport (.ok none)) ∧
    (∀ mask : Word, mask.toNat < 2 ^ 31 →
      exec (.mapnewM k first last outer inner mem mask) s =
        .next (((s.putMap k ⟨.mirrored mask, first.toNat, last.toNat, outer, inner, mem⟩).putFlag outer.flag
          { fl with listeners := fl.listeners ++ [.mapper k] }).withReport (.ok none))) ∧
    (∀ bases : List Word, bases ≠ [] → (∀ b ∈ bases, b.toNat < 2 ^ 31) →
      exec (.mapnewB k first last outer inner mem bases) s =
        .next (((s.putMap k ⟨.banked bases 0#8, first.toNat, last.toNat, outer, inner, mem⟩).putFlag outer.flag
          { fl with listeners := fl.listeners ++ [.mapper k] }).withReport (.ok none)))

/-- R221 to R224: MXLT answers the address itself outside the range, and inside it the address, the address masked, or the selected bank's
base plus the offset into the window; it changes nothing. That it answers the address itself outside the range is a decision of the spec
(D22, log 18); that a sum of 2^31 or more is refused is the model's reading of R14 (log 15). -/
def Obligations.MxltTranslates : Prop :=
  ∀ (s : State) (k : Handle) (u : Mapper) (a : BitVec 31), s.map? k = some u →
    (a.toNat < u.first ∨ u.last < a.toNat → exec (.mxlt k a) s = .next (s.enterRun.withReport (.ok (some (a.setWidth 32))))) ∧
    (u.first ≤ a.toNat → a.toNat ≤ u.last →
      (u.kind = .identity → exec (.mxlt k a) s = .next (s.enterRun.withReport (.ok (some (a.setWidth 32))))) ∧
      (∀ mask, u.kind = .mirrored mask →
        exec (.mxlt k a) s = .next (s.enterRun.withReport (.ok (some (a.setWidth 32 &&& mask))))) ∧
      (∀ bases sel base, u.kind = .banked bases sel → bases[sel.toNat]? = some base →
        base.toNat + (a.toNat - u.first) < 2 ^ 31 →
        exec (.mxlt k a) s =
          .next (s.enterRun.withReport (.ok (some (BitVec.ofNat 32 (base.toNat + (a.toNat - u.first))))))) ∧
      (∀ bases sel base, u.kind = .banked bases sel → bases[sel.toNat]? = some base →
        2 ^ 31 ≤ base.toNat + (a.toNat - u.first) → exec (.mxlt k a) s = .refused .tooLarge))

/-- R225: MBSEL writes the selector and nothing else; a bank outside the table and a mapper of kind I or M are refused. -/
def Obligations.MbselSelectsTheBank : Prop :=
  ∀ (s : State) (k : Handle) (u : Mapper) (bank : Byte), s.map? k = some u →
    (∀ bases sel, u.kind = .banked bases sel →
      (bank.toNat < bases.length →
        exec (.mbsel k bank) s = .next ((s.enterRun.putMap k { u with kind := .banked bases bank }).withReport (.ok none))) ∧
      (bases.length ≤ bank.toNat → exec (.mbsel k bank) s = .refused .bankIndex)) ∧
    ((u.kind = .identity ∨ ∃ mask, u.kind = .mirrored mask) → exec (.mbsel k bank) s = .refused .notBanked)

/-- R227: MAP.RD puts the translated address on the inner address bus, sets the inner flag to the value delivered, and after the inner memory
has answered copies the inner data bus to the outer data bus. Said for one inner memory, a RAM or a ROM, that answers; for MAP.RD, and for MAP.OTH when a platform
gives its value this class (R99, log 10). -/
def Obligations.MapRdRelaysARead : Prop :=
  ∀ (s : State) (k m : Handle) (u : Mapper) (w : Mem) (a ia id od : Bus) (fl : Flag) (dw : Delivery) (t : Nat) (i : Instr),
    (i = .mapRd k dw ∨ i = .mapOth k dw) →
    s.map? k = some u → dw.zero = 0#16 → s.classOf dw.val = some .read → dw.src = u.outer.flag →
    s.bus? u.outer.abus = some a → u.first ≤ a.value.toNat → a.value.toNat ≤ u.last → translateAddress u a.value.toNat = .ok t →
    s.bus? u.inner.abus = some ia → ia.width ≤ 31 → t < 2 ^ ia.width → s.flag? u.inner.flag = some fl →
    s.memberOf fl.set dw.val = true → fl.listeners = [.memory m] → s.mem? m = some w → onTriple w u.inner = true →
    w.start ≤ t → t ≤ w.last → s.bus? u.inner.dbus = some id → s.bus? u.outer.dbus = some od → id.width ≤ 31 → od.width ≤ 31 →
    (Memory.read w.contents (t - w.start)).toNat < 2 ^ id.width →
    (Memory.read w.contents (t - w.start)).toNat < 2 ^ od.width → 2 ≤ s.fuel →
    exec i s =
      .next (((((s.putBus u.inner.abus { ia with value := BitVec.ofNat 32 t }).putFlag u.inner.flag
        { fl with value := dw.val }).putBus u.inner.dbus
          { id with value := (Memory.read w.contents (t - w.start)).setWidth 32 }).putBus u.outer.dbus
            { od with value := (Memory.read w.contents (t - w.start)).setWidth 32 }).withReport (.ok none))

/-- R232: when the translated address misses the inner memory, MAP.RD (and MAP.OTH on a platform's READ-type value: R99, log 10) still copies
what the inner data bus held to the outer data bus. -/
def Obligations.MapRdInnerMissCopiesTheStaleBus : Prop :=
  ∀ (s : State) (k m : Handle) (u : Mapper) (w : Mem) (a ia id od : Bus) (fl : Flag) (dw : Delivery) (t : Nat) (i : Instr),
    (i = .mapRd k dw ∨ i = .mapOth k dw) →
    s.map? k = some u → dw.zero = 0#16 → s.classOf dw.val = some .read → dw.src = u.outer.flag →
    s.bus? u.outer.abus = some a → u.first ≤ a.value.toNat → a.value.toNat ≤ u.last → translateAddress u a.value.toNat = .ok t →
    s.bus? u.inner.abus = some ia → ia.width ≤ 31 → t < 2 ^ ia.width → s.flag? u.inner.flag = some fl →
    s.memberOf fl.set dw.val = true → fl.listeners = [.memory m] → s.mem? m = some w → onTriple w u.inner = true →
    (t < w.start ∨ w.last < t) → s.bus? u.inner.dbus = some id → u.inner.dbus ≠ u.inner.abus → s.bus? u.outer.dbus = some od →
    od.width ≤ 31 → id.value.toNat < 2 ^ od.width → u.outer.dbus ≠ u.inner.abus → 2 ≤ s.fuel →
    exec i s =
      .next ((((s.putBus u.inner.abus { ia with value := BitVec.ofNat 32 t }).putFlag u.inner.flag
        { fl with value := dw.val }).putBus u.outer.dbus { od with value := id.value }).withReport (.ok none))

/-- R228: MAP.WR puts the translated address on the inner address bus, copies the outer data bus to the inner one before relaying, and sets the
inner flag; an inner RAM that answers stores the value, an inner ROM ignores it. Nothing comes back to the outer data bus.
For MAP.WR, and for MAP.OTH when a platform gives its value this class (R99, log 10). -/
def Obligations.MapWrRelaysAWrite : Prop :=
  ∀ (s : State) (k m : Handle) (u : Mapper) (w : Mem) (a ia id od : Bus) (fl : Flag) (dw : Delivery) (t : Nat) (i : Instr),
    (i = .mapWr k dw ∨ i = .mapOth k dw) →
    s.map? k = some u → dw.zero = 0#16 → s.classOf dw.val = some .write → dw.src = u.outer.flag →
    s.bus? u.outer.abus = some a → u.first ≤ a.value.toNat → a.value.toNat ≤ u.last → translateAddress u a.value.toNat = .ok t →
    s.bus? u.inner.abus = some ia → ia.width ≤ 31 → t < 2 ^ ia.width → s.flag? u.inner.flag = some fl →
    s.memberOf fl.set dw.val = true → fl.listeners = [.memory m] → s.mem? m = some w → onTriple w u.inner = true →
    w.start ≤ t → t ≤ w.last → s.bus? u.inner.dbus = some id → s.bus? u.outer.dbus = some od → id.width ≤ 31 →
    u.inner.abus ≠ u.inner.dbus → u.inner.abus ≠ u.outer.dbus → od.value.toNat < 2 ^ id.width → 2 ≤ s.fuel →
    (w.kind = .rom →
      exec i s =
        .next ((((s.putBus u.inner.abus { ia with value := BitVec.ofNat 32 t }).putBus u.inner.dbus
          { id with value := od.value }).putFlag u.inner.flag { fl with value := dw.val }).withReport (.ok none))) ∧
    (w.kind = .ram → od.value.toNat < 256 →
      ∃ cells, (∀ j, Memory.read cells j = if j = t - w.start then od.value.setWidth 8 else Memory.read w.contents j) ∧
        exec i s =
          .next (((((s.putBus u.inner.abus { ia with value := BitVec.ofNat 32 t }).putBus u.inner.dbus
            { id with value := od.value }).putFlag u.inner.flag { fl with value := dw.val }).putMem m
              { w with contents := cells }).withReport (.ok none)))

/-- R229: MAP.OTH puts the translated address on the inner address bus and sets the inner flag; no data moves in either direction. Said for
one inner memory. -/
def Obligations.MapOthRelaysWithoutData : Prop :=
  ∀ (s : State) (k m : Handle) (u : Mapper) (w : Mem) (a ia : Bus) (fl : Flag) (dw : Delivery) (t : Nat),
    s.map? k = some u → dw.zero = 0#16 → s.classOf dw.val = some .other → dw.src = u.outer.flag →
    s.bus? u.outer.abus = some a → u.first ≤ a.value.toNat → a.value.toNat ≤ u.last → translateAddress u a.value.toNat = .ok t →
    s.bus? u.inner.abus = some ia → ia.width ≤ 31 → t < 2 ^ ia.width → s.flag? u.inner.flag = some fl →
    s.memberOf fl.set dw.val = true → fl.listeners = [.memory m] → s.mem? m = some w → 2 ≤ s.fuel →
    exec (.mapOth k dw) s =
      .next (((s.putBus u.inner.abus { ia with value := BitVec.ofNat 32 t }).putFlag u.inner.flag
        { fl with value := dw.val }).withReport (.ok none))

/-- R226, R231: a mapper does nothing on a flag not its outer one, and nothing when the outer address bus holds an address outside its
range, whatever the class of the value. -/
def Obligations.MapperOutsideItsRangeIsSilent : Prop :=
  ∀ (s : State) (k : Handle) (u : Mapper) (a : Bus) (dw : Delivery) (cls : ValueClass) (i : Instr), s.map? k = some u →
    dw.zero = 0#16 → s.bus? u.outer.abus = some a →
    (dw.src ≠ u.outer.flag ∨ a.value.toNat < u.first ∨ u.last < a.value.toNat) → s.classOf dw.val = some cls →
    (i = .mapRd k dw ∨ i = .mapWr k dw ∨ i = .mapOth k dw) → exec i s = .next (s.withReport (.ok none))

/-- R230: an error of a bus write of the relay is wrapped once by the mapper, and what the steps before it did stays: the address write (the
translated address is wider than the inner address bus: nothing has changed), the data write of MAP.WR step 2 (the address is written, the
inner flag not set) and the data read-back of MAP.RD step 3 (the address is written and the inner cascade done). An error of the nested FSET
passes with no new wrapper. The outer FSET wraps the mapper's error once more, wherever the mapper stands on the list (said for the
address write; for every listener's error FsetStopsAtTheFirstFailingListener says so). -/
def Obligations.RelayErrorsAreWrappedOnce : Prop :=
  (∀ (s s1 : State) (k : Handle) (u : Mapper) (ia : Bus) (dw : Delivery) (t : Nat), s.relays k u dw t →
    s.bus? u.inner.abus = some ia → ia.width ≤ 31 → t < 2 ^ 32 →
    s1 = s.putBus u.inner.abus { ia with value := BitVec.ofNat 32 t } →
    (2 ^ ia.width ≤ t →
      ∀ i, (s.classOf dw.val = some .read ∧ i = .mapRd k dw ∨ s.classOf dw.val = some .write ∧ i = .mapWr k dw ∨
        s.classOf dw.val = some .other ∧ i = .mapOth k dw) →
      exec i s = .next (s.withReport (.err (.signalPropagation (.invalidBusData u.inner.abus (BitVec.ofNat 32 t)))))) ∧
    (t < 2 ^ ia.width →
      (∀ id od, s.classOf dw.val = some .write → s1.bus? u.inner.dbus = some id → s1.bus? u.outer.dbus = some od → id.width ≤ 31 →
        2 ^ id.width ≤ od.value.toNat →
        exec (.mapWr k dw) s = .next (s1.withReport (.err (.signalPropagation (.invalidBusData u.inner.dbus od.value))))) ∧
      (∀ s2 v id od, s.classOf dw.val = some .read → perform s.fuel (.fset u.inner.flag dw.val) s1 = .ok s2 v →
        s2.bus? u.inner.dbus = some id → s2.bus? u.outer.dbus = some od → od.width ≤ 31 → 2 ^ od.width ≤ id.value.toNat →
        exec (.mapRd k dw) s = .next (s2.withReport (.err (.signalPropagation (.invalidBusData u.outer.dbus id.value))))) ∧
      (∀ s2 e i, (s.classOf dw.val = some .read ∧ i = .mapRd k dw ∨ s.classOf dw.val = some .other ∧ i = .mapOth k dw) →
        perform s.fuel (.fset u.inner.flag dw.val) s1 = .err s2 e → exec i s = .next (s2.withReport (.err e))) ∧
      (∀ s2 e id od, s.classOf dw.val = some .write → s1.bus? u.inner.dbus = some id → s1.bus? u.outer.dbus = some od →
        id.width ≤ 31 → od.value.toNat < 2 ^ id.width →
        perform s.fuel (.fset u.inner.flag dw.val) (s1.putBus u.inner.dbus { id with value := od.value }) = .err s2 e →
        exec (.mapWr k dw) s = .next (s2.withReport (.err e))))) ∧
  (∀ (s s1 : State) (k : Handle) (u : Mapper) (ia : Bus) (val : Byte) (t : Nat) (fl : Flag) (before after : List Listener)
    (v : Option Word), s.flag? u.outer.flag = some fl → s.memberOf fl.set val = true → fl.listeners = before ++ .mapper k :: after →
    deliverAll (perform s.fuel) (flagReaction u.outer.flag val) (fun i => .flag u.outer.flag i val) s.stack 0 before
      (s.enterRun.putFlag u.outer.flag { fl with value := val }) = .ok s1 v →
    s1.relays k u ⟨0#16, u.outer.flag, val⟩ t → s1.bus? u.inner.abus = some ia → ia.width ≤ 31 → t < 2 ^ 32 →
    2 ^ ia.width ≤ t → 1 ≤ s.fuel →
    exec (.fset u.outer.flag val) s =
      .next ((s1.withStack s.stack).withReport
        (.err (.signalPropagation (.signalPropagation (.invalidBusData u.inner.abus (BitVec.ofNat 32 t)))))))

/-- R32: every step keeps every mapper's range and own fields legal, the bank selector inside the bank table among them. -/
def Obligations.EveryStepKeepsMappersLegal : Prop :=
  ∀ s t : State, s.mappersLegal → step s = .next t → t.mappersLegal

/-! ## Cartridges -/

/-- R253, R256, R257: CARTNEW raises UnsupportedMapper for every mapper number but 0, before every other check, and SizeMismatch for a PRG
array of neither size; nothing is built. That its payload names both sizes (log 12), and that both errors come before any refusal of the
handles (log 9), are the model's readings; that no array is refused for a length of 2^31 and above is its choice (logs 9 and 21). -/
def Obligations.CartnewRaises : Prop :=
  ∀ (s : State) (q : Handle) (mapperId : Byte) (mirroring : Bool) (outer inner : Triple) (mem map : Handle) (prg chr : List Byte),
    s.phase = .wiring →
    (mapperId ≠ 0#8 →
      exec (.cartnew q mapperId mirroring outer inner mem map prg chr) s = .next (s.withReport (.err (.unsupportedMapper mapperId)))) ∧
    (mapperId = 0#8 → prg.length ≠ 16384 → prg.length ≠ 32768 →
      exec (.cartnew q mapperId mirroring outer inner mem map prg chr) s =
        .next (s.withReport (.err (.sizeMismatch [16384, 32768] prg.length))))

/-- R253 to R255, R258: CARTNEW of variant 0 makes the ROM with the PRG array at inner addresses from 0, the mirrored mapper over 0x8000 to
0xFFFF with mask one less than the array's length, and the cartridge with its four inputs; nothing else changes. That no CHR array is too
long, 2^31 bytes and above too, is the model's choice (log 21). -/
def Obligations.CartnewBuildsVariantZero : Prop :=
  ∀ (s : State) (q : Handle) (mirroring : Bool) (outer inner : Triple) (mem map : Handle) (prg chr : List Byte) (fo fi : Flag),
    s.phase = .wiring → (prg.length = 16384 ∨ prg.length = 32768) → s.cart? q = none → s.mem? mem = none → s.map? map = none →
    s.hasTriple outer = true → s.hasTriple inner = true → outer.flag ≠ inner.flag → s.flag? outer.flag = some fo →
    s.flag? inner.flag = some fi → .mapper map ∉ fo.listeners → .memory mem ∉ fi.listeners →
    ∃ cells, (∀ i, Memory.read cells i = (prg[i]?).getD 0#8) ∧ Memory.wf prg.length cells ∧
      exec (.cartnew q 0#8 mirroring outer inner mem map prg chr) s =
        .next ((((((s.putMem mem ⟨.rom, 0, prg.length - 1, inner.abus, inner.dbus, inner.flag, cells⟩).putFlag inner.flag
          { fi with listeners := fi.listeners ++ [.memory mem] }).putMap map
            ⟨.mirrored (BitVec.ofNat 32 (prg.length - 1)), 0x8000, 0xFFFF, outer, inner, mem⟩).putFlag outer.flag
              { fo with listeners := fo.listeners ++ [.mapper map] }).putCart q ⟨prg, chr, mirroring, 0#8⟩).withReport (.ok none))

/-- R254, R255, R260: after CARTNEW on flags nothing else hears, a LOAD of any address 0x8000 + i of the window answers the PRG byte i, mirrored when
the PRG array is 16 KiB: 0x8000 and 0xC000 answer the same byte. That no CHR array is too long is the model's choice (log 21). -/
def Obligations.CartridgeWindowReadsThePrgArray : Prop :=
  ∀ (s : State) (q : Handle) (mirroring : Bool) (outer inner : Triple) (mem map : Handle) (prg chr : List Byte) (fo fi : Flag)
    (oa od ia id : Bus) (i : Nat),
    s.phase = .wiring → (prg.length = 16384 ∨ prg.length = 32768) → s.cart? q = none → s.mem? mem = none → s.map? map = none →
    outer.flag ≠ inner.flag → s.flag? outer.flag = some fo → s.flag? inner.flag = some fi → fo.set = 0#4 → fi.set = 0#4 →
    fo.listeners = [] → fi.listeners = [] → s.bus? outer.abus = some oa → s.bus? outer.dbus = some od →
    s.bus? inner.abus = some ia → s.bus? inner.dbus = some id → 16 ≤ oa.width → oa.width ≤ 31 → 8 ≤ od.width → od.width ≤ 31 →
    15 ≤ ia.width → ia.width ≤ 31 → 8 ≤ id.width → id.width ≤ 31 → 3 ≤ s.fuel → i < 0x8000 →
    ∃ e, runAll (.cartnew q 0#8 mirroring outer inner mem map prg chr :: loadAccess outer (BitVec.ofNat 32 (0x8000 + i))) s = .next e ∧
      e.report = some (.ok (some (((prg[i % prg.length]?).getD 0#8).setWidth 32)))

/-- R110 to R112, R116, R117, R252: the parse of an iNES image gives its PRG and CHR arrays, mirroring bit and 8-bit mapper number, past the
trainer if there is one, and ignores bytes beyond; a wrong magic and a short file give no cartridge. -/
def Obligations.InesParseGivesTheFourInputs : Prop :=
  (∀ (prgUnits chrUnits flags6 flags7 : Byte) (reserved trainer prg chr rest : List Byte), reserved.length = 8 →
    trainer.length = (if flags6.getLsbD 2 then 512 else 0) → prg.length = prgUnits.toNat * 16384 →
    chr.length = chrUnits.toNat * 8192 →
    inesParse ([0x4E#8, 0x45#8, 0x53#8, 0x1A#8, prgUnits, chrUnits, flags6, flags7] ++ reserved ++ trainer ++ prg ++ chr ++ rest) =
      some ⟨prg, chr, flags6.getLsbD 0, BitVec.ofNat 8 (flags6.toNat / 16 + flags7.toNat / 16 * 16)⟩) ∧
  (∀ file : List Byte, file.take 4 ≠ [0x4E#8, 0x45#8, 0x53#8, 0x1A#8] → inesParse file = none) ∧
  (∀ file : List Byte, file.length < 16 → inesParse file = none) ∧
  (∀ (prgUnits chrUnits flags6 flags7 : Byte) (tail : List Byte),
    (tail.length : Nat) + 8 < 16 + (if flags6.getLsbD 2 then 512 else 0) + prgUnits.toNat * 16384 + chrUnits.toNat * 8192 →
    inesParse ([0x4E#8, 0x45#8, 0x53#8, 0x1A#8, prgUnits, chrUnits, flags6, flags7] ++ tail) = none)

/-! ## The whole machine -/

/-- R287: every error that reaches the issuer out of a cascade (FSET, TICK, TICKN) is a SignalPropagationError whose root cause is
InvalidBusData or an external listener's own error. -/
def Obligations.CascadeErrorsAreSignalPropagation : Prop :=
  ∀ (s t : State) (i : Instr) (e : FabricError), ((∃ f val, i = .fset f val) ∨ (∃ c, i = .tick c) ∨ ∃ c n, i = .tickn c n) →
    exec i s = .next t → t.report = some (.err e) →
    (∃ cause, e = .signalPropagation cause) ∧
      ((∃ b v, e.rootCause = .invalidBusData b v) ∨ ∃ x code, e.rootCause = .ofListener x code)

/-- R300: fuel invents no outcome: a cascade that does not run out of it has the same outcome with more. -/
def Obligations.MoreFuelChangesNoOutcome : Prop :=
  ∀ (n m : Nat) (i : Instr) (s : State), n ≤ m → perform n i s ≠ .refused .outOfFuel → perform m i s = perform n i s

/-- R20, R163, R305, R310, R322: in the run phase no step changes the configuration, and the run phase never ends. -/
def Obligations.NoRunPhaseStepChangesTheConfiguration : Prop :=
  ∀ s t : State, s.wellWired → s.phase = .run → step s = .next t → t.configuration = s.configuration ∧ t.phase = .run

/-- R104, R305: every configuration record is refused in the run phase, whatever its operands. -/
def Obligations.RecordsAreRefusedInTheRunPhase : Prop :=
  ∀ (s : State) (i : Instr), s.phase = .run → i.isCommand = false → i.isReaction = false → exec i s = .refused .wiringInRunPhase

/-- R35, R159, R164: every step, completed or ended by an error, leaves the dispatch stack as it found it; so, empty at
reset, it stays empty between steps. -/
def Obligations.EveryStepLeavesTheStackAsItWas : Prop :=
  ∀ s t : State, step s = .next t → t.stack = s.stack

/-- R38: every step keeps the wiring well formed. -/
def Obligations.EveryStepKeepsTheWiringWellFormed : Prop :=
  ∀ s t : State, s.wellWired → step s = .next t → t.wellWired

/-- R41, R320: the fabric before its first record meets every invariant of the state. (That State.reset is this fabric is the model's
reading, log 1.) -/
def Obligations.ResetMeetsTheInvariants : Prop :=
  State.reset.wellWired ∧ State.reset.flagsInSet ∧ State.reset.noOverlap ∧ State.reset.stack = [] ∧ State.reset.phase = .wiring
end

