-- ==== Sys2Proof/Laws/Table.lean ====
section
/-! SUPPORT. Laws of tables and of memory contents: read after write, what an entry of a written table is, and the canonical forms kept. -/

namespace Sys2Proof.Table

variable {α : Type}

@[simp] theorem look_nil (k : Nat) : look ([] : Table α) k = none := rfl

@[simp] theorem look_cons (j : Nat) (v : α) (t : Table α) (k : Nat) :
    look ((j, v) :: t) k = if j = k then some v else look t k := rfl

theorem look_put (k : Nat) (v : α) (t : Table α) (j : Nat) :
    look (put k v t) j = if k = j then some v else look t j := by
  induction t with
  | nil => simp [put]
  | cons p t ih =>
    obtain ⟨i, w⟩ := p
    rw [put]
    split
    · simp
    · split
      · subst_vars; simp only [look_cons]; split <;> rfl
      · rename_i hne
        simp only [look_cons, ih]
        by_cases hi : i = j
        · have : k ≠ j := fun h => hne (h.trans hi.symm)
          simp [hi, this]
        · simp [hi]

@[simp] theorem look_put_self (k : Nat) (v : α) (t : Table α) : look (put k v t) k = some v := by simp [look_put]

theorem look_put_ne {k j : Nat} (h : k ≠ j) (v : α) (t : Table α) : look (put k v t) j = look t j := by
  simp [look_put, h]

theorem look_remove (k : Nat) (t : Table α) (j : Nat) : look (remove k t) j = if k = j then none else look t j := by
  unfold remove
  induction t with
  | nil => simp
  | cons p t ih =>
    obtain ⟨i, w⟩ := p
    by_cases hi : i = k
    · subst hi; simp only [List.filter_cons, ne_eq, not_true_eq_false, decide_false, Bool.false_eq_true, if_false, ih, look_cons]
      split <;> rfl
    · simp only [List.filter_cons, ne_eq, hi, not_false_eq_true, decide_true, if_true, look_cons, ih]
      by_cases hj : i = j
      · have : k ≠ j := fun h => hi (hj.trans h.symm)
        simp [hj, this]
      · simp [hj]

theorem mem_put {k : Nat} {v : α} {t : Table α} {p : Nat × α} (h : p ∈ put k v t) : p = (k, v) ∨ p ∈ t := by
  induction t with
  | nil => exact .inl (by simpa [put] using h)
  | cons q t ih =>
    obtain ⟨i, w⟩ := q
    rw [put] at h
    split at h
    · simpa using h
    · split at h
      · rcases List.mem_cons.mp h with h | h
        · exact .inl h
        · exact .inr (List.mem_cons_of_mem _ h)
      · rcases List.mem_cons.mp h with h | h
        · exact .inr (h ▸ List.mem_cons_self)
        · exact (ih h).imp_right (List.mem_cons_of_mem _)

theorem rising_put (k : Nat) (v : α) {t : Table α} (h : Rising t) : Rising (put k v t) := by
  induction t with
  | nil => simp [put, Rising]
  | cons q t ih =>
    obtain ⟨i, w⟩ := q
    obtain ⟨hq, ht⟩ := List.pairwise_cons.mp h
    rw [put]
    split
    · rename_i hk
      refine List.pairwise_cons.mpr ⟨fun p hp => ?_, h⟩
      rcases List.mem_cons.mp hp with rfl | hp
      · exact hk
      · exact Nat.lt_trans hk (hq p hp)
    · split
      · rename_i hk; subst hk; exact List.pairwise_cons.mpr ⟨hq, ht⟩
      · rename_i h1 h2
        refine List.pairwise_cons.mpr ⟨fun p hp => ?_, ih ht⟩
        rcases mem_put hp with rfl | hp
        · simp only; omega
        · exact hq p hp

theorem rising_remove (k : Nat) {t : Table α} (h : Rising t) : Rising (remove k t) := h.filter _

theorem look_mem {t : Table α} {k : Nat} {v : α} (h : look t k = some v) : (k, v) ∈ t := by
  induction t with
  | nil => simp at h
  | cons q t ih =>
    obtain ⟨i, w⟩ := q
    rw [look_cons] at h
    split at h
    · subst_vars; simp at h; simp [h]
    · exact List.mem_cons_of_mem _ (ih h)

theorem mem_look {t : Table α} (hr : Rising t) {k : Nat} {v : α} (h : (k, v) ∈ t) : look t k = some v := by
  induction t with
  | nil => simp at h
  | cons q t ih =>
    obtain ⟨i, w⟩ := q
    obtain ⟨hq, ht⟩ := List.pairwise_cons.mp hr
    rcases List.mem_cons.mp h with h | h
    · cases h; simp
    · have := hq _ h
      rw [look_cons, if_neg (by simp at this; omega)]
      exact ih ht h

end Sys2Proof.Table

namespace Sys2Proof.Machine.Memory

theorem read_write (mem : Memory) (i : Nat) (v : Byte) (j : Nat) :
    read (write mem i v) j = if i = j then v else read mem j := by
  unfold read write
  by_cases hv : v = untouched <;> by_cases hj : i = j <;> simp [hv, hj, Table.look_remove, Table.look_put]

@[simp] theorem read_write_self (mem : Memory) (i : Nat) (v : Byte) : read (write mem i v) i = v := by simp [read_write]

theorem read_write_ne (mem : Memory) {i j : Nat} (h : i ≠ j) (v : Byte) : read (write mem i v) j = read mem j := by
  simp [read_write, h]

/-- A write of one cell of the range keeps the canonical form. -/
theorem wf_write {size : Nat} {mem : Memory} (h : wf size mem) {i : Nat} (hi : i < size) (v : Byte) :
    wf size (write mem i v) := by
  unfold write
  split
  · exact ⟨Table.rising_remove i h.1, fun p hp => h.2 p (List.mem_of_mem_filter hp)⟩
  · rename_i hv
    refine ⟨Table.rising_put i v h.1, fun p hp => ?_⟩
    rcases Table.mem_put hp with rfl | hp
    · exact ⟨hi, hv⟩
    · exact h.2 p hp

theorem ofArray_bounds (i : Nat) (vs : List Byte) : ∀ p ∈ ofArray i vs, i ≤ p.1 ∧ p.1 < i + vs.length ∧ p.2 ≠ untouched := by
  induction vs generalizing i with
  | nil => simp [ofArray]
  | cons v vs ih =>
    intro p hp
    rw [ofArray] at hp
    split at hp
    · obtain ⟨h1, h2, h3⟩ := ih (i + 1) p hp
      exact ⟨by omega, by simp only [List.length_cons]; omega, h3⟩
    · rcases List.mem_cons.mp hp with rfl | hp
      · exact ⟨by simp, by simp, by assumption⟩
      · obtain ⟨h1, h2, h3⟩ := ih (i + 1) p hp
        exact ⟨by omega, by simp only [List.length_cons]; omega, h3⟩

theorem ofArray_rising (i : Nat) (vs : List Byte) : Table.Rising (ofArray i vs) := by
  induction vs generalizing i with
  | nil => simp [ofArray, Table.Rising]
  | cons v vs ih =>
    rw [ofArray]
    split
    · exact ih (i + 1)
    · exact List.pairwise_cons.mpr ⟨fun p hp => by have := (ofArray_bounds (i + 1) vs p hp).1; simp only; omega, ih (i + 1)⟩

/-- A construction array gives canonical contents of its length. -/
theorem wf_ofArray (vs : List Byte) : wf vs.length (ofArray 0 vs) :=
  ⟨ofArray_rising 0 vs, fun p hp => by
    obtain ⟨_, h2, h3⟩ := ofArray_bounds 0 vs p hp
    exact ⟨by omega, h3⟩⟩

theorem wf_empty (size : Nat) : wf size [] := ⟨List.Pairwise.nil, by simp⟩

theorem look_ofArray_below (i j : Nat) (vs : List Byte) (h : j < i) : Table.look (ofArray i vs) j = none := by
  cases hl : Table.look (ofArray i vs) j with
  | none => rfl
  | some v => have := (ofArray_bounds i vs _ (Table.look_mem hl)).1; simp only at this; omega

theorem read_ofArray_from (i j : Nat) (vs : List Byte) : read (ofArray i vs) (i + j) = (vs[j]?).getD untouched := by
  induction vs generalizing i j with
  | nil => simp [ofArray, read]
  | cons v vs ih =>
    rw [ofArray]
    cases j with
    | zero =>
      split
      · rename_i hv; simp [read, look_ofArray_below (i + 1) i vs (by omega), hv]
      · simp [read]
    | succ j =>
      have hs : i + (j + 1) = i + 1 + j := by omega
      split
      · rw [hs, ih]; simp
      · rw [read, Table.look_cons, if_neg (by omega), hs]
        exact (ih (i + 1) j).trans (by simp)

/-- Cell `j` of a memory made from a construction array is element `j` of the array (R30, R41). -/
theorem read_ofArray (j : Nat) (vs : List Byte) : read (ofArray 0 vs) j = (vs[j]?).getD untouched := by
  have := read_ofArray_from 0 j vs
  rwa [Nat.zero_add] at this

/-- Two canonical memories that read the same everywhere are equal data. -/
theorem eq_of_read {size : Nat} {m m' : Memory} (h : wf size m) (h' : wf size m') (hr : ∀ i, read m i = read m' i) : m = m' := by
  have key : ∀ (m : Memory), wf size m → ∀ k v, Table.look m k = some v ↔ (read m k = v ∧ v ≠ untouched) := by
    intro m hm k v
    constructor
    · intro hl; exact ⟨by simp [read, hl], (hm.2 _ (Table.look_mem hl)).2⟩
    · rintro ⟨hv, hne⟩
      cases hl : Table.look m k with
      | none => simp [read, hl] at hv; exact absurd hv.symm hne
      | some w => simpa [read, hl] using hv
  have hlook : ∀ k, Table.look m k = Table.look m' k := by
    intro k
    apply Option.ext
    intro v
    rw [key m h k v, key m' h' k v, hr k]
  have hperm : m.Perm m' := by
    refine (List.perm_ext_iff_of_nodup ?_ ?_).mpr ?_
    · exact h.1.imp (fun {a b} hab he => by subst he; exact absurd hab (Nat.lt_irrefl _))
    · exact h'.1.imp (fun {a b} hab he => by subst he; exact absurd hab (Nat.lt_irrefl _))
    · rintro ⟨k, v⟩
      exact ⟨fun hp => Table.look_mem ((hlook k).symm.trans (Table.mem_look h.1 hp)),
        fun hp => Table.look_mem ((hlook k).trans (Table.mem_look h'.1 hp))⟩
  refine hperm.eq_of_pairwise ?_ h.1 h'.1
  intro a b _ _ hab hba
  exact absurd (Nat.lt_trans hab hba) (Nat.lt_irrefl _)

end Sys2Proof.Machine.Memory
end

