-- ==== Sys2Proof/Laws/State.lean ====
section
/-! SUPPORT. The small lemmas of the state: one per field per update, one per lookup per update, true by unfolding; the values of flags
under updates; two updates of one unit. -/

namespace Sys2Proof.Machine.State

variable (s : State)

@[simp] theorem putBus_phase (b : Handle) (u : Bus) : (s.putBus b u).phase = s.phase := rfl
@[simp] theorem putBus_buses (b : Handle) (u : Bus) : (s.putBus b u).buses = Table.put b.toNat u s.buses := rfl
@[simp] theorem putBus_flags (b : Handle) (u : Bus) : (s.putBus b u).flags = s.flags := rfl
@[simp] theorem putBus_clocks (b : Handle) (u : Bus) : (s.putBus b u).clocks = s.clocks := rfl
@[simp] theorem putBus_mems (b : Handle) (u : Bus) : (s.putBus b u).mems = s.mems := rfl
@[simp] theorem putBus_maps (b : Handle) (u : Bus) : (s.putBus b u).maps = s.maps := rfl
@[simp] theorem putBus_carts (b : Handle) (u : Bus) : (s.putBus b u).carts = s.carts := rfl
@[simp] theorem putBus_exts (b : Handle) (u : Bus) : (s.putBus b u).exts = s.exts := rfl
@[simp] theorem putBus_behaviours (b : Handle) (u : Bus) : (s.putBus b u).behaviours = s.behaviours := rfl
@[simp] theorem putBus_stack (b : Handle) (u : Bus) : (s.putBus b u).stack = s.stack := rfl
@[simp] theorem putBus_platform (b : Handle) (u : Bus) : (s.putBus b u).platform = s.platform := rfl
@[simp] theorem putBus_fuel (b : Handle) (u : Bus) : (s.putBus b u).fuel = s.fuel := rfl
@[simp] theorem putBus_report (b : Handle) (u : Bus) : (s.putBus b u).report = s.report := rfl
@[simp] theorem putBus_driver (b : Handle) (u : Bus) : (s.putBus b u).driver = s.driver := rfl
@[simp] theorem putBus_delivery (b : Handle) (u : Bus) : (s.putBus b u).delivery = s.delivery := rfl

@[simp] theorem putFlag_phase (f : Handle) (u : Flag) : (s.putFlag f u).phase = s.phase := rfl
@[simp] theorem putFlag_buses (f : Handle) (u : Flag) : (s.putFlag f u).buses = s.buses := rfl
@[simp] theorem putFlag_flags (f : Handle) (u : Flag) : (s.putFlag f u).flags = Table.put f.toNat u s.flags := rfl
@[simp] theorem putFlag_clocks (f : Handle) (u : Flag) : (s.putFlag f u).clocks = s.clocks := rfl
@[simp] theorem putFlag_mems (f : Handle) (u : Flag) : (s.putFlag f u).mems = s.mems := rfl
@[simp] theorem putFlag_maps (f : Handle) (u : Flag) : (s.putFlag f u).maps = s.maps := rfl
@[simp] theorem putFlag_carts (f : Handle) (u : Flag) : (s.putFlag f u).carts = s.carts := rfl
@[simp] theorem putFlag_exts (f : Handle) (u : Flag) : (s.putFlag f u).exts = s.exts := rfl
@[simp] theorem putFlag_behaviours (f : Handle) (u : Flag) : (s.putFlag f u).behaviours = s.behaviours := rfl
@[simp] theorem putFlag_stack (f : Handle) (u : Flag) : (s.putFlag f u).stack = s.stack := rfl
@[simp] theorem putFlag_platform (f : Handle) (u : Flag) : (s.putFlag f u).platform = s.platform := rfl
@[simp] theorem putFlag_fuel (f : Handle) (u : Flag) : (s.putFlag f u).fuel = s.fuel := rfl
@[simp] theorem putFlag_report (f : Handle) (u : Flag) : (s.putFlag f u).report = s.report := rfl
@[simp] theorem putFlag_driver (f : Handle) (u : Flag) : (s.putFlag f u).driver = s.driver := rfl
@[simp] theorem putFlag_delivery (f : Handle) (u : Flag) : (s.putFlag f u).delivery = s.delivery := rfl

@[simp] theorem putClock_phase (c : Handle) (u : Clock) : (s.putClock c u).phase = s.phase := rfl
@[simp] theorem putClock_buses (c : Handle) (u : Clock) : (s.putClock c u).buses = s.buses := rfl
@[simp] theorem putClock_flags (c : Handle) (u : Clock) : (s.putClock c u).flags = s.flags := rfl
@[simp] theorem putClock_clocks (c : Handle) (u : Clock) : (s.putClock c u).clocks = Table.put c.toNat u s.clocks := rfl
@[simp] theorem putClock_mems (c : Handle) (u : Clock) : (s.putClock c u).mems = s.mems := rfl
@[simp] theorem putClock_maps (c : Handle) (u : Clock) : (s.putClock c u).maps = s.maps := rfl
@[simp] theorem putClock_carts (c : Handle) (u : Clock) : (s.putClock c u).carts = s.carts := rfl
@[simp] theorem putClock_exts (c : Handle) (u : Clock) : (s.putClock c u).exts = s.exts := rfl
@[simp] theorem putClock_behaviours (c : Handle) (u : Clock) : (s.putClock c u).behaviours = s.behaviours := rfl
@[simp] theorem putClock_stack (c : Handle) (u : Clock) : (s.putClock c u).stack = s.stack := rfl
@[simp] theorem putClock_platform (c : Handle) (u : Clock) : (s.putClock c u).platform = s.platform := rfl
@[simp] theorem putClock_fuel (c : Handle) (u : Clock) : (s.putClock c u).fuel = s.fuel := rfl
@[simp] theorem putClock_report (c : Handle) (u : Clock) : (s.putClock c u).report = s.report := rfl
@[simp] theorem putClock_driver (c : Handle) (u : Clock) : (s.putClock c u).driver = s.driver := rfl
@[simp] theorem putClock_delivery (c : Handle) (u : Clock) : (s.putClock c u).delivery = s.delivery := rfl

@[simp] theorem putMem_phase (m : Handle) (u : Mem) : (s.putMem m u).phase = s.phase := rfl
@[simp] theorem putMem_buses (m : Handle) (u : Mem) : (s.putMem m u).buses = s.buses := rfl
@[simp] theorem putMem_flags (m : Handle) (u : Mem) : (s.putMem m u).flags = s.flags := rfl
@[simp] theorem putMem_clocks (m : Handle) (u : Mem) : (s.putMem m u).clocks = s.clocks := rfl
@[simp] theorem putMem_mems (m : Handle) (u : Mem) : (s.putMem m u).mems = Table.put m.toNat u s.mems := rfl
@[simp] theorem putMem_maps (m : Handle) (u : Mem) : (s.putMem m u).maps = s.maps := rfl
@[simp] theorem putMem_carts (m : Handle) (u : Mem) : (s.putMem m u).carts = s.carts := rfl
@[simp] theorem putMem_exts (m : Handle) (u : Mem) : (s.putMem m u).exts = s.exts := rfl
@[simp] theorem putMem_behaviours (m : Handle) (u : Mem) : (s.putMem m u).behaviours = s.behaviours := rfl
@[simp] theorem putMem_stack (m : Handle) (u : Mem) : (s.putMem m u).stack = s.stack := rfl
@[simp] theorem putMem_platform (m : Handle) (u : Mem) : (s.putMem m u).platform = s.platform := rfl
@[simp] theorem putMem_fuel (m : Handle) (u : Mem) : (s.putMem m u).fuel = s.fuel := rfl
@[simp] theorem putMem_report (m : Handle) (u : Mem) : (s.putMem m u).report = s.report := rfl
@[simp] theorem putMem_driver (m : Handle) (u : Mem) : (s.putMem m u).driver = s.driver := rfl
@[simp] theorem putMem_delivery (m : Handle) (u : Mem) : (s.putMem m u).delivery = s.delivery := rfl

@[simp] theorem putMap_phase (k : Handle) (u : Mapper) : (s.putMap k u).phase = s.phase := rfl
@[simp] theorem putMap_buses (k : Handle) (u : Mapper) : (s.putMap k u).buses = s.buses := rfl
@[simp] theorem putMap_flags (k : Handle) (u : Mapper) : (s.putMap k u).flags = s.flags := rfl
@[simp] theorem putMap_clocks (k : Handle) (u : Mapper) : (s.putMap k u).clocks = s.clocks := rfl
@[simp] theorem putMap_mems (k : Handle) (u : Mapper) : (s.putMap k u).mems = s.mems := rfl
@[simp] theorem putMap_maps (k : Handle) (u : Mapper) : (s.putMap k u).maps = Table.put k.toNat u s.maps := rfl
@[simp] theorem putMap_carts (k : Handle) (u : Mapper) : (s.putMap k u).carts = s.carts := rfl
@[simp] theorem putMap_exts (k : Handle) (u : Mapper) : (s.putMap k u).exts = s.exts := rfl
@[simp] theorem putMap_behaviours (k : Handle) (u : Mapper) : (s.putMap k u).behaviours = s.behaviours := rfl
@[simp] theorem putMap_stack (k : Handle) (u : Mapper) : (s.putMap k u).stack = s.stack := rfl
@[simp] theorem putMap_platform (k : Handle) (u : Mapper) : (s.putMap k u).platform = s.platform := rfl
@[simp] theorem putMap_fuel (k : Handle) (u : Mapper) : (s.putMap k u).fuel = s.fuel := rfl
@[simp] theorem putMap_report (k : Handle) (u : Mapper) : (s.putMap k u).report = s.report := rfl
@[simp] theorem putMap_driver (k : Handle) (u : Mapper) : (s.putMap k u).driver = s.driver := rfl
@[simp] theorem putMap_delivery (k : Handle) (u : Mapper) : (s.putMap k u).delivery = s.delivery := rfl

@[simp] theorem putCart_phase (q : Handle) (u : Cart) : (s.putCart q u).phase = s.phase := rfl
@[simp] theorem putCart_buses (q : Handle) (u : Cart) : (s.putCart q u).buses = s.buses := rfl
@[simp] theorem putCart_flags (q : Handle) (u : Cart) : (s.putCart q u).flags = s.flags := rfl
@[simp] theorem putCart_clocks (q : Handle) (u : Cart) : (s.putCart q u).clocks = s.clocks := rfl
@[simp] theorem putCart_mems (q : Handle) (u : Cart) : (s.putCart q u).mems = s.mems := rfl
@[simp] theorem putCart_maps (q : Handle) (u : Cart) : (s.putCart q u).maps = s.maps := rfl
@[simp] theorem putCart_carts (q : Handle) (u : Cart) : (s.putCart q u).carts = Table.put q.toNat u s.carts := rfl
@[simp] theorem putCart_exts (q : Handle) (u : Cart) : (s.putCart q u).exts = s.exts := rfl
@[simp] theorem putCart_behaviours (q : Handle) (u : Cart) : (s.putCart q u).behaviours = s.behaviours := rfl
@[simp] theorem putCart_stack (q : Handle) (u : Cart) : (s.putCart q u).stack = s.stack := rfl
@[simp] theorem putCart_platform (q : Handle) (u : Cart) : (s.putCart q u).platform = s.platform := rfl
@[simp] theorem putCart_fuel (q : Handle) (u : Cart) : (s.putCart q u).fuel = s.fuel := rfl
@[simp] theorem putCart_report (q : Handle) (u : Cart) : (s.putCart q u).report = s.report := rfl
@[simp] theorem putCart_driver (q : Handle) (u : Cart) : (s.putCart q u).driver = s.driver := rfl
@[simp] theorem putCart_delivery (q : Handle) (u : Cart) : (s.putCart q u).delivery = s.delivery := rfl

@[simp] theorem putExt_phase (x : Handle) (u : Ext) : (s.putExt x u).phase = s.phase := rfl
@[simp] theorem putExt_buses (x : Handle) (u : Ext) : (s.putExt x u).buses = s.buses := rfl
@[simp] theorem putExt_flags (x : Handle) (u : Ext) : (s.putExt x u).flags = s.flags := rfl
@[simp] theorem putExt_clocks (x : Handle) (u : Ext) : (s.putExt x u).clocks = s.clocks := rfl
@[simp] theorem putExt_mems (x : Handle) (u : Ext) : (s.putExt x u).mems = s.mems := rfl
@[simp] theorem putExt_maps (x : Handle) (u : Ext) : (s.putExt x u).maps = s.maps := rfl
@[simp] theorem putExt_carts (x : Handle) (u : Ext) : (s.putExt x u).carts = s.carts := rfl
@[simp] theorem putExt_exts (x : Handle) (u : Ext) : (s.putExt x u).exts = Table.put x.toNat u s.exts := rfl
@[simp] theorem putExt_behaviours (x : Handle) (u : Ext) : (s.putExt x u).behaviours = s.behaviours := rfl
@[simp] theorem putExt_stack (x : Handle) (u : Ext) : (s.putExt x u).stack = s.stack := rfl
@[simp] theorem putExt_platform (x : Handle) (u : Ext) : (s.putExt x u).platform = s.platform := rfl
@[simp] theorem putExt_fuel (x : Handle) (u : Ext) : (s.putExt x u).fuel = s.fuel := rfl
@[simp] theorem putExt_report (x : Handle) (u : Ext) : (s.putExt x u).report = s.report := rfl
@[simp] theorem putExt_driver (x : Handle) (u : Ext) : (s.putExt x u).driver = s.driver := rfl
@[simp] theorem putExt_delivery (x : Handle) (u : Ext) : (s.putExt x u).delivery = s.delivery := rfl

@[simp] theorem withStack_phase (fs : List Frame) : (s.withStack fs).phase = s.phase := rfl
@[simp] theorem withStack_buses (fs : List Frame) : (s.withStack fs).buses = s.buses := rfl
@[simp] theorem withStack_flags (fs : List Frame) : (s.withStack fs).flags = s.flags := rfl
@[simp] theorem withStack_clocks (fs : List Frame) : (s.withStack fs).clocks = s.clocks := rfl
@[simp] theorem withStack_mems (fs : List Frame) : (s.withStack fs).mems = s.mems := rfl
@[simp] theorem withStack_maps (fs : List Frame) : (s.withStack fs).maps = s.maps := rfl
@[simp] theorem withStack_carts (fs : List Frame) : (s.withStack fs).carts = s.carts := rfl
@[simp] theorem withStack_exts (fs : List Frame) : (s.withStack fs).exts = s.exts := rfl
@[simp] theorem withStack_behaviours (fs : List Frame) : (s.withStack fs).behaviours = s.behaviours := rfl
@[simp] theorem withStack_stack (fs : List Frame) : (s.withStack fs).stack = fs := rfl
@[simp] theorem withStack_platform (fs : List Frame) : (s.withStack fs).platform = s.platform := rfl
@[simp] theorem withStack_fuel (fs : List Frame) : (s.withStack fs).fuel = s.fuel := rfl
@[simp] theorem withStack_report (fs : List Frame) : (s.withStack fs).report = s.report := rfl
@[simp] theorem withStack_driver (fs : List Frame) : (s.withStack fs).driver = s.driver := rfl
@[simp] theorem withStack_delivery (fs : List Frame) : (s.withStack fs).delivery = s.delivery := rfl

@[simp] theorem withReport_phase (r : Report) : (s.withReport r).phase = s.phase := rfl
@[simp] theorem withReport_buses (r : Report) : (s.withReport r).buses = s.buses := rfl
@[simp] theorem withReport_flags (r : Report) : (s.withReport r).flags = s.flags := rfl
@[simp] theorem withReport_clocks (r : Report) : (s.withReport r).clocks = s.clocks := rfl
@[simp] theorem withReport_mems (r : Report) : (s.withReport r).mems = s.mems := rfl
@[simp] theorem withReport_maps (r : Report) : (s.withReport r).maps = s.maps := rfl
@[simp] theorem withReport_carts (r : Report) : (s.withReport r).carts = s.carts := rfl
@[simp] theorem withReport_exts (r : Report) : (s.withReport r).exts = s.exts := rfl
@[simp] theorem withReport_behaviours (r : Report) : (s.withReport r).behaviours = s.behaviours := rfl
@[simp] theorem withReport_stack (r : Report) : (s.withReport r).stack = s.stack := rfl
@[simp] theorem withReport_platform (r : Report) : (s.withReport r).platform = s.platform := rfl
@[simp] theorem withReport_fuel (r : Report) : (s.withReport r).fuel = s.fuel := rfl
@[simp] theorem withReport_report (r : Report) : (s.withReport r).report = some r := rfl
@[simp] theorem withReport_driver (r : Report) : (s.withReport r).driver = s.driver := rfl
@[simp] theorem withReport_delivery (r : Report) : (s.withReport r).delivery = s.delivery := rfl

@[simp] theorem enterRun_phase : (s.enterRun).phase = .run := rfl
@[simp] theorem enterRun_buses : (s.enterRun).buses = s.buses := rfl
@[simp] theorem enterRun_flags : (s.enterRun).flags = s.flags := rfl
@[simp] theorem enterRun_clocks : (s.enterRun).clocks = s.clocks := rfl
@[simp] theorem enterRun_mems : (s.enterRun).mems = s.mems := rfl
@[simp] theorem enterRun_maps : (s.enterRun).maps = s.maps := rfl
@[simp] theorem enterRun_carts : (s.enterRun).carts = s.carts := rfl
@[simp] theorem enterRun_exts : (s.enterRun).exts = s.exts := rfl
@[simp] theorem enterRun_behaviours : (s.enterRun).behaviours = s.behaviours := rfl
@[simp] theorem enterRun_stack : (s.enterRun).stack = s.stack := rfl
@[simp] theorem enterRun_platform : (s.enterRun).platform = s.platform := rfl
@[simp] theorem enterRun_fuel : (s.enterRun).fuel = s.fuel := rfl
@[simp] theorem enterRun_report : (s.enterRun).report = s.report := rfl
@[simp] theorem enterRun_driver : (s.enterRun).driver = s.driver := rfl
@[simp] theorem enterRun_delivery : (s.enterRun).delivery = s.delivery := rfl

@[simp] theorem putBus_bus_self (b : Handle) (u : Bus) : (s.putBus b u).bus? b = some u := by simp [bus?, putBus]
theorem putBus_bus_ne (b : Handle) (u : Bus) {h : Handle} (hne : b ≠ h) : (s.putBus b u).bus? h = s.bus? h := by
  have : b.toNat ≠ h.toNat := fun e => hne (BitVec.eq_of_toNat_eq e)
  simp [bus?, putBus, Table.look_put, this]
@[simp] theorem putFlag_bus' (f : Handle) (u : Flag) (h : Handle) : (s.putFlag f u).bus? h = s.bus? h := rfl
@[simp] theorem putClock_bus' (c : Handle) (u : Clock) (h : Handle) : (s.putClock c u).bus? h = s.bus? h := rfl
@[simp] theorem putMem_bus' (m : Handle) (u : Mem) (h : Handle) : (s.putMem m u).bus? h = s.bus? h := rfl
@[simp] theorem putMap_bus' (k : Handle) (u : Mapper) (h : Handle) : (s.putMap k u).bus? h = s.bus? h := rfl
@[simp] theorem putCart_bus' (q : Handle) (u : Cart) (h : Handle) : (s.putCart q u).bus? h = s.bus? h := rfl
@[simp] theorem putExt_bus' (x : Handle) (u : Ext) (h : Handle) : (s.putExt x u).bus? h = s.bus? h := rfl
@[simp] theorem withStack_bus' (fs : List Frame) (h : Handle) : (s.withStack fs).bus? h = s.bus? h := rfl
@[simp] theorem withReport_bus' (r : Report) (h : Handle) : (s.withReport r).bus? h = s.bus? h := rfl
@[simp] theorem enterRun_bus' (h : Handle) : (s.enterRun).bus? h = s.bus? h := rfl

@[simp] theorem putBus_flag' (b : Handle) (u : Bus) (h : Handle) : (s.putBus b u).flag? h = s.flag? h := rfl
@[simp] theorem putFlag_flag_self (f : Handle) (u : Flag) : (s.putFlag f u).flag? f = some u := by simp [flag?, putFlag]
theorem putFlag_flag_ne (f : Handle) (u : Flag) {h : Handle} (hne : f ≠ h) : (s.putFlag f u).flag? h = s.flag? h := by
  have : f.toNat ≠ h.toNat := fun e => hne (BitVec.eq_of_toNat_eq e)
  simp [flag?, putFlag, Table.look_put, this]
@[simp] theorem putClock_flag' (c : Handle) (u : Clock) (h : Handle) : (s.putClock c u).flag? h = s.flag? h := rfl
@[simp] theorem putMem_flag' (m : Handle) (u : Mem) (h : Handle) : (s.putMem m u).flag? h = s.flag? h := rfl
@[simp] theorem putMap_flag' (k : Handle) (u : Mapper) (h : Handle) : (s.putMap k u).flag? h = s.flag? h := rfl
@[simp] theorem putCart_flag' (q : Handle) (u : Cart) (h : Handle) : (s.putCart q u).flag? h = s.flag? h := rfl
@[simp] theorem putExt_flag' (x : Handle) (u : Ext) (h : Handle) : (s.putExt x u).flag? h = s.flag? h := rfl
@[simp] theorem withStack_flag' (fs : List Frame) (h : Handle) : (s.withStack fs).flag? h = s.flag? h := rfl
@[simp] theorem withReport_flag' (r : Report) (h : Handle) : (s.withReport r).flag? h = s.flag? h := rfl
@[simp] theorem enterRun_flag' (h : Handle) : (s.enterRun).flag? h = s.flag? h := rfl

@[simp] theorem putBus_clock' (b : Handle) (u : Bus) (h : Handle) : (s.putBus b u).clock? h = s.clock? h := rfl
@[simp] theorem putFlag_clock' (f : Handle) (u : Flag) (h : Handle) : (s.putFlag f u).clock? h = s.clock? h := rfl
@[simp] theorem putClock_clock_self (c : Handle) (u : Clock) : (s.putClock c u).clock? c = some u := by simp [clock?, putClock]
theorem putClock_clock_ne (c : Handle) (u : Clock) {h : Handle} (hne : c ≠ h) : (s.putClock c u).clock? h = s.clock? h := by
  have : c.toNat ≠ h.toNat := fun e => hne (BitVec.eq_of_toNat_eq e)
  simp [clock?, putClock, Table.look_put, this]
@[simp] theorem putMem_clock' (m : Handle) (u : Mem) (h : Handle) : (s.putMem m u).clock? h = s.clock? h := rfl
@[simp] theorem putMap_clock' (k : Handle) (u : Mapper) (h : Handle) : (s.putMap k u).clock? h = s.clock? h := rfl
@[simp] theorem putCart_clock' (q : Handle) (u : Cart) (h : Handle) : (s.putCart q u).clock? h = s.clock? h := rfl
@[simp] theorem putExt_clock' (x : Handle) (u : Ext) (h : Handle) : (s.putExt x u).clock? h = s.clock? h := rfl
@[simp] theorem withStack_clock' (fs : List Frame) (h : Handle) : (s.withStack fs).clock? h = s.clock? h := rfl
@[simp] theorem withReport_clock' (r : Report) (h : Handle) : (s.withReport r).clock? h = s.clock? h := rfl
@[simp] theorem enterRun_clock' (h : Handle) : (s.enterRun).clock? h = s.clock? h := rfl

@[simp] theorem putBus_mem' (b : Handle) (u : Bus) (h : Handle) : (s.putBus b u).mem? h = s.mem? h := rfl
@[simp] theorem putFlag_mem' (f : Handle) (u : Flag) (h : Handle) : (s.putFlag f u).mem? h = s.mem? h := rfl
@[simp] theorem putClock_mem' (c : Handle) (u : Clock) (h : Handle) : (s.putClock c u).mem? h = s.mem? h := rfl
@[simp] theorem putMem_mem_self (m : Handle) (u : Mem) : (s.putMem m u).mem? m = some u := by simp [mem?, putMem]
theorem putMem_mem_ne (m : Handle) (u : Mem) {h : Handle} (hne : m ≠ h) : (s.putMem m u).mem? h = s.mem? h := by
  have : m.toNat ≠ h.toNat := fun e => hne (BitVec.eq_of_toNat_eq e)
  simp [mem?, putMem, Table.look_put, this]
@[simp] theorem putMap_mem' (k : Handle) (u : Mapper) (h : Handle) : (s.putMap k u).mem? h = s.mem? h := rfl
@[simp] theorem putCart_mem' (q : Handle) (u : Cart) (h : Handle) : (s.putCart q u).mem? h = s.mem? h := rfl
@[simp] theorem putExt_mem' (x : Handle) (u : Ext) (h : Handle) : (s.putExt x u).mem? h = s.mem? h := rfl
@[simp] theorem withStack_mem' (fs : List Frame) (h : Handle) : (s.withStack fs).mem? h = s.mem? h := rfl
@[simp] theorem withReport_mem' (r : Report) (h : Handle) : (s.withReport r).mem? h = s.mem? h := rfl
@[simp] theorem enterRun_mem' (h : Handle) : (s.enterRun).mem? h = s.mem? h := rfl

@[simp] theorem putBus_map' (b : Handle) (u : Bus) (h : Handle) : (s.putBus b u).map? h = s.map? h := rfl
@[simp] theorem putFlag_map' (f : Handle) (u : Flag) (h : Handle) : (s.putFlag f u).map? h = s.map? h := rfl
@[simp] theorem putClock_map' (c : Handle) (u : Clock) (h : Handle) : (s.putClock c u).map? h = s.map? h := rfl
@[simp] theorem putMem_map' (m : Handle) (u : Mem) (h : Handle) : (s.putMem m u).map? h = s.map? h := rfl
@[simp] theorem putMap_map_self (k : Handle) (u : Mapper) : (s.putMap k u).map? k = some u := by simp [map?, putMap]
theorem putMap_map_ne (k : Handle) (u : Mapper) {h : Handle} (hne : k ≠ h) : (s.putMap k u).map? h = s.map? h := by
  have : k.toNat ≠ h.toNat := fun e => hne (BitVec.eq_of_toNat_eq e)
  simp [map?, putMap, Table.look_put, this]
@[simp] theorem putCart_map' (q : Handle) (u : Cart) (h : Handle) : (s.putCart q u).map? h = s.map? h := rfl
@[simp] theorem putExt_map' (x : Handle) (u : Ext) (h : Handle) : (s.putExt x u).map? h = s.map? h := rfl
@[simp] theorem withStack_map' (fs : List Frame) (h : Handle) : (s.withStack fs).map? h = s.map? h := rfl
@[simp] theorem withReport_map' (r : Report) (h : Handle) : (s.withReport r).map? h = s.map? h := rfl
@[simp] theorem enterRun_map' (h : Handle) : (s.enterRun).map? h = s.map? h := rfl

@[simp] theorem putBus_cart' (b : Handle) (u : Bus) (h : Handle) : (s.putBus b u).cart? h = s.cart? h := rfl
@[simp] theorem putFlag_cart' (f : Handle) (u : Flag) (h : Handle) : (s.putFlag f u).cart? h = s.cart? h := rfl
@[simp] theorem putClock_cart' (c : Handle) (u : Clock) (h : Handle) : (s.putClock c u).cart? h = s.cart? h := rfl
@[simp] theorem putMem_cart' (m : Handle) (u : Mem) (h : Handle) : (s.putMem m u).cart? h = s.cart? h := rfl
@[simp] theorem putMap_cart' (k : Handle) (u : Mapper) (h : Handle) : (s.putMap k u).cart? h = s.cart? h := rfl
@[simp] theorem putCart_cart_self (q : Handle) (u : Cart) : (s.putCart q u).cart? q = some u := by simp [cart?, putCart]
theorem putCart_cart_ne (q : Handle) (u : Cart) {h : Handle} (hne : q ≠ h) : (s.putCart q u).cart? h = s.cart? h := by
  have : q.toNat ≠ h.toNat := fun e => hne (BitVec.eq_of_toNat_eq e)
  simp [cart?, putCart, Table.look_put, this]
@[simp] theorem putExt_cart' (x : Handle) (u : Ext) (h : Handle) : (s.putExt x u).cart? h = s.cart? h := rfl
@[simp] theorem withStack_cart' (fs : List Frame) (h : Handle) : (s.withStack fs).cart? h = s.cart? h := rfl
@[simp] theorem withReport_cart' (r : Report) (h : Handle) : (s.withReport r).cart? h = s.cart? h := rfl
@[simp] theorem enterRun_cart' (h : Handle) : (s.enterRun).cart? h = s.cart? h := rfl

@[simp] theorem putBus_ext' (b : Handle) (u : Bus) (h : Handle) : (s.putBus b u).ext h = s.ext h := rfl
@[simp] theorem putFlag_ext' (f : Handle) (u : Flag) (h : Handle) : (s.putFlag f u).ext h = s.ext h := rfl
@[simp] theorem putClock_ext' (c : Handle) (u : Clock) (h : Handle) : (s.putClock c u).ext h = s.ext h := rfl
@[simp] theorem putMem_ext' (m : Handle) (u : Mem) (h : Handle) : (s.putMem m u).ext h = s.ext h := rfl
@[simp] theorem putMap_ext' (k : Handle) (u : Mapper) (h : Handle) : (s.putMap k u).ext h = s.ext h := rfl
@[simp] theorem putCart_ext' (q : Handle) (u : Cart) (h : Handle) : (s.putCart q u).ext h = s.ext h := rfl
@[simp] theorem putExt_ext_self (x : Handle) (u : Ext) : (s.putExt x u).ext x = u := by simp [ext, putExt]
theorem putExt_ext_ne (x : Handle) (u : Ext) {h : Handle} (hne : x ≠ h) : (s.putExt x u).ext h = s.ext h := by
  have : x.toNat ≠ h.toNat := fun e => hne (BitVec.eq_of_toNat_eq e)
  simp [ext, putExt, Table.look_put, this]
@[simp] theorem withStack_ext' (fs : List Frame) (h : Handle) : (s.withStack fs).ext h = s.ext h := rfl
@[simp] theorem withReport_ext' (r : Report) (h : Handle) : (s.withReport r).ext h = s.ext h := rfl
@[simp] theorem enterRun_ext' (h : Handle) : (s.enterRun).ext h = s.ext h := rfl

@[simp] theorem putBus_behaviour (b : Handle) (u : Bus) (h : Handle) : (s.putBus b u).behaviour h = s.behaviour h := rfl
@[simp] theorem putFlag_behaviour (f : Handle) (u : Flag) (h : Handle) : (s.putFlag f u).behaviour h = s.behaviour h := rfl
@[simp] theorem putClock_behaviour (c : Handle) (u : Clock) (h : Handle) : (s.putClock c u).behaviour h = s.behaviour h := rfl
@[simp] theorem putMem_behaviour (m : Handle) (u : Mem) (h : Handle) : (s.putMem m u).behaviour h = s.behaviour h := rfl
@[simp] theorem putMap_behaviour (k : Handle) (u : Mapper) (h : Handle) : (s.putMap k u).behaviour h = s.behaviour h := rfl
@[simp] theorem putCart_behaviour (q : Handle) (u : Cart) (h : Handle) : (s.putCart q u).behaviour h = s.behaviour h := rfl
@[simp] theorem putExt_behaviour (x : Handle) (u : Ext) (h : Handle) : (s.putExt x u).behaviour h = s.behaviour h := rfl
@[simp] theorem withStack_behaviour (fs : List Frame) (h : Handle) : (s.withStack fs).behaviour h = s.behaviour h := rfl
@[simp] theorem withReport_behaviour (r : Report) (h : Handle) : (s.withReport r).behaviour h = s.behaviour h := rfl
@[simp] theorem enterRun_behaviour (h : Handle) : (s.enterRun).behaviour h = s.behaviour h := rfl

@[simp] theorem putExt_fabric (x : Handle) (u : Ext) : (s.putExt x u).fabric = s.fabric := rfl
@[simp] theorem withStack_fabric (fs : List Frame) : (s.withStack fs).fabric = s.fabric := rfl
@[simp] theorem withReport_fabric (r : Report) : (s.withReport r).fabric = s.fabric := rfl
@[simp] theorem enterRun_fabric : (s.enterRun).fabric = s.fabric := rfl

@[simp] theorem withStack_reaction (fs : List Frame) (h : Handle) (ev : Event) : (s.withStack fs).reaction h ev = s.reaction h ev := rfl
@[simp] theorem withReport_reaction (r : Report) (h : Handle) (ev : Event) : (s.withReport r).reaction h ev = s.reaction h ev := rfl
@[simp] theorem enterRun_reaction (h : Handle) (ev : Event) : (s.enterRun).reaction h ev = s.reaction h ev := rfl

@[simp] theorem moveOn_behaviour (x : Handle) (ev : Event) (h : Handle) : (s.moveOn x ev).behaviour h = s.behaviour h := rfl
@[simp] theorem moveOn_bus' (x : Handle) (ev : Event) (h : Handle) : (s.moveOn x ev).bus? h = s.bus? h := rfl
@[simp] theorem moveOn_flag' (x : Handle) (ev : Event) (h : Handle) : (s.moveOn x ev).flag? h = s.flag? h := rfl
@[simp] theorem moveOn_clock' (x : Handle) (ev : Event) (h : Handle) : (s.moveOn x ev).clock? h = s.clock? h := rfl
@[simp] theorem moveOn_stack (x : Handle) (ev : Event) : (s.moveOn x ev).stack = s.stack := rfl
@[simp] theorem moveOn_memberOf (x : Handle) (ev : Event) (z : BitVec 4) (v : Byte) : (s.moveOn x ev).memberOf z v = s.memberOf z v := rfl
@[simp] theorem moveOn_midPulse (x : Handle) (ev : Event) (e : Handle) : (s.moveOn x ev).midPulse e = s.midPulse e := rfl
theorem moveOn_withStack (fs : List Frame) (x : Handle) (ev : Event) : (s.withStack fs).moveOn x ev = (s.moveOn x ev).withStack fs := rfl

@[simp] theorem putBus_classOf (b : Handle) (u : Bus) (v : Byte) : (s.putBus b u).classOf v = s.classOf v := rfl
@[simp] theorem putFlag_classOf (f : Handle) (u : Flag) (v : Byte) : (s.putFlag f u).classOf v = s.classOf v := rfl
@[simp] theorem putClock_classOf (c : Handle) (u : Clock) (v : Byte) : (s.putClock c u).classOf v = s.classOf v := rfl
@[simp] theorem putMem_classOf (m : Handle) (u : Mem) (v : Byte) : (s.putMem m u).classOf v = s.classOf v := rfl
@[simp] theorem putMap_classOf (k : Handle) (u : Mapper) (v : Byte) : (s.putMap k u).classOf v = s.classOf v := rfl
@[simp] theorem putCart_classOf (q : Handle) (u : Cart) (v : Byte) : (s.putCart q u).classOf v = s.classOf v := rfl
@[simp] theorem putExt_classOf (x : Handle) (u : Ext) (v : Byte) : (s.putExt x u).classOf v = s.classOf v := rfl
@[simp] theorem withStack_classOf (fs : List Frame) (v : Byte) : (s.withStack fs).classOf v = s.classOf v := rfl
@[simp] theorem withReport_classOf (r : Report) (v : Byte) : (s.withReport r).classOf v = s.classOf v := rfl
@[simp] theorem enterRun_classOf (v : Byte) : (s.enterRun).classOf v = s.classOf v := rfl

@[simp] theorem putBus_definesValue (b : Handle) (u : Bus) (v : Byte) : (s.putBus b u).definesValue v = s.definesValue v := rfl
@[simp] theorem putFlag_definesValue (f : Handle) (u : Flag) (v : Byte) : (s.putFlag f u).definesValue v = s.definesValue v := rfl
@[simp] theorem putClock_definesValue (c : Handle) (u : Clock) (v : Byte) : (s.putClock c u).definesValue v = s.definesValue v := rfl
@[simp] theorem putMem_definesValue (m : Handle) (u : Mem) (v : Byte) : (s.putMem m u).definesValue v = s.definesValue v := rfl
@[simp] theorem putMap_definesValue (k : Handle) (u : Mapper) (v : Byte) : (s.putMap k u).definesValue v = s.definesValue v := rfl
@[simp] theorem putCart_definesValue (q : Handle) (u : Cart) (v : Byte) : (s.putCart q u).definesValue v = s.definesValue v := rfl
@[simp] theorem putExt_definesValue (x : Handle) (u : Ext) (v : Byte) : (s.putExt x u).definesValue v = s.definesValue v := rfl
@[simp] theorem withStack_definesValue (fs : List Frame) (v : Byte) : (s.withStack fs).definesValue v = s.definesValue v := rfl
@[simp] theorem withReport_definesValue (r : Report) (v : Byte) : (s.withReport r).definesValue v = s.definesValue v := rfl
@[simp] theorem enterRun_definesValue (v : Byte) : (s.enterRun).definesValue v = s.definesValue v := rfl

@[simp] theorem putBus_memberOf (b : Handle) (u : Bus) (z : BitVec 4) (v : Byte) : (s.putBus b u).memberOf z v = s.memberOf z v := rfl
@[simp] theorem putFlag_memberOf (f : Handle) (u : Flag) (z : BitVec 4) (v : Byte) : (s.putFlag f u).memberOf z v = s.memberOf z v := rfl
@[simp] theorem putClock_memberOf (c : Handle) (u : Clock) (z : BitVec 4) (v : Byte) : (s.putClock c u).memberOf z v = s.memberOf z v := rfl
@[simp] theorem putMem_memberOf (m : Handle) (u : Mem) (z : BitVec 4) (v : Byte) : (s.putMem m u).memberOf z v = s.memberOf z v := rfl
@[simp] theorem putMap_memberOf (k : Handle) (u : Mapper) (z : BitVec 4) (v : Byte) : (s.putMap k u).memberOf z v = s.memberOf z v := rfl
@[simp] theorem putCart_memberOf (q : Handle) (u : Cart) (z : BitVec 4) (v : Byte) : (s.putCart q u).memberOf z v = s.memberOf z v := rfl
@[simp] theorem putExt_memberOf (x : Handle) (u : Ext) (z : BitVec 4) (v : Byte) : (s.putExt x u).memberOf z v = s.memberOf z v := rfl
@[simp] theorem withStack_memberOf (fs : List Frame) (z : BitVec 4) (v : Byte) : (s.withStack fs).memberOf z v = s.memberOf z v := rfl
@[simp] theorem withReport_memberOf (r : Report) (z : BitVec 4) (v : Byte) : (s.withReport r).memberOf z v = s.memberOf z v := rfl
@[simp] theorem enterRun_memberOf (z : BitVec 4) (v : Byte) : (s.enterRun).memberOf z v = s.memberOf z v := rfl

@[simp] theorem putBus_midPulse (b : Handle) (u : Bus) (e : Handle) : (s.putBus b u).midPulse e = s.midPulse e := rfl
@[simp] theorem putFlag_midPulse (f : Handle) (u : Flag) (e : Handle) : (s.putFlag f u).midPulse e = s.midPulse e := rfl
@[simp] theorem putClock_midPulse (c : Handle) (u : Clock) (e : Handle) : (s.putClock c u).midPulse e = s.midPulse e := rfl
@[simp] theorem putMem_midPulse (m : Handle) (u : Mem) (e : Handle) : (s.putMem m u).midPulse e = s.midPulse e := rfl
@[simp] theorem putMap_midPulse (k : Handle) (u : Mapper) (e : Handle) : (s.putMap k u).midPulse e = s.midPulse e := rfl
@[simp] theorem putCart_midPulse (q : Handle) (u : Cart) (e : Handle) : (s.putCart q u).midPulse e = s.midPulse e := rfl
@[simp] theorem putExt_midPulse (x : Handle) (u : Ext) (e : Handle) : (s.putExt x u).midPulse e = s.midPulse e := rfl
@[simp] theorem withReport_midPulse (r : Report) (e : Handle) : (s.withReport r).midPulse e = s.midPulse e := rfl
@[simp] theorem enterRun_midPulse (e : Handle) : (s.enterRun).midPulse e = s.midPulse e := rfl

@[simp] theorem withStack_self : s.withStack s.stack = s := rfl
@[simp] theorem withStack_withStack (fs gs : List Frame) : (s.withStack fs).withStack gs = s.withStack gs := rfl
@[simp] theorem withReport_withReport (r q : Report) : (s.withReport r).withReport q = s.withReport q := rfl
@[simp] theorem enterRun_enterRun : s.enterRun.enterRun = s.enterRun := rfl

theorem eq_enterRun (h : s.phase = .run) : s.enterRun = s := by cases s; simp_all [enterRun]

end Sys2Proof.Machine.State
end

