-- ==== Sys2Proof/Laws/Ops.lean ====
section
/-! SUPPORT. One law per shared operation: what it answers in each case. Meanings are reasoned about through these. -/

namespace Sys2Proof.Machine

variable {s s' : State}

/-! ## Units by handle -/

theorem withBus_some {b : Handle} {u : Bus} (h : s.bus? b = some u) (k : Bus → Res) : withBus s b k = k u := by
  simp [withBus, h]

theorem withBus_none {b : Handle} (h : s.bus? b = none) (k : Bus → Res) :
    withBus s b k = .refused (.noSuchUnit .bus b) := by simp [withBus, h]

theorem withFlag_some {f : Handle} {u : Flag} (h : s.flag? f = some u) (k : Flag → Res) : withFlag s f k = k u := by
  simp [withFlag, h]

theorem withFlag_none {f : Handle} (h : s.flag? f = none) (k : Flag → Res) :
    withFlag s f k = .refused (.noSuchUnit .flag f) := by simp [withFlag, h]

theorem withClock_some {c : Handle} {u : Clock} (h : s.clock? c = some u) (k : Clock → Res) : withClock s c k = k u := by
  simp [withClock, h]

theorem withClock_none {c : Handle} (h : s.clock? c = none) (k : Clock → Res) :
    withClock s c k = .refused (.noSuchUnit .clock c) := by simp [withClock, h]

theorem withMem_some {m : Handle} {u : Mem} (h : s.mem? m = some u) (k : Mem → Res) : withMem s m k = k u := by
  simp [withMem, h]

theorem withMem_none {m : Handle} (h : s.mem? m = none) (k : Mem → Res) :
    withMem s m k = .refused (.noSuchUnit .memory m) := by simp [withMem, h]

theorem withMap_some {k : Handle} {u : Mapper} (h : s.map? k = some u) (c : Mapper → Res) : withMap s k c = c u := by
  simp [withMap, h]

theorem withMap_none {k : Handle} (h : s.map? k = none) (c : Mapper → Res) :
    withMap s k c = .refused (.noSuchUnit .mapper k) := by simp [withMap, h]

/-! ## Outcomes -/

@[simp] theorem settle_ok (v : Option Word) : settle (.ok s v) = .next (s.withReport (.ok v)) := rfl
@[simp] theorem settle_err (e : FabricError) : settle (.err s e) = .next (s.withReport (.err e)) := rfl
@[simp] theorem settle_refused (w : Refusal) : settle (.refused w) = .refused w := rfl
@[simp] theorem raise_eq (e : FabricError) : raise e s = .err s e := rfl
@[simp] theorem wrap_eq (e : FabricError) : wrap e = .signalPropagation e := rfl
@[simp] theorem andThen_ok (v : Option Word) (k : State → Res) : (Res.ok s v).andThen k = k s := rfl
@[simp] theorem andThen_err (e : FabricError) (k : State → Res) : (Res.err s e).andThen k = .err s e := rfl
@[simp] theorem andThen_refused (w : Refusal) (k : State → Res) : (Res.refused w).andThen k = .refused w := rfl
@[simp] theorem wrapped_ok (v : Option Word) : (Res.ok s v).wrapped = .ok s v := rfl
@[simp] theorem wrapped_err (e : FabricError) : (Res.err s e).wrapped = .err s (.signalPropagation e) := rfl
@[simp] theorem wrapped_refused (w : Refusal) : (Res.refused w).wrapped = .refused w := rfl
@[simp] theorem unwound_ok (v : Option Word) (fs : List Frame) : (Res.ok s v).unwound fs = .ok (s.withStack fs) v := rfl
@[simp] theorem unwound_err (e : FabricError) (fs : List Frame) : (Res.err s e).unwound fs = .err (s.withStack fs) e := rfl
@[simp] theorem unwound_refused (w : Refusal) (fs : List Frame) : (Res.refused w).unwound fs = .refused w := rfl
@[simp] theorem rootCause_signal (e : FabricError) : (FabricError.signalPropagation e).rootCause = e.rootCause := rfl
@[simp] theorem require_true (w : Refusal) (k : Res) : require true w k = k := rfl
@[simp] theorem require_false (w : Refusal) (k : Res) : require false w k = .refused w := rfl

/-- A step ends in a next state exactly when its operation ends in `ok` or `err`. -/
theorem settle_next {r : Res} {t : State} (h : settle r = .next t) :
    (∃ s v, r = .ok s v ∧ t = s.withReport (.ok v)) ∨ ∃ s e, r = .err s e ∧ t = s.withReport (.err e) := by
  cases r with
  | ok s v => simp at h; exact .inl ⟨s, v, rfl, h.symm⟩
  | err s e => simp at h; exact .inr ⟨s, e, rfl, h.symm⟩
  | refused w => simp at h

/-- No operation ends in a fault. -/
theorem settle_ne_fault (r : Res) (f : Fault) : settle r ≠ .fault f := by cases f

/-! ## Bus writes -/

theorem maskOf_bit {width i : Nat} (hw : width ≤ 32) (hi : i < 32) : (maskOf width).getLsbD i = decide (i < width) := by
  have h : 2 ^ width - 1 < 2 ^ 32 := by have := Nat.pow_le_pow_right (n := 2) (by omega) hw; have := Nat.two_pow_pos width; omega
  rw [maskOf, BitVec.getLsbD_ofNat, Nat.testBit_two_pow_sub_one]
  simp [hi]

/-- A value fits a bus exactly when it is below `2^width` (R133, R137). -/
theorem fits_iff {width : Nat} (hw : width ≤ 32) (v : Word) : fits width v = true ↔ v.toNat < 2 ^ width := by
  unfold fits
  rw [beq_iff_eq]
  constructor
  · intro h
    apply Nat.lt_pow_two_of_testBit
    intro i hi
    by_cases h32 : i < 32
    · have hb : (v &&& ~~~(maskOf width)).getLsbD i = false := by rw [h]; simp
      rw [BitVec.getLsbD_and, BitVec.getLsbD_not, maskOf_bit hw h32] at hb
      rw [← BitVec.getLsbD]
      simpa only [h32, Nat.not_lt.mpr hi, decide_true, decide_false, Bool.not_false, Bool.true_and, Bool.and_true] using hb
    · exact Nat.testBit_lt_two_pow (Nat.lt_of_lt_of_le v.isLt (Nat.pow_le_pow_right (by omega) (by omega)))
  · intro h
    apply BitVec.eq_of_getLsbD_eq
    intro i hi
    rw [BitVec.getLsbD_and, BitVec.getLsbD_not, maskOf_bit hw hi]
    by_cases hiw : i < width
    · simp [hi, hiw]
    · have : v.getLsbD i = false :=
        Nat.testBit_lt_two_pow (Nat.lt_of_lt_of_le h (Nat.pow_le_pow_right (by omega) (by omega)))
      simp [this]

/-- The bits a masking write keeps are the value below `2^width` (R134). -/
theorem toNat_and_maskOf {width : Nat} (hw : width ≤ 32) (v : Word) : (v &&& maskOf width).toNat = v.toNat % 2 ^ width := by
  have h : 2 ^ width - 1 < 2 ^ 32 := by have := Nat.pow_le_pow_right (n := 2) (by omega) hw; have := Nat.two_pow_pos width; omega
  rw [BitVec.toNat_and, maskOf, BitVec.toNat_ofNat, Nat.mod_eq_of_lt h, Nat.and_two_pow_sub_one_eq_mod]

/-- The checked write of a value that fits stores it. -/
theorem busWriteChecked_fit {b : Handle} {u : Bus} {v : Word} (h : s.bus? b = some u) (hv : fits u.width v = true) :
    busWriteChecked b v s = .ok (s.putBus b { u with value := v }) none := by
  simp [busWriteChecked, withBus_some h, hv]

/-- The checked write of a value that does not fit raises InvalidBusData and changes nothing. -/
theorem busWriteChecked_wide {b : Handle} {u : Bus} {v : Word} (h : s.bus? b = some u) (hv : fits u.width v = false) :
    busWriteChecked b v s = .err s (.invalidBusData b v) := by
  simp [busWriteChecked, withBus_some h, hv]

/-- All a checked write can answer. -/
theorem busWriteChecked_cases (b : Handle) (v : Word) (s : State) :
    (s.bus? b = none ∧ busWriteChecked b v s = .refused (.noSuchUnit .bus b)) ∨
    ∃ u, s.bus? b = some u ∧
      ((fits u.width v = true ∧ busWriteChecked b v s = .ok (s.putBus b { u with value := v }) none) ∨
       (fits u.width v = false ∧ busWriteChecked b v s = .err s (.invalidBusData b v))) := by
  cases h : s.bus? b with
  | none => exact .inl ⟨rfl, by simp [busWriteChecked, withBus_none h]⟩
  | some u =>
    refine .inr ⟨u, rfl, ?_⟩
    cases hv : fits u.width v with
    | true => exact .inl ⟨rfl, busWriteChecked_fit h hv⟩
    | false => exact .inr ⟨rfl, busWriteChecked_wide h hv⟩

/-- The masking write. -/
theorem busWriteMasked_some {b : Handle} {u : Bus} (v : Word) (h : s.bus? b = some u) :
    busWriteMasked b v s =
      .ok (s.putBus b { u with value := v &&& maskOf u.width }) (some (if fits u.width v then 1#32 else 0#32)) := by
  simp [busWriteMasked, withBus_some h]

/-- A bus write of the relay: as the checked write, an error wrapped once (R230). -/
theorem relayWrite_fit {b : Handle} {u : Bus} {v : Word} (h : s.bus? b = some u) (hv : fits u.width v = true) :
    relayWrite b v s = .ok (s.putBus b { u with value := v }) none := by
  simp [relayWrite, busWriteChecked_fit h hv]

theorem relayWrite_wide {b : Handle} {u : Bus} {v : Word} (h : s.bus? b = some u) (hv : fits u.width v = false) :
    relayWrite b v s = .err s (.signalPropagation (.invalidBusData b v)) := by
  simp [relayWrite, busWriteChecked_wide h hv]

/-- A copy between buses is a relay write of the source bus's value. -/
theorem relayCopy_some {dst src : Handle} {u : Bus} (h : s.bus? src = some u) :
    relayCopy dst src s = relayWrite dst u.value s := by simp [relayCopy, withBus_some h]

/-! ## Cells -/

/-- A cell put on a bus is below 256. -/
theorem cellWord_toNat (u : Mem) (i : Nat) : (cellWord u i).toNat = (Memory.read u.contents i).toNat := by
  have := (Memory.read u.contents i).isLt
  simp [cellWord]; omega

theorem cellStore_narrow {m : Handle} {u : Mem} {i : Nat} {v : Word} (h : v.toNat < 256) :
    cellStore m u i v s = .ok (s.putMem m { u with contents := Memory.write u.contents i (v.setWidth 8) }) none := by
  have : v.toNat < 2 ^ Config.cellWidth := h
  simp [cellStore, this]

theorem cellStore_wide {m : Handle} {u : Mem} {i : Nat} {v : Word} (h : ¬v.toNat < 256) :
    cellStore m u i v s = .refused .ramBusTooWide := by
  have : ¬v.toNat < 2 ^ Config.cellWidth := h
  simp [cellStore, this]

/-! ## Address decoders -/

theorem withFormed_zero {dw : Delivery} (h : dw.zero = 0#16) (k : Res) : withFormed dw k = k := by simp [withFormed, h]

theorem withPulse_zero {dw : Delivery} (h : dw.zero = 0#16) (hv : dw.val = 0#8) (k : Res) : withPulse dw k = k := by
  simp [withPulse, withFormed, h, hv]

/-- The class of a defined value selects the reaction (R99). -/
theorem withClass_some {dw : Delivery} {cls : ValueClass} (hc : s.classOf dw.val = some cls) (k : ValueClass → Res) :
    withClass dw s k = k cls := by simp [withClass, hc]

/-- A delivery word that fits the memory it names selects the effect of its value's class. -/
theorem withMemReaction_some {kind : MemKind} {cls : ValueClass} {m : Handle} {dw : Delivery} {u : Mem} (hz : dw.zero = 0#16)
    (hm : s.mem? m = some u) (hk : u.kind = kind) (hc : s.classOf dw.val = some cls) (k : Mem → ValueClass → Res) :
    withMemReaction kind m dw s k = k u cls := by
  simp [withMemReaction, withFormed_zero hz, withMem_some hm, hk, withClass_some hc]

theorem withMapReaction_some {cls : ValueClass} {k : Handle} {dw : Delivery} {u : Mapper} (hz : dw.zero = 0#16)
    (hm : s.map? k = some u) (hc : s.classOf dw.val = some cls) (c : Mapper → ValueClass → Res) :
    withMapReaction k dw s c = c u cls := by
  simp [withMapReaction, withFormed_zero hz, withMap_some hm, withClass_some hc]

/-- All a memory's reaction can do: refuse, or the effect of its value's class. -/
theorem withMemReaction_cases (kind : MemKind) (m : Handle) (dw : Delivery) (s : State) (k : Mem → ValueClass → Res) :
    (∃ w, withMemReaction kind m dw s k = .refused w) ∨
    ∃ u cls, s.mem? m = some u ∧ u.kind = kind ∧ s.classOf dw.val = some cls ∧ withMemReaction kind m dw s k = k u cls := by
  by_cases hz : dw.zero = 0#16
  · cases hm : s.mem? m with
    | none => exact .inl ⟨_, by rw [withMemReaction, withFormed_zero hz, withMem_none hm]⟩
    | some u =>
      by_cases hk : u.kind = kind
      · cases hc : s.classOf dw.val with
        | none => exact .inl ⟨.flagValue dw.src dw.val, by simp [withMemReaction, withFormed_zero hz, withMem_some hm, hk, withClass, hc]⟩
        | some cls => exact .inr ⟨u, cls, rfl, hk, rfl, withMemReaction_some hz hm hk hc k⟩
      · exact .inl ⟨.wrongUnit, by simp [withMemReaction, withFormed_zero hz, withMem_some hm, hk]⟩
  · exact .inl ⟨.reservedDelivery, by simp [withMemReaction, withFormed, hz]⟩

/-- All a mapper's reaction can do: refuse, or the effect of its value's class. -/
theorem withMapReaction_cases (k : Handle) (dw : Delivery) (s : State) (c : Mapper → ValueClass → Res) :
    (∃ w, withMapReaction k dw s c = .refused w) ∨
    ∃ u cls, s.map? k = some u ∧ s.classOf dw.val = some cls ∧ withMapReaction k dw s c = c u cls := by
  by_cases hz : dw.zero = 0#16
  · cases hm : s.map? k with
    | none => exact .inl ⟨_, by rw [withMapReaction, withFormed_zero hz, withMap_none hm]⟩
    | some u =>
      cases hc : s.classOf dw.val with
      | none => exact .inl ⟨.flagValue dw.src dw.val, by simp [withMapReaction, withFormed_zero hz, withMap_some hm, withClass, hc]⟩
      | some cls => exact .inr ⟨u, cls, rfl, rfl, withMapReaction_some hz hm hc c⟩
  · exact .inl ⟨.reservedDelivery, by simp [withMapReaction, withFormed, hz]⟩

/-- A memory is silent for a flag not its own (R195). -/
theorem memAnswer_other {u : Mem} {dw : Delivery} (h : dw.src ≠ u.flag) (k : Nat → Res) : memAnswer u dw s k = .ok s none := by
  simp [memAnswer, h]

/-- A memory is silent outside its range (R195, R202). -/
theorem memAnswer_outside {u : Mem} {dw : Delivery} {a : Bus} (ha : s.bus? u.abus = some a)
    (h : a.value.toNat < u.start ∨ u.last < a.value.toNat) (k : Nat → Res) : memAnswer u dw s k = .ok s none := by
  unfold memAnswer
  split
  · rfl
  · simp [withBus_some ha, h]

/-- A memory answers its own flag inside its range, at the offset of the address (R195). -/
theorem memAnswer_inside {u : Mem} {dw : Delivery} {a : Bus} (hf : dw.src = u.flag) (ha : s.bus? u.abus = some a)
    (h : u.start ≤ a.value.toNat ∧ a.value.toNat ≤ u.last) (k : Nat → Res) :
    memAnswer u dw s k = k (a.value.toNat - u.start) := by
  have : ¬(a.value.toNat < u.start ∨ u.last < a.value.toNat) := by omega
  simp [memAnswer, hf, withBus_some ha, this]

/-- All a memory's decoder can answer. -/
theorem memAnswer_cases (u : Mem) (dw : Delivery) (s : State) (k : Nat → Res) :
    memAnswer u dw s k = .ok s none ∨ memAnswer u dw s k = .refused (.noSuchUnit .bus u.abus) ∨
    ∃ a, dw.src = u.flag ∧ s.bus? u.abus = some a ∧ u.start ≤ a.value.toNat ∧ a.value.toNat ≤ u.last ∧
      memAnswer u dw s k = k (a.value.toNat - u.start) := by
  by_cases hf : dw.src = u.flag
  · cases ha : s.bus? u.abus with
    | none => exact .inr (.inl (by simp [memAnswer, hf, withBus_none ha]))
    | some a =>
      by_cases h : a.value.toNat < u.start ∨ u.last < a.value.toNat
      · exact .inl (memAnswer_outside ha h k)
      · exact .inr (.inr ⟨a, hf, rfl, by omega, by omega, memAnswer_inside hf ha ⟨by omega, by omega⟩ k⟩)
  · exact .inl (memAnswer_other hf k)

/-- Outside the range the translation leaves the address as it is (R221). -/
theorem translate_outside {u : Mapper} {a : Nat} (h : a < u.first ∨ u.last < a) : translateAddress u a = .ok a := by
  simp [translateAddress, h]

theorem translate_inside {u : Mapper} {a : Nat} (h : u.first ≤ a ∧ a ≤ u.last) : translateAddress u a = translateInside u a := by
  have : ¬(a < u.first ∨ u.last < a) := by omega
  simp [translateAddress, this]

/-- A mapper is silent for a flag not its outer one (R226). -/
theorem mapAnswer_other {u : Mapper} {dw : Delivery} (h : dw.src ≠ u.outer.flag) (k : Word → Res) :
    mapAnswer u dw s k = .ok s none := by simp [mapAnswer, h]

/-- A mapper performs no action outside its range (R226, R231). -/
theorem mapAnswer_outside {u : Mapper} {dw : Delivery} {a : Bus} (ha : s.bus? u.outer.abus = some a)
    (h : a.value.toNat < u.first ∨ u.last < a.value.toNat) (k : Word → Res) : mapAnswer u dw s k = .ok s none := by
  unfold mapAnswer
  split
  · rfl
  · simp [withBus_some ha, h]

/-- A mapper answers its outer flag inside its range, with the translated address (R226). -/
theorem mapAnswer_inside {u : Mapper} {dw : Delivery} {a : Bus} {t : Nat} (hf : dw.src = u.outer.flag)
    (ha : s.bus? u.outer.abus = some a) (h : u.first ≤ a.value.toNat ∧ a.value.toNat ≤ u.last)
    (ht : translateAddress u a.value.toNat = .ok t) (k : Word → Res) : mapAnswer u dw s k = k (BitVec.ofNat 32 t) := by
  have : ¬(a.value.toNat < u.first ∨ u.last < a.value.toNat) := by omega
  simp [mapAnswer, hf, withBus_some ha, this, ht]

/-- All a mapper's decoder can answer. -/
theorem mapAnswer_cases (u : Mapper) (dw : Delivery) (s : State) (k : Word → Res) :
    mapAnswer u dw s k = .ok s none ∨ (∃ w, mapAnswer u dw s k = .refused w) ∨
    ∃ a t, dw.src = u.outer.flag ∧ s.bus? u.outer.abus = some a ∧ u.first ≤ a.value.toNat ∧ a.value.toNat ≤ u.last ∧
      translateAddress u a.value.toNat = .ok t ∧ mapAnswer u dw s k = k (BitVec.ofNat 32 t) := by
  by_cases hf : dw.src = u.outer.flag
  · cases ha : s.bus? u.outer.abus with
    | none => exact .inr (.inl ⟨_, by simp only [mapAnswer, hf, withBus_none ha, ne_eq, not_true_eq_false, if_false]; rfl⟩)
    | some a =>
      by_cases h : a.value.toNat < u.first ∨ u.last < a.value.toNat
      · exact .inl (mapAnswer_outside ha h k)
      · cases ht : translateAddress u a.value.toNat with
        | error w => exact .inr (.inl ⟨w, by simp [mapAnswer, hf, withBus_some ha, h, ht]⟩)
        | ok t =>
          exact .inr (.inr ⟨a, t, hf, rfl, by omega, by omega, ht,
            mapAnswer_inside hf ha ⟨by omega, by omega⟩ ht k⟩)
  · exact .inl (mapAnswer_other hf k)

/-! ## Construction -/

theorem inWiring_wiring (h : s.phase = .wiring) (k : Res) : inWiring s k = k := by simp [inWiring, h]

/-- A configuration record is refused in the run phase (R104, R305). -/
theorem inWiring_run (h : s.phase = .run) (k : Res) : inWiring s k = .refused .wiringInRunPhase := by simp [inWiring, h]

theorem withRange_good {lo hi : Word} (h : badRange lo hi = false) (k : Res) : withRange lo hi s k = k := by
  simp [withRange, h]

theorem withRange_bad {lo hi : Word} (h : badRange lo hi = true) (k : Res) :
    withRange lo hi s k = .err s (.invalidAddressRange lo.toInt hi.toInt) := by simp [withRange, h]

/-- A range is legal exactly when both bounds are non-negative and the last is above the first (R193, R219). -/
theorem badRange_eq_false {lo hi : Word} :
    badRange lo hi = false ↔ 0 ≤ lo.toInt ∧ 0 ≤ hi.toInt ∧ lo.toInt < hi.toInt := by
  simp [badRange]; omega

theorem toInt_nonneg_iff (w : Word) : 0 ≤ w.toInt ↔ w.toNat < 2 ^ 31 := by
  have := w.isLt
  rw [BitVec.toInt_eq_toNat_cond]; split <;> omega

theorem toInt_of_lt {w : Word} (h : w.toNat < 2 ^ 31) : w.toInt = w.toNat := by
  rw [BitVec.toInt_eq_toNat_cond]; split <;> omega

/-- A legal range as natural numbers. -/
theorem badRange_eq_false_nat {lo hi : Word} :
    badRange lo hi = false ↔ lo.toNat < hi.toNat ∧ hi.toNat < 2 ^ 31 := by
  rw [badRange_eq_false, toInt_nonneg_iff, toInt_nonneg_iff]
  constructor
  · rintro ⟨h1, h2, h3⟩; rw [toInt_of_lt h1, toInt_of_lt h2] at h3; omega
  · rintro ⟨h1, h2⟩; refine ⟨by omega, h2, ?_⟩; rw [toInt_of_lt (by omega), toInt_of_lt h2]; omega

theorem flagAppend_fresh {f : Handle} {l : Listener} {u : Flag} (h : s.flag? f = some u) (hl : l ∉ u.listeners) :
    flagAppend f l s = .ok (s.putFlag f { u with listeners := u.listeners ++ [l] }) none := by
  simp [flagAppend, withFlag_some h, hl]

theorem flagAppend_listed {f : Handle} {l : Listener} {u : Flag} (h : s.flag? f = some u) (hl : l ∈ u.listeners) :
    flagAppend f l s = .refused .listenerListed := by simp [flagAppend, withFlag_some h, hl]

theorem clockAppend_fresh {c : Handle} {l : Listener} {u : Clock} (h : s.clock? c = some u) (hl : l ∉ u.listeners) :
    clockAppend c l s = .ok (s.putClock c { u with listeners := u.listeners ++ [l] }) none := by
  simp [clockAppend, withClock_some h, hl]

theorem clockAppend_listed {c : Handle} {l : Listener} {u : Clock} (h : s.clock? c = some u) (hl : l ∈ u.listeners) :
    clockAppend c l s = .refused .listenerListed := by simp [clockAppend, withClock_some h, hl]

/-- The three units of a triple exist. -/
theorem hasTriple_iff {t : Triple} : s.hasTriple t = true ↔
    ∃ a d f, s.bus? t.abus = some a ∧ s.bus? t.dbus = some d ∧ s.flag? t.flag = some f := by
  simp [State.hasTriple, Option.isSome_iff_exists]; tauto

theorem withTriple_has {t : Triple} (h : s.hasTriple t = true) (k : Res) : withTriple t s k = k := by
  obtain ⟨a, d, f, ha, hd, hf⟩ := hasTriple_iff.mp h
  simp [withTriple, withBus_some ha, withBus_some hd, withFlag_some hf]

theorem withTriple_cases (t : Triple) (s : State) (k : Res) :
    (s.hasTriple t = true ∧ withTriple t s k = k) ∨ ∃ w, withTriple t s k = .refused w := by
  by_cases h : s.hasTriple t = true
  · exact .inl ⟨h, withTriple_has h k⟩
  · right
    unfold withTriple withBus withFlag
    cases ha : s.bus? t.abus with
    | none => exact ⟨_, rfl⟩
    | some a =>
      cases hd : s.bus? t.dbus with
      | none => exact ⟨_, rfl⟩
      | some d =>
        cases hf : s.flag? t.flag with
        | none => exact ⟨_, rfl⟩
        | some f => exact absurd (hasTriple_iff.mpr ⟨a, d, f, ha, hd, hf⟩) h

end Sys2Proof.Machine
end

