-- ==== Sys2Proof/Laws/Cascade.lean ====
section
/-! SUPPORT. Laws of cascades: the dispatch loop over a list split in two, what carrying out a nested operation unfolds to, and the
induction over a whole cascade said once (`perform_kept`): a relation every elementary change keeps is kept by every operation. -/

namespace Sys2Proof.Machine

variable {s s' : State}

/-! ## The dispatch loop -/

@[simp] theorem deliverAll_nil (nested : Instr → State → Res) (react : State → Listener → Except Refusal Instr)
    (frame : Nat → Frame) (outer : List Frame) (i : Nat) (s : State) :
    deliverAll nested react frame outer i [] s = .ok s none := rfl

/-- One listener succeeds: the loop goes on with the next index from the state it left. -/
theorem deliverAll_cons_ok {nested : Instr → State → Res} {react : State → Listener → Except Refusal Instr}
    {frame : Nat → Frame} {outer : List Frame} {i : Nat} {l : Listener} {ls : List Listener} {r : Instr} {v : Option Word}
    (hr : react s l = .ok r) (hn : nested r (s.withStack (frame i :: outer)) = .ok s' v) :
    deliverAll nested react frame outer i (l :: ls) s = deliverAll nested react frame outer (i + 1) ls s' := by
  simp [deliverAll, hr, hn]

/-- One listener fails: the loop ends there with the error wrapped (R157, R175). -/
theorem deliverAll_cons_err {nested : Instr → State → Res} {react : State → Listener → Except Refusal Instr}
    {frame : Nat → Frame} {outer : List Frame} {i : Nat} {l : Listener} {ls : List Listener} {r : Instr} {e : FabricError}
    (hr : react s l = .ok r) (hn : nested r (s.withStack (frame i :: outer)) = .err s' e) :
    deliverAll nested react frame outer i (l :: ls) s = .err s' (.signalPropagation e) := by
  simp [deliverAll, hr, hn]

/-- The loop over a list in two parts: the second part runs from where the first ends, if the first ends in `ok`. -/
theorem deliverAll_append (nested : Instr → State → Res) (react : State → Listener → Except Refusal Instr)
    (frame : Nat → Frame) (outer : List Frame) (i : Nat) (ls ms : List Listener) (s : State) :
    deliverAll nested react frame outer i (ls ++ ms) s =
      (deliverAll nested react frame outer i ls s).andThen
        (deliverAll nested react frame outer (i + ls.length) ms) := by
  induction ls generalizing i s with
  | nil => rfl
  | cons l ls ih =>
    rw [List.cons_append, deliverAll, deliverAll]
    cases react s l with
    | error w => rfl
    | ok r =>
      simp only
      cases nested r (s.withStack (frame i :: outer)) with
      | ok s' v => simp only [ih, List.length_cons]; congr 2; omega
      | err s' e => rfl
      | refused w => rfl

/-- A dispatch of one listener that completes. -/
theorem dispatch_one_ok {nested : Instr → State → Res} {react : State → Listener → Except Refusal Instr} {frame : Nat → Frame}
    {l : Listener} {r : Instr} {v : Option Word} (hr : react s l = .ok r)
    (hn : nested r (s.withStack (frame 0 :: s.stack)) = .ok s' v) :
    dispatch nested react frame [l] s = .ok (s'.withStack s.stack) none := by
  simp [dispatch, deliverAll_cons_ok hr hn]

/-- A dispatch of one listener that fails. -/
theorem dispatch_one_err {nested : Instr → State → Res} {react : State → Listener → Except Refusal Instr} {frame : Nat → Frame}
    {l : Listener} {r : Instr} {e : FabricError} (hr : react s l = .ok r)
    (hn : nested r (s.withStack (frame 0 :: s.stack)) = .err s' e) :
    dispatch nested react frame [l] s = .err (s'.withStack s.stack) (.signalPropagation e) := by
  simp [dispatch, deliverAll_cons_err hr hn]

@[simp] theorem dispatch_nil (nested : Instr → State → Res) (react : State → Listener → Except Refusal Instr)
    (frame : Nat → Frame) (s : State) : dispatch nested react frame [] s = .ok s none := by simp [dispatch]

/-- The reaction a memory on a flag's list makes. -/
theorem flagReaction_memory {f m : Handle} {val : Byte} {u : Mem} {cls : ValueClass} (hm : s.mem? m = some u)
    (hc : s.classOf val = some cls) :
    flagReaction f val s (.memory m) = .ok (memoryReaction u.kind cls m ⟨0#16, f, val⟩) := by
  simp [flagReaction, hm, hc]

/-- The reaction a mapper on a flag's list makes. -/
theorem flagReaction_mapper {f k : Handle} {val : Byte} {cls : ValueClass} (hc : s.classOf val = some cls) :
    flagReaction f val s (.mapper k) = .ok (mapperReaction cls k ⟨0#16, f, val⟩) := by
  simp [flagReaction, hc]

@[simp] theorem classOf_read (s : State) : s.classOf valRead = some .read := rfl
@[simp] theorem classOf_write (s : State) : s.classOf valWrite = some .write := rfl
@[simp] theorem classOf_halt (s : State) : s.classOf valHalt = some .other := rfl
@[simp] theorem classOf_start (s : State) : s.classOf valStart = some .other := rfl

/-- A member of a set has a class. -/
theorem memberOf_class {z : BitVec 4} {val : Byte} (h : s.memberOf z val = true) : ∃ cls, s.classOf val = some cls := by
  simp [State.memberOf, State.definesValue] at h
  exact Option.isSome_iff_exists.mp h.1

/-! ## Carrying out an operation -/

theorem perform_zero (i : Instr) (s : State) : perform 0 i s = .refused .outOfFuel := rfl

theorem perform_succ (n : Nat) (i : Instr) (s : State) : perform (n + 1) i s = act (perform n) i s := rfl

/-- The state in which an operation that is no configuration record starts: a command begins the run phase (R305). -/
def State.begin (s : State) (i : Instr) : State := if i.isCommand then s.enterRun else s

/-- A command or a reaction is the outcome of its cascade, one deeper than `fuel` (R16). -/
theorem exec_eq_perform (i : Instr) (s : State) (h : i.isCommand = true ∨ i.isReaction = true) :
    exec i s = settle (perform (s.fuel + 1) i (s.begin i)) := by
  cases i <;> first | rfl | (simp [Instr.isCommand, Instr.isReaction] at h)

/-! ## Induction over a cascade -/

/-- The state an operation leaves, by `ok` or by `err`, has a property. -/
def Res.leaves (r : Res) (p : State → Prop) : Prop :=
  match r with
  | .ok s _ => p s
  | .err s _ => p s
  | .refused _ => True

/-- A relation between states that every elementary change of a cascade keeps. -/
structure Kept (R : State → State → Prop) : Prop where
  refl : ∀ s, R s s
  trans : ∀ s t u, R s t → R t u → R s u
  /-- A bus takes a value that fits (R133, R134). -/
  bus : ∀ s b u v, s.bus? b = some u → (u.width ≤ 32 → v.toNat < 2 ^ u.width) → R s (s.putBus b { u with value := v })
  /-- A flag takes a defined member of its set (R160, R162). -/
  flag : ∀ s f u val, s.flag? f = some u → s.memberOf u.set val = true → R s (s.putFlag f { u with value := val })
  /-- A divider counts a pulse (R178). -/
  count : ∀ s d u v, s.clock? d = some u → u.divider = some v → v.counter + 1 ≠ v.period →
    R s (s.putClock d { u with divider := some { v with counter := v.counter + 1 } })
  /-- A divider fires (R178). -/
  fire : ∀ s d u v, s.clock? d = some u → u.divider = some v → v.counter + 1 = v.period →
    R s (s.putClock d { u with divider := some { v with counter := 0 } })
  /-- A cell of a RAM takes a value (R197). -/
  cell : ∀ s m u a v, s.mem? m = some u → u.kind = .ram → u.start ≤ a → a ≤ u.last →
    R s (s.putMem m { u with contents := Memory.write u.contents (a - u.start) v })
  /-- A bank is selected (R225). -/
  bank : ∀ s k u bases sel (bank : Byte), s.map? k = some u → u.kind = .banked bases sel → bank.toNat < bases.length →
    R s (s.putMap k { u with kind := .banked bases bank })
  /-- An external listener's private state moves on (R161). -/
  ext : ∀ s x e, R s (s.putExt x e)
  /-- A dispatch begins, goes to its next listener, or ends (R35). -/
  stack : ∀ s fs, R s (s.withStack fs)

section Keeping

variable {R : State → State → Prop} (hR : Kept R)

theorem leaves_mono {r : Res} {p q : State → Prop} (h : r.leaves p) (hpq : ∀ s, p s → q s) : r.leaves q := by
  cases r with
  | ok s v => exact hpq s h
  | err s e => exact hpq s h
  | refused w => trivial

include hR

theorem leaves_from {r : Res} {t : State} (h : r.leaves (R t)) (hst : R s t) : r.leaves (R s) :=
  leaves_mono h fun _ hu => hR.trans _ _ _ hst hu

theorem leaves_andThen {r : Res} {k : State → Res} (h : r.leaves (R s)) (hk : ∀ t, (k t).leaves (R t)) :
    (r.andThen k).leaves (R s) := by
  cases r with
  | ok t v => exact leaves_from hR (hk t) h
  | err t e => exact h
  | refused w => trivial

theorem leaves_unwound {r : Res} (h : r.leaves (R s)) (fs : List Frame) : (r.unwound fs).leaves (R s) := by
  cases r with
  | ok t v => exact hR.trans _ _ _ h (hR.stack t fs)
  | err t e => exact hR.trans _ _ _ h (hR.stack t fs)
  | refused w => trivial

theorem leaves_wrapped {r : Res} {p : State → Prop} (h : r.leaves p) : r.wrapped.leaves p := by
  have := hR.refl
  cases r <;> exact h

theorem busWriteChecked_kept (b : Handle) (v : Word) (s : State) : (busWriteChecked b v s).leaves (R s) := by
  rcases busWriteChecked_cases b v s with ⟨_, h⟩ | ⟨u, hu, ⟨hv, h⟩ | ⟨_, h⟩⟩
  · rw [h]; trivial
  · rw [h]; exact hR.bus s b u v hu fun hw => (fits_iff hw v).mp hv
  · rw [h]; exact hR.refl s

theorem busWriteMasked_kept (b : Handle) (v : Word) (s : State) : (busWriteMasked b v s).leaves (R s) := by
  cases hu : s.bus? b with
  | none => simp only [busWriteMasked, withBus_none hu]; trivial
  | some u =>
    rw [busWriteMasked_some v hu]
    exact hR.bus s b u _ hu fun hw => by rw [toNat_and_maskOf hw]; exact Nat.mod_lt _ (Nat.two_pow_pos _)

theorem relayWrite_kept (b : Handle) (v : Word) (s : State) : (relayWrite b v s).leaves (R s) :=
  leaves_wrapped hR (busWriteChecked_kept hR b v s)

theorem relayCopy_kept (dst src : Handle) (s : State) : (relayCopy dst src s).leaves (R s) := by
  cases hu : s.bus? src with
  | none => simp only [relayCopy, withBus_none hu]; trivial
  | some u => rw [relayCopy_some hu]; exact relayWrite_kept hR dst u.value s

variable {nested : Instr → State → Res} (hn : ∀ i s, (nested i s).leaves (R s))
include hn

theorem deliverAll_kept (react : State → Listener → Except Refusal Instr) (frame : Nat → Frame) (outer : List Frame) (i : Nat)
    (ls : List Listener) (s : State) : (deliverAll nested react frame outer i ls s).leaves (R s) := by
  induction ls generalizing i s with
  | nil => exact hR.refl s
  | cons l ls ih =>
    rw [deliverAll]
    cases react s l with
    | error w => trivial
    | ok r =>
      have h := leaves_from hR (hn r (s.withStack (frame i :: outer))) (hR.stack s (frame i :: outer))
      simp only
      cases hr : nested r (s.withStack (frame i :: outer)) with
      | ok t v => rw [hr] at h; exact leaves_from hR (ih (i + 1) t) h
      | err t e => rw [hr] at h; exact h
      | refused w => trivial

theorem dispatch_kept (react : State → Listener → Except Refusal Instr) (frame : Nat → Frame) (ls : List Listener) (s : State) :
    (dispatch nested react frame ls s).leaves (R s) :=
  leaves_unwound hR (deliverAll_kept hR hn react frame s.stack 0 ls s) s.stack

theorem runFset_kept (f : Handle) (val : Byte) (s : State) : (runFset nested f val s).leaves (R s) := by
  unfold runFset
  cases hu : s.flag? f with
  | none => rw [withFlag_none hu]; trivial
  | some u =>
    rw [withFlag_some hu]
    cases hv : s.memberOf u.set val with
    | false => trivial
    | true => exact leaves_from hR (dispatch_kept hR hn _ _ _ _) (hR.flag s f u val hu hv)

theorem runTick_kept (c : Handle) (s : State) : (runTick nested c s).leaves (R s) := by
  unfold runTick
  cases hu : s.clock? c with
  | none => rw [withClock_none hu]; trivial
  | some u =>
    rw [withClock_some hu]
    cases s.midPulse c with
    | true => trivial
    | false => exact dispatch_kept hR hn _ _ _ _

theorem pulses_kept (c : Handle) (n : Nat) (s : State) : (pulses nested c n s).leaves (R s) := by
  induction n generalizing s with
  | zero => exact hR.refl s
  | succ n ih => exact leaves_andThen hR (runTick_kept hR hn c s) ih

theorem runCommands_kept (cs : List ExtCommand) (s : State) : (runCommands nested cs s).leaves (R s) := by
  induction cs generalizing s with
  | nil => exact hR.refl s
  | cons c cs ih =>
    rw [runCommands]
    split
    · have h := hn c.command s
      cases hr : nested c.command s with
      | ok t v => rw [hr] at h; exact leaves_from hR (ih t) h
      | err t e =>
        rw [hr] at h
        simp only
        split
        · exact leaves_from hR (ih t) h
        · exact h
      | refused w => trivial
    · trivial

theorem extReact_kept (x : Handle) (ev : Event) (s : State) : (extReact nested x ev s).leaves (R s) := by
  unfold extReact
  refine leaves_andThen hR (leaves_from hR (runCommands_kept hR hn _ _) (hR.ext _ _ _)) fun t => ?_
  split <;> exact hR.refl t

theorem runDivOnt_kept (d : Handle) (dw : Delivery) (s : State) : (runDivOnt nested d dw s).leaves (R s) := by
  unfold runDivOnt withPulse withFormed
  split
  · split
    · cases hu : s.clock? d with
      | none => rw [withClock_none hu]; trivial
      | some u =>
        rw [withClock_some hu]
        cases hv : u.divider with
        | none => trivial
        | some v =>
          simp only
          split
          · exact leaves_andThen hR (leaves_from hR (hn _ _) (hR.fire s d u v hu hv ‹_›)) hR.refl
          · exact hR.count s d u v hu hv ‹_›
    · trivial
  · trivial

omit hn in
theorem withMemReaction_kept (kind : MemKind) (m : Handle) (dw : Delivery) (s : State) (k : Mem → ValueClass → Res)
    (hk : ∀ u cls, s.mem? m = some u → u.kind = kind → (k u cls).leaves (R s)) : (withMemReaction kind m dw s k).leaves (R s) := by
  have := hR.refl
  rcases withMemReaction_cases kind m dw s k with ⟨w, h⟩ | ⟨u, cls, hu, hkind, _, h⟩
  · rw [h]; trivial
  · rw [h]; exact hk u cls hu hkind

omit hn in
theorem memAnswer_kept (u : Mem) (dw : Delivery) (s : State) (k : Nat → Res)
    (hk : ∀ a, u.start ≤ a → a ≤ u.last → (k (a - u.start)).leaves (R s)) : (memAnswer u dw s k).leaves (R s) := by
  rcases memAnswer_cases u dw s k with h | h | ⟨a, _, _, h1, h2, h⟩
  · rw [h]; exact hR.refl s
  · rw [h]; trivial
  · rw [h]; exact hk _ h1 h2

omit hn in
theorem memRead_kept (u : Mem) (dw : Delivery) (s : State) : (memRead u dw s).leaves (R s) :=
  memAnswer_kept hR u dw s _ fun _ _ _ => busWriteChecked_kept hR _ _ s

omit hn in
theorem ramEffect_kept {m : Handle} {u : Mem} {s : State} (hu : s.mem? m = some u) (hk : u.kind = .ram) (dw : Delivery)
    (cls : ValueClass) : (ramEffect m u dw s cls).leaves (R s) := by
  cases cls with
  | read => exact memRead_kept hR u dw s
  | other => exact hR.refl s
  | write =>
    rw [ramEffect, memWrite]
    refine memAnswer_kept hR u dw s _ fun a h1 h2 => ?_
    cases hd : s.bus? u.dbus with
    | none => rw [withBus_none hd]; trivial
    | some d =>
      rw [withBus_some hd]
      unfold cellStore
      split
      · exact hR.cell s m u a _ hu hk h1 h2
      · trivial

omit hn in
theorem romEffect_kept (u : Mem) (dw : Delivery) (s : State) (cls : ValueClass) : (romEffect u dw s cls).leaves (R s) := by
  cases cls with
  | read => exact memRead_kept hR u dw s
  | write => exact hR.refl s
  | other => exact hR.refl s

omit hn in
theorem withMapReaction_kept (k : Handle) (dw : Delivery) (s : State) (c : Mapper → ValueClass → Res)
    (hc : ∀ u cls, (c u cls).leaves (R s)) : (withMapReaction k dw s c).leaves (R s) := by
  have := hR.refl
  rcases withMapReaction_cases k dw s c with ⟨w, h⟩ | ⟨u, cls, _, _, h⟩
  · rw [h]; trivial
  · rw [h]; exact hc u cls

omit hn in
theorem mapAnswer_kept (u : Mapper) (dw : Delivery) (s : State) (k : Word → Res) (hk : ∀ t, (k t).leaves (R s)) :
    (mapAnswer u dw s k).leaves (R s) := by
  rcases mapAnswer_cases u dw s k with h | ⟨w, h⟩ | ⟨_, _, _, _, _, _, _, h⟩
  · rw [h]; exact hR.refl s
  · rw [h]; trivial
  · rw [h]; exact hk _

theorem mapEffect_kept (u : Mapper) (dw : Delivery) (s : State) (cls : ValueClass) :
    (mapEffect nested u dw s cls).leaves (R s) := by
  cases cls with
  | read =>
    rw [mapEffect, relayRead]
    refine mapAnswer_kept hR u dw s _ fun t => ?_
    exact leaves_andThen hR (relayWrite_kept hR _ _ s) fun s1 =>
      leaves_andThen hR (hn _ s1) fun s2 => relayCopy_kept hR _ _ s2
  | write =>
    rw [mapEffect, relayStore]
    refine mapAnswer_kept hR u dw s _ fun t => ?_
    exact leaves_andThen hR (relayWrite_kept hR _ _ s) fun s1 =>
      leaves_andThen hR (relayCopy_kept hR _ _ s1) fun s2 => leaves_andThen hR (hn _ s2) hR.refl
  | other =>
    rw [mapEffect, relayOther]
    refine mapAnswer_kept hR u dw s _ fun t => ?_
    exact leaves_andThen hR (relayWrite_kept hR _ _ s) fun s1 => leaves_andThen hR (hn _ s1) hR.refl

omit hn in
theorem runMbsel_kept (k : Handle) (bank : Byte) (s : State) : (runMbsel k bank s).leaves (R s) := by
  unfold runMbsel
  cases hu : s.map? k with
  | none => rw [withMap_none hu]; trivial
  | some u =>
    rw [withMap_some hu]
    split
    · trivial
    · trivial
    · rename_i bases sel hk
      by_cases hb : bank.toNat < bases.length
      · simp only [hb, decide_true, require_true]; exact hR.bank s k u bases sel bank hu hk hb
      · simp only [hb, decide_false, require_false]; trivial

omit hn in
theorem runMxlt_kept (k : Handle) (a : BitVec 31) (s : State) : (runMxlt k a s).leaves (R s) := by
  unfold runMxlt
  cases hu : s.map? k with
  | none => rw [withMap_none hu]; trivial
  | some u =>
    rw [withMap_some hu]
    split
    · trivial
    · exact hR.refl s

/-- One operation of a cascade keeps what its nested operations keep. -/
theorem act_kept (i : Instr) (s : State) : (act nested i s).leaves (R s) := by
  cases i <;> simp only [act] <;> try trivial
  case brd b =>
    unfold runBrd
    cases hu : s.bus? b with
    | none => rw [withBus_none hu]; trivial
    | some u => rw [withBus_some hu]; exact hR.refl s
  case bwc b v => exact busWriteChecked_kept hR b v s
  case bwm b v => exact busWriteMasked_kept hR b v s
  case fget f =>
    unfold runFget
    cases hu : s.flag? f with
    | none => rw [withFlag_none hu]; trivial
    | some u => rw [withFlag_some hu]; exact hR.refl s
  case fset f val => exact runFset_kept hR hn f val s
  case tick c => exact runTick_kept hR hn c s
  case tickn c n =>
    unfold runTickn
    cases hu : s.clock? c with
    | none => rw [withClock_none hu]; trivial
    | some u => rw [withClock_some hu]; exact pulses_kept hR hn c _ s
  case mxlt k a => exact runMxlt_kept hR k a s
  case mbsel k bank => exact runMbsel_kept hR k bank s
  case divOnt d dw => exact runDivOnt_kept hR hn d dw s
  case extOnt x dw =>
    unfold runExtOnt withPulse withFormed
    split
    · split
      · exact extReact_kept hR hn x _ s
      · trivial
    · trivial
  case extOnf x dw =>
    unfold runExtOnf withFormed
    split
    · exact extReact_kept hR hn x _ s
    · trivial
  case ramRd m dw => exact withMemReaction_kept hR _ m dw s _ fun u cls hu hk => ramEffect_kept hR hu hk dw cls
  case ramWr m dw => exact withMemReaction_kept hR _ m dw s _ fun u cls hu hk => ramEffect_kept hR hu hk dw cls
  case ramOth m dw => exact withMemReaction_kept hR _ m dw s _ fun u cls hu hk => ramEffect_kept hR hu hk dw cls
  case romRd m dw => exact withMemReaction_kept hR _ m dw s _ fun u cls _ _ => romEffect_kept hR u dw s cls
  case romWr m dw => exact withMemReaction_kept hR _ m dw s _ fun u cls _ _ => romEffect_kept hR u dw s cls
  case romOth m dw => exact withMemReaction_kept hR _ m dw s _ fun u cls _ _ => romEffect_kept hR u dw s cls
  case mapRd k dw => exact withMapReaction_kept hR k dw s _ fun u cls => mapEffect_kept hR hn u dw s cls
  case mapWr k dw => exact withMapReaction_kept hR k dw s _ fun u cls => mapEffect_kept hR hn u dw s cls
  case mapOth k dw => exact withMapReaction_kept hR k dw s _ fun u cls => mapEffect_kept hR hn u dw s cls

omit hn in
/-- A relation every elementary change keeps is kept by every operation with its whole cascade. -/
theorem perform_kept (n : Nat) (i : Instr) (s : State) : (perform n i s).leaves (R s) := by
  induction n generalizing i s with
  | zero => trivial
  | succ n ih => exact act_kept hR ih i s

omit hn in
/-- The same at the step boundary, for a command or a reaction: the next state is one the relation reaches, with the report put in. -/
theorem exec_kept {i : Instr} (hi : i.isCommand = true ∨ i.isReaction = true) {t : State} (h : exec i s = .next t) :
    ∃ t' r, R (s.begin i) t' ∧ t = t'.withReport r := by
  rw [exec_eq_perform i s hi] at h
  have hk := perform_kept hR (s.fuel + 1) i (s.begin i)
  rcases settle_next h with ⟨t', v, hr, rfl⟩ | ⟨t', e, hr, rfl⟩
  · rw [hr] at hk; exact ⟨t', _, hk, rfl⟩
  · rw [hr] at hk; exact ⟨t', _, hk, rfl⟩

end Keeping

end Sys2Proof.Machine
end

