-- ==== Sys2Proof/Laws/Decode.lean ====
section
/-! SUPPORT. Laws of the decoder's and the encoder's parts: bytes and words read back, and for each reader of extension words
what it reads from what the encoder writes, and what it has read when it succeeds. -/

namespace Sys2Proof

/-- The bytes of a word, read back, are the word (R103). -/
theorem word4_bytes (w : Word) :
    word4 (w.extractLsb' 24 8) (w.extractLsb' 16 8) (w.extractLsb' 8 8) (w.extractLsb' 0 8) = w := by
  apply BitVec.eq_of_getLsbD_eq
  intro i hi
  unfold word4
  rw [BitVec.getLsbD_append, BitVec.getLsbD_append, BitVec.getLsbD_append, BitVec.getLsbD_extractLsb', BitVec.getLsbD_extractLsb',
    BitVec.getLsbD_extractLsb', BitVec.getLsbD_extractLsb']
  split
  · simp [*]
  · split
    · simp only [*, decide_true, Bool.true_and]; congr 1; omega
    · split
      · simp only [*, decide_true, Bool.true_and]; congr 1; omega
      · have : i - 8 - 8 - 8 < 8 := by omega
        simp only [this, decide_true, Bool.true_and]; congr 1; omega

/-- Four bytes read as a word are its bytes (R103). -/
theorem bytes_word4 (a b c d : Byte) : wordBytes (word4 a b c d) = [a, b, c, d] := by
  unfold word4 wordBytes
  simp only [List.cons.injEq, and_true]
  refine ⟨?_, ?_, ?_, ?_⟩ <;> apply BitVec.eq_of_getLsbD_eq <;> intro i hi <;>
    rw [BitVec.getLsbD_extractLsb', BitVec.getLsbD_append]
  · rw [if_neg (by omega), BitVec.getLsbD_append, if_neg (by omega), BitVec.getLsbD_append, if_neg (by omega)]
    simp only [hi, decide_true, Bool.true_and]; congr 1; omega
  · rw [if_neg (by omega), BitVec.getLsbD_append, if_neg (by omega), BitVec.getLsbD_append, if_pos (by omega)]
    simp only [hi, decide_true, Bool.true_and]; congr 1; omega
  · rw [if_neg (by omega), BitVec.getLsbD_append, if_pos (by omega)]
    simp only [hi, decide_true, Bool.true_and]; congr 1; omega
  · rw [if_pos (by omega)]; simp [hi]

/-- A delivery operand survives its field (R98). -/
theorem deliveryOf_imm (dw : Delivery) : deliveryOf (deliveryImm dw) = dw := by
  obtain ⟨z, s, v⟩ := dw
  simp only [deliveryOf, deliveryImm, Delivery.mk.injEq]
  refine ⟨?_, ?_, ?_⟩ <;> apply BitVec.eq_of_getLsbD_eq <;> intro i hi <;>
    rw [BitVec.getLsbD_extractLsb', BitVec.getLsbD_append]
  · rw [if_neg (by omega), BitVec.getLsbD_append, if_neg (by omega)]
    simp only [hi, decide_true, Bool.true_and]; congr 1; omega
  · rw [if_neg (by omega), BitVec.getLsbD_append, if_pos (by omega)]
    simp only [hi, decide_true, Bool.true_and]; congr 1; omega
  · rw [if_pos (by omega)]; simp [hi]

/-- A delivery field is the field of the operand read from it (R98). -/
theorem deliveryImm_of (w : Word) : deliveryImm (deliveryOf w) = w := by
  apply BitVec.eq_of_getLsbD_eq
  intro i hi
  unfold deliveryImm deliveryOf
  rw [BitVec.getLsbD_append, BitVec.getLsbD_append, BitVec.getLsbD_extractLsb', BitVec.getLsbD_extractLsb', BitVec.getLsbD_extractLsb']
  split
  · simp [*]
  · split
    · simp only [*, decide_true, Bool.true_and]; congr 1; omega
    · have : i - 8 - 8 < 16 := by omega
      simp only [this, decide_true, Bool.true_and]; congr 1; omega

/-- A word whose bits from 8 up are 0 is its low byte. -/
theorem byte_of_word {w : Word} (h : w.extractLsb' 8 24 = 0#24) : (w.extractLsb' 0 8).setWidth 32 = w := by
  have hb : ∀ i, 8 ≤ i → w.getLsbD i = false := by
    intro i h8
    by_cases hi : i < 32
    · have := congrArg (fun v => v.getLsbD (i - 8)) h
      rw [BitVec.getLsbD_extractLsb', show 8 + (i - 8) = i by omega] at this
      simpa [show i - 8 < 24 by omega] using this
    · exact BitVec.getLsbD_of_ge _ _ (by omega)
  apply BitVec.eq_of_getLsbD_eq
  intro i hi
  rw [BitVec.getLsbD_setWidth, BitVec.getLsbD_extractLsb']
  by_cases h8 : i < 8
  · simp [h8, hi]
  · simp only [h8, decide_false, Bool.false_and, Bool.and_false]; exact (hb i (by omega)).symm

/-- A byte carried in a word leaves the high bits 0. -/
theorem byte_high (c : Byte) : (c.setWidth 32 : Word).extractLsb' 8 24 = 0#24 := by
  apply BitVec.eq_of_getLsbD_eq
  intro i hi
  rw [BitVec.getLsbD_extractLsb', BitVec.getLsbD_setWidth]
  simp

/-- A byte carried in a word is read back. -/
theorem byte_low (c : Byte) : (c.setWidth 32 : Word).extractLsb' 0 8 = c := by
  apply BitVec.eq_of_getLsbD_eq
  intro i hi
  rw [BitVec.getLsbD_extractLsb', BitVec.getLsbD_setWidth]
  simp only [hi, decide_true, Bool.true_and, Nat.zero_add, show i < 32 by omega]

/-- A word is read from its bytes. -/
theorem takeWord_bytes (w : Word) (r : List Byte) : takeWord (wordBytes w ++ r) = .ok (w, r) := by
  simp [takeWord, wordBytes, word4_bytes]

/-- What was read as a word was its bytes. -/
theorem takeWord_inv {bs r : List Byte} {w : Word} (h : takeWord bs = .ok (w, r)) : bs = wordBytes w ++ r := by
  unfold takeWord at h
  split at h
  · cases h; simp [bytes_word4]
  · cases h

/-- Words are read from their bytes (R97). -/
theorem takeWords_bytes (ws : List Word) (r : List Byte) : takeWords ws.length (ws.flatMap wordBytes ++ r) = .ok (ws, r) := by
  induction ws with
  | nil => rfl
  | cons w ws ih =>
      simp only [List.flatMap_cons, List.append_assoc, List.length_cons, takeWords, takeWord_bytes]
      simp [Bind.bind, Except.bind, Pure.pure, Except.pure, ih]

/-- What was read as n words was the bytes of n words. -/
theorem takeWords_inv {n : Nat} {bs r : List Byte} {ws : List Word} (h : takeWords n bs = .ok (ws, r)) :
    ws.length = n ∧ bs = ws.flatMap wordBytes ++ r := by
  induction n generalizing bs ws r with
  | zero => simp [takeWords] at h; obtain ⟨rfl, rfl⟩ := h; simp
  | succ n ih =>
    simp only [takeWords] at h
    cases h1 : takeWord bs with
    | error e => simp [h1, Bind.bind, Except.bind] at h
    | ok p =>
      obtain ⟨w, bs'⟩ := p
      cases h2 : takeWords n bs' with
      | error e => simp [h1, h2, Bind.bind, Except.bind] at h
      | ok q =>
        obtain ⟨ws', bs''⟩ := q
        simp [h1, h2, Bind.bind, Except.bind, Pure.pure, Except.pure] at h
        obtain ⟨rfl, rfl⟩ := h
        obtain ⟨h3, rfl⟩ := ih h2
        simp [h3, takeWord_inv h1]

/-- Cells are read from the words that carry them (R97). -/
theorem takeCells_bytes (op) (cs :
    List Byte) (r : List Byte) : takeCells op cs.length (cs.flatMap (fun c => wordBytes (c.setWidth 32)) ++ r) = .ok (cs, r) := by
  induction cs with
  | nil => rfl
  | cons w ws ih =>
      simp only [List.flatMap_cons, List.append_assoc, List.length_cons, takeCells, takeWord_bytes]
      simp [Bind.bind, Except.bind, Pure.pure, Except.pure, ih, byte_high, byte_low]

/-- What was read as n cells was the words of n cells. -/
theorem takeCells_inv {op} {n : Nat} {bs r : List Byte} {cs : List Byte} (h : takeCells op n bs = .ok (cs, r)) :
    cs.length = n ∧ bs = cs.flatMap (fun c => wordBytes (c.setWidth 32)) ++ r := by
  induction n generalizing bs cs r with
  | zero => simp [takeCells] at h; obtain ⟨rfl, rfl⟩ := h; simp
  | succ n ih =>
    simp only [takeCells] at h
    cases h1 : takeWord bs with
    | error e => simp [h1, Bind.bind, Except.bind] at h
    | ok p =>
      obtain ⟨w, bs'⟩ := p
      by_cases hw : w.extractLsb' 8 24 = 0#24
      · cases h2 : takeCells op n bs' with
        | error e => simp [h1, h2, hw, Bind.bind, Except.bind] at h
        | ok q =>
          obtain ⟨ws', bs''⟩ := q
          simp [h1, h2, hw, Bind.bind, Except.bind, Pure.pure, Except.pure] at h
          obtain ⟨rfl, rfl⟩ := h
          obtain ⟨h3, rfl⟩ := ih h2
          simp [h3, takeWord_inv h1, byte_of_word hw]
      · simp [h1, hw, Bind.bind, Except.bind] at h

theorem takeBytes_bytes (l r : List Byte) : takeBytes l.length (l ++ r) = .ok (l, r) := by
  induction l with
  | nil => rfl
  | cons b l ih => simp [takeBytes, ih, Bind.bind, Except.bind, Pure.pure, Except.pure]

theorem takeBytes_inv {n : Nat} {bs l r : List Byte} (h : takeBytes n bs = .ok (l, r)) : l.length = n ∧ bs = l ++ r := by
  induction n generalizing bs l r with
  | zero => simp [takeBytes] at h; obtain ⟨rfl, rfl⟩ := h; simp
  | succ n ih =>
    cases bs with
    | nil => simp [takeBytes] at h
    | cons b bs =>
      simp only [takeBytes] at h
      cases h2 : takeBytes n bs with
      | error e => simp [h2, Bind.bind, Except.bind] at h
      | ok q =>
        obtain ⟨l', r'⟩ := q
        simp [h2, Bind.bind, Except.bind, Pure.pure, Except.pure] at h
        obtain ⟨rfl, rfl⟩ := h
        obtain ⟨h3, rfl⟩ := ih h2
        simp [h3]

/-- A packed array is read from its bytes and padding (R97). -/
theorem takePacked_bytes (op) (l r : List Byte) : takePacked op l.length (packedBytes l ++ r) = .ok (l, r) := by
  simp only [takePacked, packedBytes, List.append_assoc, takeBytes_bytes]
  have := takeBytes_bytes (List.replicate (padding l.length) 0#8) r
  rw [List.length_replicate] at this
  simp [Bind.bind, Except.bind, this, Pure.pure, Except.pure]

/-- What was read as a packed array was one. -/
theorem takePacked_inv {op n} {bs l r :
    List Byte} (h : takePacked op n bs = .ok (l, r)) : l.length = n ∧ bs = packedBytes l ++ r := by
  simp only [takePacked] at h
  cases h1 : takeBytes n bs with
  | error e => simp [h1, Bind.bind, Except.bind] at h
  | ok p =>
    obtain ⟨l', bs'⟩ := p
    cases h2 : takeBytes (padding n) bs' with
    | error e => simp [h1, h2, Bind.bind, Except.bind] at h
    | ok q =>
      obtain ⟨pad, bs''⟩ := q
      simp [h1, h2, Bind.bind, Except.bind, Pure.pure, Except.pure] at h
      split at h
      · simp at h
      · rename_i hp
        · have hz := hp
          cases h
          obtain ⟨h3, rfl⟩ := takeBytes_inv h1
          obtain ⟨h4, rfl⟩ := takeBytes_inv h2
          refine ⟨h3, ?_⟩
          have : pad = List.replicate (padding l.length) 0#8 := by
            rw [h3]
            refine List.eq_replicate_iff.mpr ⟨h4, ?_⟩
            intro b hb
            by_contra hne
            exact hz ⟨b, hb, hne⟩
          simp [packedBytes, ← this]

/-- A wiring word is read back (R95). -/
theorem takeWiring_bytes (t : Triple) (x : Byte) (r) : takeWiring (wiringBytes t x ++ r) = .ok (t, x, r) := by
  have h := bytes_word4 t.abus t.dbus t.flag x
  simp only [wordBytes, List.cons.injEq, and_true] at h
  simp [takeWiring, wiringBytes, takeWord, Bind.bind, Except.bind, Pure.pure, Except.pure, h]

/-- What was read as a wiring word was one. -/
theorem takeWiring_inv {bs r : List Byte} {t x} (h : takeWiring bs = .ok (t, x, r)) : bs = wiringBytes t x ++ r := by
  simp only [takeWiring] at h
  cases h1 : takeWord bs with
  | error e => simp [h1, Bind.bind, Except.bind] at h
  | ok p =>
    obtain ⟨w, bs'⟩ := p
    simp [h1, Bind.bind, Except.bind, Pure.pure, Except.pure] at h
    obtain ⟨rfl, rfl, rfl⟩ := h
    exact takeWord_inv h1

/-- A length that fits its word is read back (R97). -/
theorem len_bytes {α} (l : List α) (h : lengthFits l = true) : (BitVec.ofNat 32 l.length).toNat = l.length := by
  simp only [lengthFits, decide_eq_true_eq] at h
  simp; omega

theorem len_inv {α} (l : List α) (w : Word) (h : l.length = w.toNat) : lengthBytes l = wordBytes w := by simp [lengthBytes, h]

/-- What follows the head of RAMNEW and ROMNEW is read back. -/
theorem takeMemory_bytes (op) (last t c r) (h :
    Option.all lengthFits c = true) : takeMemory op (memoryBytes last t c ++ r) = .ok (last, t, c, r) := by
  cases c with
  | none =>
      simp [takeMemory, memoryBytes, List.append_assoc, takeWord_bytes, takeWiring_bytes, Bind.bind, Except.bind,
        Pure.pure, Except.pure]
  | some c =>
    have h : lengthFits c = true := h
    simp [takeMemory, memoryBytes, List.append_assoc, takeWord_bytes, takeWiring_bytes, Bind.bind, Except.bind,
      Pure.pure, Except.pure, lengthBytes, len_bytes c h, takeCells_bytes, -BitVec.toNat_ofNat]

/-- What follows the head of a mapper record is read back. -/
theorem takeMapper_bytes (op) (last o i m r) : takeMapper op (mapperBytes last o i m ++ r) = .ok (last, o, i, m, r) := by
  simp [takeMapper, mapperBytes, List.append_assoc, takeWord_bytes, takeWiring_bytes, Bind.bind, Except.bind,
    Pure.pure, Except.pure, mustBeZero]

end Sys2Proof
end

