-- ==== Sys2Proof/Laws/Observers.lean ====
section
/-! SUPPORT. Laws of external listeners: what a delivery does in each case of the reaction, and, for listeners that only observe (R161),
what the dispatch loop over a list of them does and leaves alone. -/

namespace Sys2Proof.Machine

variable {s : State}

/-- A delivery to an external listener whose reaction issues nothing and does not fail: its private state moves on. -/
theorem extReact_silent (nested : Instr → State → Res) {x : Handle} {ev : Event} (hc : (s.reaction x ev).commands = [])
    (hf : (s.reaction x ev).failure = none) : extReact nested x ev s = .ok (s.moveOn x ev) none := by
  rw [extReact, hc, hf]; rfl

/-- One whose reaction only fails. -/
theorem extReact_failing (nested : Instr → State → Res) {x : Handle} {ev : Event} {code : Nat}
    (hc : (s.reaction x ev).commands = []) (hf : (s.reaction x ev).failure = some code) :
    extReact nested x ev s = .err (s.moveOn x ev) (.ofListener x code) := by
  rw [extReact, hc, hf]; rfl

/-- A command that succeeds lets the listener go on from the state reached. -/
theorem runCommands_ok {nested : Instr → State → Res} {c : ExtCommand} {cs : List ExtCommand} {s' : State} {v : Option Word}
    (hc : c.command.isCommand = true) (hn : nested c.command s = .ok s' v) :
    runCommands nested (c :: cs) s = runCommands nested cs s' := by
  rw [runCommands, if_pos hc, hn]

/-- A command that fails ends the reaction with its error, unless the listener handles that error (R9, R298). -/
theorem runCommands_err {nested : Instr → State → Res} {c : ExtCommand} {cs : List ExtCommand} {s' : State} {e : FabricError}
    (hc : c.command.isCommand = true) (hn : nested c.command s = .err s' e) :
    runCommands nested (c :: cs) s = if c.handles e then runCommands nested cs s' else .err s' e := by
  rw [runCommands, if_pos hc, hn]

/-- A behaviour with no case observes. -/
theorem onlyObserves_nil : (Behaviour.rules []).onlyObserves := fun _ _ _ _ => ⟨rfl, rfl⟩

/-- A listener with no behaviour listed observes. -/
theorem observes_unlisted {x : Handle} (h : Table.look s.behaviours x.toNat = none) : s.observes x := by
  rw [State.observes, State.behaviour, h]; exact onlyObserves_nil

/-- An observer's private state moves on and nothing else happens. -/
theorem extReact_observer (nested : Instr → State → Res) {x : Handle} (ev : Event) (h : s.observes x) :
    extReact nested x ev s = .ok (s.moveOn x ev) none :=
  extReact_silent nested (h _ _ _ _).1 (h _ _ _ _).2

theorem act_extOnf_observer (nested : Instr → State → Res) {x : Handle} (f : Handle) (val : Byte) (h : s.observes x) :
    act nested (.extOnf x ⟨0#16, f, val⟩) s = .ok (s.moveOn x (.onFlagChange val f)) none := by
  rw [act, runExtOnf, withFormed_zero rfl, extReact_observer _ _ h]

theorem act_extOnt_observer (nested : Instr → State → Res) {x : Handle} (c : Handle) (h : s.observes x) :
    act nested (.extOnt x ⟨0#16, c, 0#8⟩) s = .ok (s.moveOn x (.onTick c)) none := by
  rw [act, runExtOnt, withPulse_zero rfl rfl, extReact_observer _ _ h]

@[simp] theorem observes_putExt (x : Handle) (u : Ext) (y : Handle) : (s.putExt x u).observes y = s.observes y := rfl
@[simp] theorem observes_moveOn (x : Handle) (ev : Event) (y : Handle) : (s.moveOn x ev).observes y = s.observes y := rfl
@[simp] theorem observes_withStack (fs : List Frame) (x : Handle) : (s.withStack fs).observes x = s.observes x := rfl
@[simp] theorem observes_enterRun (x : Handle) : s.enterRun.observes x = s.observes x := rfl
@[simp] theorem observes_putFlag (f : Handle) (u : Flag) (x : Handle) : (s.putFlag f u).observes x = s.observes x := rfl
@[simp] theorem observes_putClock (c : Handle) (u : Clock) (x : Handle) : (s.putClock c u).observes x = s.observes x := rfl

/-- Observing changes nothing but the listeners' states. -/
theorem observedBy_eq (ev : Event) (xs : List Handle) (s : State) : ∃ es, s.observedBy ev xs = { s with exts := es } := by
  induction xs generalizing s with
  | nil => exact ⟨s.exts, rfl⟩
  | cons x xs ih =>
    obtain ⟨es, h⟩ := ih (s.moveOn x ev)
    exact ⟨es, h⟩

/-- The stack plays no part in what is observed (R35). -/
theorem observedBy_withStack (ev : Event) (xs : List Handle) (s : State) (fs : List Frame) :
    (s.withStack fs).observedBy ev xs = (s.observedBy ev xs).withStack fs := by
  induction xs generalizing s with
  | nil => rfl
  | cons x xs ih => exact ih (s.moveOn x ev)

/-- The dispatch loop over observers delivers the event to each, in order (R155, R175). -/
theorem deliverAll_observers {nested : Instr → State → Res} {react : State → Listener → Except Refusal Instr} {frame : Nat → Frame}
    {outer : List Frame} {ev : Event} (one : ∀ (t : State) (x : Handle), t.observes x →
      ∃ r, react t (.external x) = .ok r ∧ ∀ fs, nested r (t.withStack fs) = .ok ((t.withStack fs).moveOn x ev) none)
    (xs : List Handle) (i : Nat) (s : State) (h : ∀ x ∈ xs, s.observes x) :
    ∃ fs, deliverAll nested react frame outer i (xs.map .external) s = .ok ((s.observedBy ev xs).withStack fs) none := by
  induction xs generalizing i s with
  | nil => exact ⟨s.stack, rfl⟩
  | cons x xs ih =>
    obtain ⟨r, hr, hn⟩ := one s x (h x (by simp))
    obtain ⟨fs, hh⟩ := ih (i + 1) ((s.withStack (frame i :: outer)).moveOn x ev) fun y hy => h y (by simp [hy])
    refine ⟨fs, ?_⟩
    rw [List.map_cons, deliverAll_cons_ok hr (hn _), hh]
    exact congrArg (fun t => Res.ok (t.withStack fs) none) (observedBy_withStack ev xs (s.moveOn x ev) (frame i :: outer))

/-- A flag change dispatched to observers. -/
theorem deliverAll_flag_observers (n : Nat) (f : Handle) (val : Byte) (frame : Nat → Frame) (outer : List Frame) (xs : List Handle)
    (i : Nat) (s : State) (h : ∀ x ∈ xs, s.observes x) :
    ∃ fs, deliverAll (perform (n + 1)) (flagReaction f val) frame outer i (xs.map .external) s =
      .ok ((s.observedBy (.onFlagChange val f) xs).withStack fs) none :=
  deliverAll_observers (fun t _ hx => ⟨_, rfl, fun fs => act_extOnf_observer (s := t.withStack fs) _ f val hx⟩) xs i s h

/-- A pulse dispatched to observers. -/
theorem deliverAll_clock_observers (n : Nat) (c : Handle) (frame : Nat → Frame) (outer : List Frame) (xs : List Handle) (i : Nat)
    (s : State) (h : ∀ x ∈ xs, s.observes x) :
    ∃ fs, deliverAll (perform (n + 1)) (fun _ => tickReaction c) frame outer i (xs.map .external) s =
      .ok ((s.observedBy (.onTick c) xs).withStack fs) none :=
  deliverAll_observers (fun t _ hx => ⟨_, rfl, fun fs => act_extOnt_observer (s := t.withStack fs) _ c hx⟩) xs i s h

end Sys2Proof.Machine
end

