-- ==== Sys2Proof/Laws/PerInstr.lean ====
section
/-! SUPPORT. Per operation: the shape of its encoding. -/

namespace Sys2Proof.Laws.EncodingShape

/-- The `op` ranges of the three classes of word (R92, R94, R98). -/
def inClass (i : Instr) (op : Byte) : Bool :=
  if i.isCommand then decide (op < 0x40#8)
  else if i.isReaction then decide (0x80#8 ≤ op)
  else decide (0x40#8 ≤ op ∧ op < 0x80#8)

/-- An operation's encoding begins with an `op` of its class and is a 48-bit head followed by whole 32-bit words (R91, R93). -/
def Statement (i : Instr) : Prop :=
  ∃ op tail, encode i = op :: tail ∧ inClass i op = true ∧ 5 ≤ tail.length ∧ tail.length % 4 = 1

/-- A head word alone. -/
theorem of_head {i : Instr} {op unit : Byte} {imm : Word} (h : encode i = headBytes op unit imm) (hc : inClass i op = true) :
    Statement i := ⟨op, unit :: wordBytes imm, h, hc, by simp [wordBytes], by simp [wordBytes]⟩

/-- A head word and extension words. -/
theorem of_record {i : Instr} {op unit : Byte} {imm : Word} {ext : List Byte} (h : encode i = headBytes op unit imm ++ ext)
    (hc : inClass i op = true) (hl : ext.length % 4 = 0) : Statement i :=
  ⟨op, unit :: wordBytes imm ++ ext, h, hc, by simp [wordBytes], by simp [wordBytes]; omega⟩

theorem cells_length (cells : List Byte) : (cells.flatMap fun c => wordBytes (c.setWidth 32)).length = 4 * cells.length := by
  induction cells with
  | nil => rfl
  | cons c cs ih => simp only [List.flatMap_cons, List.length_append, ih, List.length_cons]; simp [wordBytes]; omega

theorem words_length (ws : List Word) : (ws.flatMap wordBytes).length = 4 * ws.length := by
  induction ws with
  | nil => rfl
  | cons c cs ih => simp only [List.flatMap_cons, List.length_append, ih, List.length_cons]; simp [wordBytes]; omega

theorem packed_length (l : List Byte) : (packedBytes l).length % 4 = 0 := by
  simp [packedBytes, padding]; omega

theorem memory_length (last : Word) (t : Triple) (contents : Option (List Byte)) :
    (memoryBytes last t contents).length % 4 = 0 := by
  cases contents with
  | none => simp [memoryBytes, wordBytes, wiringBytes]
  | some cells =>
    simp only [memoryBytes, List.length_append, cells_length]
    simp [wordBytes, wiringBytes, lengthBytes]

theorem mapper_length (last : Word) (outer inner : Triple) (mem : Handle) :
    (mapperBytes last outer inner mem).length = 12 := by simp [mapperBytes, wordBytes, wiringBytes]

theorem brd (b : Handle) : Statement (.brd b) := of_head rfl rfl
theorem bwc (b : Handle) (v : Word) : Statement (.bwc b v) := of_head rfl rfl
theorem bwm (b : Handle) (v : Word) : Statement (.bwm b v) := of_head rfl rfl
theorem fget (f : Handle) : Statement (.fget f) := of_head rfl rfl
theorem fset (f : Handle) (val : Byte) : Statement (.fset f val) := of_head rfl rfl
theorem tick (c : Handle) : Statement (.tick c) := of_head rfl rfl
theorem tickn (c : Handle) (n : Word) : Statement (.tickn c n) := of_head rfl rfl
theorem mxlt (k : Handle) (a : BitVec 31) : Statement (.mxlt k a) := of_head rfl rfl
theorem mbsel (k : Handle) (bank : Byte) : Statement (.mbsel k bank) := of_head rfl rfl
theorem bnew (b : Handle) (width : Word) : Statement (.bnew b width) := of_head rfl rfl
theorem fnew (f : Handle) (init : Byte) : Statement (.fnew f init) := of_head rfl rfl
theorem cnew (c : Handle) : Statement (.cnew c) := of_head rfl rfl
theorem dnew (c : Handle) (period : Word) : Statement (.dnew c period) := of_head rfl rfl
theorem ramnew (m : Handle) (start : Word) (last : Word) (t : Triple) (contents : Option (List Byte)) :
    Statement (.ramnew m start last t contents) :=
  of_record rfl rfl (memory_length _ _ _)
theorem romnew (m : Handle) (start : Word) (last : Word) (t : Triple) (contents : Option (List Byte)) :
    Statement (.romnew m start last t contents) :=
  of_record rfl rfl (memory_length _ _ _)
theorem mapnewI (k : Handle) (first : Word) (last : Word) (outer : Triple) (inner : Triple) (mem : Handle) :
    Statement (.mapnewI k first last outer inner mem) :=
  of_record rfl rfl (by simp [mapper_length])
theorem mapnewM (k : Handle) (first : Word) (last : Word) (outer : Triple) (inner : Triple) (mem : Handle) (mask : Word) :
    Statement (.mapnewM k first last outer inner mem mask) :=
  of_record (by simp only [encode, List.append_assoc]; rfl) rfl (by simp [mapper_length, wordBytes])
theorem mapnewB (k : Handle) (first : Word) (last : Word) (outer : Triple) (inner : Triple) (mem : Handle) (bases : List Word) :
    Statement (.mapnewB k first last outer inner mem bases) :=
  of_record (by simp only [encode, List.append_assoc]; rfl) rfl
    (by simp only [List.length_append, mapper_length, words_length]; simp [lengthBytes, wordBytes]; omega)
theorem faddl (f : Handle) (l : ListenerRef) : Statement (.faddl f l) := of_head rfl rfl
theorem caddl (c : Handle) (l : ListenerRef) : Statement (.caddl c l) := of_head rfl rfl
theorem cartnew (q : Handle) (mapperId : Byte) (mirroring : Bool) (outer : Triple) (inner : Triple) (mem : Handle) (map : Handle) (prg : List Byte) (chr : List Byte) :
    Statement (.cartnew q mapperId mirroring outer inner mem map prg chr) :=
  of_record (by simp only [encode, List.append_assoc]; rfl) rfl
    (by
      have h1 := packed_length prg
      have h2 := packed_length chr
      simp only [List.length_append]
      simp [wiringBytes, lengthBytes, wordBytes]
      omega)
theorem divOnt (d : Handle) (dw : Delivery) : Statement (.divOnt d dw) := of_head rfl rfl
theorem extOnt (x : Handle) (dw : Delivery) : Statement (.extOnt x dw) := of_head rfl rfl
theorem ramRd (m : Handle) (dw : Delivery) : Statement (.ramRd m dw) := of_head rfl rfl
theorem ramWr (m : Handle) (dw : Delivery) : Statement (.ramWr m dw) := of_head rfl rfl
theorem ramOth (m : Handle) (dw : Delivery) : Statement (.ramOth m dw) := of_head rfl rfl
theorem romRd (m : Handle) (dw : Delivery) : Statement (.romRd m dw) := of_head rfl rfl
theorem romWr (m : Handle) (dw : Delivery) : Statement (.romWr m dw) := of_head rfl rfl
theorem romOth (m : Handle) (dw : Delivery) : Statement (.romOth m dw) := of_head rfl rfl
theorem mapRd (k : Handle) (dw : Delivery) : Statement (.mapRd k dw) := of_head rfl rfl
theorem mapWr (k : Handle) (dw : Delivery) : Statement (.mapWr k dw) := of_head rfl rfl
theorem mapOth (k : Handle) (dw : Delivery) : Statement (.mapOth k dw) := of_head rfl rfl
theorem extOnf (x : Handle) (dw : Delivery) : Statement (.extOnf x dw) := of_head rfl rfl

end Sys2Proof.Laws.EncodingShape
end

