-- ==== Sys2Proof/Tests/Slice0.lean ====
section
/-! SUPPORT. Tests: ill-formed terms the checks refuse, words written out from the spec, small steps with the expected results of
95_test_vectors.md (named in each comment), and a witness for the hypotheses of every obligation that has some. -/

open Sys2Proof Sys2Proof.Machine

namespace Sys2Proof.Tests

/-! ## WellFormed: an ill-formed term for each check -/

theorem test_faddl_of_a_divider_is_ill_formed : (Instr.faddl 0#8 ⟨0x02#8, 1#8⟩).wellFormed = false := by decide
theorem test_caddl_of_a_memory_is_ill_formed : (Instr.caddl 0#8 ⟨0x03#8, 0#8⟩).wellFormed = false := by decide
theorem test_pulse_with_reserved_field_is_ill_formed : (Instr.divOnt 1#8 ⟨1#16, 0#8, 0#8⟩).wellFormed = false := by decide
theorem test_pulse_with_value_is_ill_formed : (Instr.extOnt 1#8 ⟨0#16, 0#8, 1#8⟩).wellFormed = false := by decide
theorem test_flag_delivery_with_reserved_field_is_ill_formed : (Instr.extOnf 0#8 ⟨1#16, 0#8, 0#8⟩).wellFormed = false := by decide
theorem test_read_row_with_write_is_ill_formed : (Instr.ramRd 0#8 ⟨0#16, 0#8, valWrite⟩).wellFormed = false := by decide
theorem test_write_row_with_read_is_ill_formed : (Instr.romWr 0#8 ⟨0#16, 0#8, valRead⟩).wellFormed = false := by decide
theorem test_other_row_with_read_is_ill_formed : (Instr.mapOth 0#8 ⟨0#16, 0#8, valRead⟩).wellFormed = false := by decide
theorem test_other_row_with_write_is_ill_formed : (Instr.mapOth 0#8 ⟨0#16, 0#8, valWrite⟩).wellFormed = false := by decide
theorem test_payload_of_2_to_32_elements_is_ill_formed (cells : List Byte) (h : cells.length = 2 ^ 32) :
    (Instr.romnew 0#8 0#32 1#32 ⟨0#8, 1#8, 0#8⟩ (some cells)).wellFormed = false := by
  simp [Instr.wellFormed, lengthFits, h]
theorem test_bank_table_of_2_to_32_entries_is_ill_formed (bases : List Word) (h : bases.length = 2 ^ 32) :
    (Instr.mapnewB 0#8 0#32 1#32 ⟨0#8, 1#8, 0#8⟩ ⟨2#8, 3#8, 1#8⟩ 0#8 bases).wellFormed = false := by
  simp [Instr.wellFormed, lengthFits, h]
theorem test_chr_array_of_2_to_32_bytes_is_ill_formed (chr : List Byte) (h : chr.length = 2 ^ 32) :
    (Instr.cartnew 0#8 0#8 false ⟨0#8, 1#8, 0#8⟩ ⟨2#8, 3#8, 1#8⟩ 0#8 0#8 [] chr).wellFormed = false := by
  simp [Instr.wellFormed, lengthFits, h]

/-! ## Decoding: a word of every row, written out from R91 to R99 and the listings of 95_test_vectors.md -/

/-- The outer triple of the spec's wirings. -/
def outer : Triple := ⟨0#8, 1#8, 0#8⟩
/-- The inner triple of the spec's wirings. -/
def inner : Triple := ⟨2#8, 3#8, 1#8⟩

theorem test_decode_brd : decode [0x01#8, 0x00#8, 0x00#8, 0x00#8, 0x00#8, 0x00#8] = .ok (.brd 0#8, []) := by decide
theorem test_decode_bwc : decode [0x02#8, 0x01#8, 0x00#8, 0x00#8, 0x00#8, 0x42#8] = .ok (.bwc 1#8 0x42#32, []) := by decide
theorem test_decode_bwm : decode [0x03#8, 0x01#8, 0xFF#8, 0xFF#8, 0xFF#8, 0xFF#8] = .ok (.bwm 1#8 (-1#32), []) := by decide
theorem test_decode_fget : decode [0x08#8, 0x00#8, 0x00#8, 0x00#8, 0x00#8, 0x00#8] = .ok (.fget 0#8, []) := by decide
theorem test_decode_fset : decode [0x09#8, 0x02#8, 0x00#8, 0x00#8, 0x00#8, 0x11#8] = .ok (.fset 2#8 0x11#8, []) := by decide
theorem test_decode_tick : decode [0x10#8, 0x02#8, 0x00#8, 0x00#8, 0x00#8, 0x00#8] = .ok (.tick 2#8, []) := by decide
theorem test_decode_tickn : decode [0x11#8, 0x00#8, 0x00#8, 0x00#8, 0x00#8, 0x0A#8] = .ok (.tickn 0#8 10#32, []) := by decide
theorem test_decode_mxlt : decode [0x18#8, 0x00#8, 0x00#8, 0x00#8, 0x08#8, 0x02#8] = .ok (.mxlt 0#8 0x802#31, []) := by decide
theorem test_decode_mbsel : decode [0x19#8, 0x00#8, 0x00#8, 0x00#8, 0x00#8, 0x02#8] = .ok (.mbsel 0#8 2#8, []) := by decide
theorem test_decode_bnew : decode [0x40#8, 0x00#8, 0xFF#8, 0xFF#8, 0xFF#8, 0xFF#8] = .ok (.bnew 0#8 (-1#32), []) := by decide
theorem test_decode_fnew : decode [0x41#8, 0x02#8, 0x00#8, 0x00#8, 0x00#8, 0x10#8] = .ok (.fnew 2#8 0x10#8, []) := by decide
theorem test_decode_cnew : decode [0x42#8, 0x00#8, 0x00#8, 0x00#8, 0x00#8, 0x00#8] = .ok (.cnew 0#8, []) := by decide
theorem test_decode_dnew : decode [0x43#8, 0x01#8, 0x00#8, 0x00#8, 0x00#8, 0x03#8] = .ok (.dnew 1#8 3#32, []) := by decide
theorem test_decode_ramnew :
    decode [0x44#8, 0x00#8, 0xFF#8, 0xFF#8, 0xFF#8, 0xFF#8, 0x00#8, 0x00#8, 0x00#8, 0x04#8, 0x00#8, 0x01#8, 0x00#8, 0x00#8] =
      .ok (.ramnew 0#8 (-1#32) 4#32 outer none, []) := by decide
theorem test_decode_romnew :
    decode [0x45#8, 0x00#8, 0x00#8, 0x00#8, 0x00#8, 0x00#8, 0x00#8, 0x00#8, 0x00#8, 0x01#8, 0x02#8, 0x03#8, 0x01#8, 0x01#8, 0x00#8, 0x00#8,
      0x00#8, 0x02#8, 0x00#8, 0x00#8, 0x00#8, 0x1F#8, 0x00#8, 0x00#8, 0x00#8, 0x03#8] =
      .ok (.romnew 0#8 0#32 1#32 inner (some [0x1F#8, 3#8]), []) := by decide
theorem test_decode_mapnewI :
    decode [0x46#8, 0x00#8, 0x00#8, 0x00#8, 0x00#8, 0x10#8, 0x00#8, 0x00#8, 0x00#8, 0x10#8, 0x00#8, 0x01#8, 0x00#8, 0x00#8, 0x02#8, 0x03#8,
      0x01#8, 0x04#8] =
      .ok (.mapnewI 0#8 0x10#32 0x10#32 outer inner 4#8, []) := by decide
theorem test_decode_mapnewM :
    decode [0x47#8, 0x00#8, 0x00#8, 0x00#8, 0x00#8, 0x00#8, 0x00#8, 0x00#8, 0x1F#8, 0xFF#8, 0x00#8, 0x01#8, 0x00#8, 0x00#8, 0x02#8, 0x03#8,
      0x01#8, 0x00#8, 0x00#8, 0x00#8, 0x07#8, 0xFF#8] =
      .ok (.mapnewM 0#8 0#32 0x1FFF#32 outer inner 0#8 0x7FF#32, []) := by decide
theorem test_decode_mapnewB :
    decode [0x48#8, 0x00#8, 0x00#8, 0x00#8, 0x80#8, 0x00#8, 0x00#8, 0x00#8, 0xBF#8, 0xFF#8, 0x00#8, 0x01#8, 0x00#8, 0x00#8, 0x02#8, 0x03#8,
      0x01#8, 0x00#8, 0x00#8, 0x00#8, 0x00#8, 0x02#8, 0x00#8, 0x00#8, 0x00#8, 0x00#8, 0x00#8, 0x00#8, 0x40#8, 0x00#8] =
      .ok (.mapnewB 0#8 0x8000#32 0xBFFF#32 outer inner 0#8 [0#32, 0x4000#32], []) := by decide
theorem test_decode_faddl : decode [0x49#8, 0x00#8, 0x00#8, 0x00#8, 0x05#8, 0x01#8] = .ok (.faddl 0#8 ⟨0x05#8, 1#8⟩, []) := by decide
theorem test_decode_caddl : decode [0x4A#8, 0x00#8, 0x00#8, 0x00#8, 0x02#8, 0x01#8] = .ok (.caddl 0#8 ⟨0x02#8, 1#8⟩, []) := by decide
theorem test_decode_cartnew :
    decode [0x4B#8, 0x00#8, 0x00#8, 0x00#8, 0x01#8, 0x00#8, 0x00#8, 0x01#8, 0x00#8, 0x00#8, 0x02#8, 0x03#8, 0x01#8, 0x05#8, 0x06#8, 0x00#8,
      0x00#8, 0x00#8, 0x00#8, 0x00#8, 0x00#8, 0x03#8, 0x00#8, 0x00#8, 0x00#8, 0x01#8, 0xAA#8, 0xBB#8, 0xCC#8, 0x00#8, 0xDD#8, 0x00#8,
      0x00#8, 0x00#8] =
      .ok (.cartnew 0#8 0#8 true outer inner 5#8 6#8 [0xAA#8, 0xBB#8, 0xCC#8] [0xDD#8], []) := by decide
theorem test_decode_divOnt : decode [0x80#8, 0x01#8, 0x00#8, 0x00#8, 0x00#8, 0x00#8] = .ok (.divOnt 1#8 ⟨0#16, 0#8, 0#8⟩, []) := by decide
theorem test_decode_extOnt : decode [0x81#8, 0x00#8, 0x00#8, 0x00#8, 0x02#8, 0x00#8] = .ok (.extOnt 0#8 ⟨0#16, 2#8, 0#8⟩, []) := by decide
theorem test_decode_ramRd : decode [0x88#8, 0x03#8, 0x00#8, 0x00#8, 0x02#8, 0x00#8] = .ok (.ramRd 3#8 ⟨0#16, 2#8, 0#8⟩, []) := by decide
theorem test_decode_ramWr : decode [0x88#8, 0x03#8, 0x00#8, 0x00#8, 0x02#8, 0x01#8] = .ok (.ramWr 3#8 ⟨0#16, 2#8, 1#8⟩, []) := by decide
theorem test_decode_ramOth : decode [0x88#8, 0x03#8, 0x00#8, 0x00#8, 0x02#8, 0x11#8] = .ok (.ramOth 3#8 ⟨0#16, 2#8, 0x11#8⟩, []) := by decide
theorem test_decode_romRd : decode [0x89#8, 0x04#8, 0x00#8, 0x00#8, 0x01#8, 0x00#8] = .ok (.romRd 4#8 ⟨0#16, 1#8, 0#8⟩, []) := by decide
theorem test_decode_romWr : decode [0x89#8, 0x04#8, 0x00#8, 0x00#8, 0x01#8, 0x01#8] = .ok (.romWr 4#8 ⟨0#16, 1#8, 1#8⟩, []) := by decide
theorem test_decode_romOth : decode [0x89#8, 0x04#8, 0x00#8, 0x00#8, 0x01#8, 0x10#8] = .ok (.romOth 4#8 ⟨0#16, 1#8, 0x10#8⟩, []) := by decide
theorem test_decode_mapRd : decode [0x8A#8, 0x05#8, 0x00#8, 0x00#8, 0x00#8, 0x00#8] = .ok (.mapRd 5#8 ⟨0#16, 0#8, 0#8⟩, []) := by decide
theorem test_decode_mapWr : decode [0x8A#8, 0x05#8, 0x00#8, 0x00#8, 0x00#8, 0x01#8] = .ok (.mapWr 5#8 ⟨0#16, 0#8, 1#8⟩, []) := by decide
theorem test_decode_mapOth : decode [0x8A#8, 0x05#8, 0x00#8, 0x00#8, 0x00#8, 0x10#8] = .ok (.mapOth 5#8 ⟨0#16, 0#8, 0x10#8⟩, []) := by decide
theorem test_decode_extOnf : decode [0x8F#8, 0x01#8, 0x00#8, 0x00#8, 0x03#8, 0x11#8] = .ok (.extOnf 1#8 ⟨0#16, 3#8, 0x11#8⟩, []) := by decide

/-- R104: no table has this `op`. -/
theorem test_decode_unassigned : decode [0x20#8, 0#8, 0#8, 0#8, 0#8, 0#8] = .error (.unassignedOp 0x20#8) := by decide
/-- R105: BRD's `imm` must be 0. -/
theorem test_decode_reserved : decode [0x01#8, 0#8, 0#8, 0#8, 0#8, 1#8] = .error (.reservedField 0x01#8) := by decide
/-- R93: a record ends where its last extension word does. -/
theorem test_decode_truncated : decode [0x44#8, 0#8, 0#8, 0#8, 0#8, 0#8, 0#8, 0#8] = .error .truncated := by decide
/-- D1: a contents element wider than a cell is refused. -/
theorem test_decode_wide_element :
    decode [0x45#8, 0#8, 0#8, 0#8, 0#8, 0#8, 0#8, 0#8, 0#8, 1#8, 0#8, 1#8, 0#8, 1#8, 0#8, 0#8, 0#8, 2#8, 0#8, 0#8, 1#8, 0#8,
      0#8, 0#8, 0#8, 0#8] = .error (.reservedField 0x45#8) := by decide
/-- R103: the head is bits 47:0 of the table's number and an extension word the next 32. -/
theorem test_table_word : decodeTableWord 80 0x0000001F440000000010 = some (.ramnew 0#8 0x10#32 0x1F#32 ⟨0#8, 0#8, 0#8⟩ none) := by
  decide

/-! ## Small fabrics -/

/-- The wiring of P2: a mirrored mapper over a 16-byte ROM (two of its cells not 0 here), with clocks and observers beside it. -/
def fabric : State := { State.reset with
  phase := .run
  buses := [(0, ⟨16, 0x802#32⟩), (1, ⟨8, 0xEE#32⟩), (2, ⟨11, 0#32⟩), (3, ⟨8, 0x5A#32⟩)]
  flags := [(0, ⟨0#4, valRead, [.mapper 0#8]⟩), (1, ⟨0#4, valRead, [.memory 0#8]⟩), (2, ⟨1#4, valHalt, [.external 0#8, .external 1#8]⟩)]
  clocks := [(0, ⟨none, [.divider 1#8]⟩), (1, ⟨some ⟨3, 1⟩, [.external 0#8]⟩), (2, ⟨none, [.external 0#8, .external 1#8]⟩)]
  mems := [(0, ⟨.rom, 0, 15, 2#8, 3#8, 1#8, [(2, 0xC2#8), (12, 0x0C#8)]⟩)]
  maps := [(0, ⟨.mirrored 0x7FF#32, 0, 0x1FFF, outer, inner, 0#8⟩)] }

/-- The same while it is still being wired. -/
def wiring : State := { fabric with phase := .wiring }

/-- The same with an inner RAM. -/
def fabricRam : State := { fabric with mems := [(0, ⟨.ram, 0, 15, 2#8, 3#8, 1#8, [(2, 0xC2#8), (12, 0x0C#8)]⟩)] }

/-- The fabric with an address on the outer address bus. -/
def at' (a : Word) (s : State) : State := s.putBus 0#8 ⟨16, a⟩

/-- Two memories on one triple, their ranges overlapping; the data bus of P4, 4 bits wide. -/
def shared : State := { State.reset with
  phase := .run
  buses := [(0, ⟨16, 0x101#32⟩), (1, ⟨4, 5#32⟩)]
  flags := [(0, ⟨0#4, valRead, [.memory 0#8, .memory 1#8]⟩)]
  mems := [(0, ⟨.rom, 0x100, 0x101, 0#8, 1#8, 0#8, [(0, 0x1F#8), (1, 3#8)]⟩), (1, ⟨.ram, 0x101, 0x102, 0#8, 1#8, 0#8, [(1, 9#8)]⟩)] }

/-- A banked mapper over a RAM (P5), 16-bit outer and 15-bit inner address bus. -/
def banked : State := { State.reset with
  phase := .run
  buses := [(0, ⟨16, 0x8005#32⟩), (1, ⟨8, 0xA1#32⟩), (2, ⟨15, 0#32⟩), (3, ⟨8, 0#32⟩)]
  flags := [(0, ⟨0#4, valRead, [.mapper 0#8]⟩), (1, ⟨0#4, valRead, [.memory 0#8]⟩)]
  mems := [(0, ⟨.ram, 0, 0x7FFF, 2#8, 3#8, 1#8, []⟩)]
  maps := [(0, ⟨.banked [0#32, 0x4000#32] 0#8, 0x8000, 0xBFFF, outer, inner, 0#8⟩)] }

/-- M11: two CTL flags, a RAM behind a mapper of kind I. -/
def control : State := { State.reset with
  phase := .run
  buses := [(0, ⟨16, 0x34#32⟩), (1, ⟨8, 0x77#32⟩), (2, ⟨16, 0#32⟩), (3, ⟨8, 0#32⟩)]
  flags := [(0, ⟨1#4, valHalt, [.mapper 0#8]⟩), (1, ⟨1#4, valHalt, [.memory 0#8]⟩)]
  mems := [(0, ⟨.ram, 0, 0xFF, 2#8, 3#8, 1#8, []⟩)]
  maps := [(0, ⟨.identity, 0, 0xFF, outer, inner, 0#8⟩)] }

/-- M8: a 4-bit inner address bus. -/
def narrow : State := { control with
  buses := [(0, ⟨16, 0x12#32⟩), (1, ⟨8, 0xEE#32⟩), (2, ⟨4, 0#32⟩), (3, ⟨8, 0#32⟩)]
  flags := [(0, ⟨0#4, valRead, [.mapper 0#8]⟩), (1, ⟨0#4, valRead, [.memory 0#8]⟩)]
  mems := [(0, ⟨.rom, 0, 15, 2#8, 3#8, 1#8, [(12, 0x0C#8)]⟩)] }

/-- M9: a 4-bit outer data bus. -/
def wideInner : State := { narrow with
  buses := [(0, ⟨16, 0#32⟩), (1, ⟨4, 9#32⟩), (2, ⟨8, 0#32⟩), (3, ⟨8, 0#32⟩)]
  flags := [(0, ⟨0#4, valRead, [.mapper 0#8]⟩), (1, ⟨0#4, valWrite, [.memory 0#8]⟩)]
  mems := [(0, ⟨.rom, 0, 1, 2#8, 3#8, 1#8, [(0, 0x1F#8), (1, 3#8)]⟩)] }

/-- M10: a 4-bit inner data bus. -/
def narrowInner : State := { wideInner with
  buses := [(0, ⟨16, 1#32⟩), (1, ⟨8, 0x99#32⟩), (2, ⟨8, 0#32⟩), (3, ⟨4, 0#32⟩)]
  flags := [(0, ⟨0#4, valRead, [.mapper 0#8]⟩), (1, ⟨0#4, valRead, [.memory 0#8]⟩)] }

/-- Buses and flags only, in the wiring phase (W16 and an inner triple). -/
def bare : State := { State.reset with
  buses := [(0, ⟨16, 0#32⟩), (1, ⟨8, 0#32⟩), (2, ⟨15, 0#32⟩), (3, ⟨8, 0#32⟩)]
  flags := [(0, ⟨0#4, valRead, []⟩), (1, ⟨0#4, valRead, []⟩)] }

/-- The fabric whose external listener 0 has the given behaviour. -/
def reacting (rs : List Rule) : State := { fabric with behaviours := [(0, .rules rs)] }

/-- Whatever the event, fail with error 7. -/
def fails : Rule := ⟨.lit 1, [], some (.lit 7), []⟩

/-- On START, set the CTL flag to HALT. -/
def haltsOnStart : Rule := ⟨.op .eq .value (.lit 0x11), [⟨.fset (.lit 2) (.lit 0x10), .never⟩], none, []⟩

/-- Whatever the event, TICK clock 2 and handle any error. -/
def ticks : Rule := ⟨.lit 1, [⟨.tick (.lit 2), .always⟩], none, []⟩

/-- Write 256 to bus 1 and then 255; the first error is handled or not. -/
def writesTwice (h : ErrorTest) : Rule :=
  ⟨.lit 1, [⟨.bwc (.lit 1) (.lit 256), h⟩, ⟨.bwc (.lit 1) (.lit 255), .never⟩], none, []⟩

/-- Whatever the event, set the CTL flag to START. -/
def starts (h : ErrorTest) : Rule := ⟨.lit 1, [⟨.fset (.lit 2) (.lit 0x11), h⟩], none, []⟩

/-- Listener 1, on the CTL flag, fails with 7; listener 5, on no flag, sets the CTL flag and handles these errors. -/
def startsAFailing (h : ErrorTest) : State := { fabric with behaviours := [(1, .rules [fails]), (5, .rules [starts h])] }

/-- R179: on each pulse, LOAD from the address in the private state, which then counts on. -/
def fetcher : Rule :=
  ⟨.isPulse, [⟨.bwc (.lit 0) (.own 0), .never⟩, ⟨.fset (.lit 0) (.lit 0), .never⟩, ⟨.brd (.lit 1), .never⟩], none,
    [.op .add (.own 0) (.lit 1)]⟩

/-- Copy bus 3 to bus 1 on START. -/
def copies : Rule := ⟨.op .eq .value (.lit valStart.toNat), [⟨.bwc (.lit (1#8 : Handle).toNat) (.bus 3#8), .never⟩], none, [.own 0]⟩

/-- What a test looks at in the state a step leaves. -/
def after {α : Type} (o : Host.Outcome State Fault Refusal) (look : State → α) : Option α :=
  match o with
  | .next s => some (look s)
  | .fault _ => none
  | .refused _ => none

/-- The refusal of a step. -/
def refusal (o : Host.Outcome State Fault Refusal) : Option Refusal :=
  match o with
  | .next _ => none
  | .fault _ => none
  | .refused w => some w

/-! ## Steps, with the results the spec's vectors give -/

/-- B1. -/
theorem test_bnew_width_0 : after (exec (.bnew 9#8 0#32) wiring) (fun s => (s.report, s.bus? 9#8)) = some (some (.err (.invalidBusWidth 0)), none) := by decide
/-- B1. -/
theorem test_bnew_width_31 : after (exec (.bnew 9#8 31#32) wiring) (fun s => s.bus? 9#8) = some (some ⟨31, 0#32⟩) := by decide
/-- B3: a 16-bit bus refuses -1. -/
theorem test_bwc_all_ones : after (exec (.bwc 0#8 (-1#32)) fabric) (fun s => (s.report, s.bus? 0#8)) =
    some (some (.err (.invalidBusData 0#8 0xFFFFFFFF#32)), some ⟨16, 0x802#32⟩) := by decide
/-- B2: a 4-bit bus. -/
theorem test_bwm_all_ones : after (exec (.bwm 1#8 (-1#32)) shared) (fun s => (s.report, s.bus? 1#8)) =
    some (some (.ok (some 0#32)), some ⟨4, 0xF#32⟩) := by decide
/-- G3. -/
theorem test_fset_undefined_code : refusal (exec (.fset 0#8 2#8) fabric) = some (.flagValue 0#8 2#8) := by decide
/-- G3. -/
theorem test_fset_other_set : refusal (exec (.fset 0#8 valHalt) fabric) = some (.flagValue 0#8 valHalt) := by decide
/-- G4: the value does not change and both observers are told, in order. -/
theorem test_fset_same_value : after (exec (.fset 2#8 valHalt) fabric) (fun s => ((s.ext 0#8).seen, (s.ext 1#8).seen)) =
    some ([.onFlagChange valHalt 2#8], [.onFlagChange valHalt 2#8]) := by decide
/-- G5. -/
theorem test_fset_fail_fast : after (exec (.fset 2#8 valStart) (reacting [fails])) (fun s => (s.report, (s.flag? 2#8).map (·.value), (s.ext 1#8).seen)) =
    some (some (.err (.signalPropagation (.ofListener 0#8 7))), some valStart, []) := by decide
/-- G6, on the CTL flag. -/
theorem test_fset_reentrant : after (exec (.fset 2#8 valStart) (reacting [haltsOnStart]))
    (fun s => ((s.ext 0#8).seen, (s.ext 1#8).seen, (s.flag? 2#8).map (·.value))) =
    some ([.onFlagChange valStart 2#8, .onFlagChange valHalt 2#8], [.onFlagChange valHalt 2#8, .onFlagChange valStart 2#8], some valHalt) := by decide
/-- R179's example: two pulses, the second LOAD finds address 3, whose cell is 0. -/
theorem test_listener_fetches : after (exec (.tickn 2#8 2#32) { reacting [fetcher] with exts := [(0, ⟨[2], []⟩)] })
    (fun s => (s.report, s.bus? 0#8, s.bus? 1#8, (s.ext 0#8).own)) =
    some (some (.ok none), some ⟨16, 3#32⟩, some ⟨8, 0#32⟩, [4]) := by decide
/-- R161: the same event finds another fabric state, and the listener writes another value. -/
theorem test_listener_reads_the_bus : (after (exec (.fset 2#8 valStart) (reacting [copies])) (fun s => s.bus? 1#8),
    after (exec (.fset 2#8 valStart) ((reacting [copies]).putBus 3#8 ⟨8, 7#32⟩)) (fun s => s.bus? 1#8)) =
    (some (some ⟨8, 0x5A#32⟩), some (some ⟨8, 7#32⟩)) := by decide
/-- R9, R298: the error of listener 1 (7, wrapped) is handled by a listener that handles 7 and no other, not by one that handles 8. -/
theorem test_listener_handles_one_error :
    (after (exec (.extOnf 5#8 ⟨0#16, 9#8, 0#8⟩) (startsAFailing (.cause (.ofListener 1#8 7)))) (·.report),
      after (exec (.extOnf 5#8 ⟨0#16, 9#8, 0#8⟩) (startsAFailing (.cause (.ofListener 1#8 8)))) (·.report)) =
    (some (some (.ok none)), some (some (.err (.signalPropagation (.ofListener 1#8 7))))) := by decide
/-- K2, from counter 1. -/
theorem test_tickn_ten : after (exec (.tickn 0#8 10#32) fabric) (fun s => ((s.clock? 1#8).bind (·.divider), (s.ext 0#8).seen)) =
    some (some ⟨3, 2⟩, [.onTick 1#8, .onTick 1#8, .onTick 1#8]) := by decide
/-- K3. -/
theorem test_tickn_minus_one : after (exec (.tickn 0#8 (-1#32)) fabric) (fun s => (s.report, s.clocks)) = some (some (.ok none), fabric.clocks) := by decide
/-- K8: five pulses, counter 1 of 3 before the first; the second fires and fails. -/
theorem test_tickn_failure : after (exec (.tickn 0#8 5#32) (reacting [fails])) (fun s => (s.report, (s.clock? 1#8).bind (·.divider), (s.ext 0#8).seen)) =
    some (some (.err (.signalPropagation (.signalPropagation (.ofListener 0#8 7)))), some ⟨3, 0⟩, [.onTick 1#8]) := by decide
/-- R182: the counter of a divider ticked directly stays. -/
theorem test_tick_of_a_divider : after (exec (.tick 1#8) fabric) (fun s => ((s.clock? 1#8).bind (·.divider), (s.ext 0#8).seen)) = some (some ⟨3, 1⟩, [.onTick 1#8]) := by decide
/-- K5. -/
theorem test_dnew_minus_four : refusal (exec (.dnew 9#8 (-4#32)) wiring) = some .badPeriod := by decide
/-- K10. -/
theorem test_caddl_itself : refusal (exec (.caddl 1#8 ⟨0x02#8, 1#8⟩) wiring) = some .dividerCycle := by decide
/-- K10. -/
theorem test_caddl_twice : refusal (exec (.caddl 0#8 ⟨0x02#8, 1#8⟩) wiring) = some .listenerListed := by decide
/-- G7. -/
theorem test_faddl_twice : refusal (exec (.faddl 2#8 ⟨0x05#8, 0#8⟩) wiring) = some .listenerListed := by decide
/-- D1. -/
theorem test_ramnew_equal_bounds : after (exec (.ramnew 5#8 5#32 5#32 outer none) bare) (fun s => (s.report, s.mem? 5#8)) =
    some (some (.err (.invalidAddressRange 5 5)), none) := by decide
/-- D1. -/
theorem test_romnew_range_before_size : after (exec (.romnew 5#8 3#32 3#32 outer (some [1#8])) bare) (·.report) = some (some (.err (.invalidAddressRange 3 3))) := by decide
/-- D1, a range of two. -/
theorem test_romnew_one_short : after (exec (.romnew 5#8 0#32 1#32 outer (some [1#8])) bare) (·.report) = some (some (.err (.sizeMismatch [2] 1))) := by decide
/-- D1. -/
theorem test_ramnew_two_cells : after (exec (.ramnew 5#8 0#32 1#32 outer none) bare) (fun s => (s.cell? 5#8 0, s.cell? 5#8 1, (s.flag? 0#8).map (·.listeners))) =
    some (some 0#8, some 0#8, some [.memory 5#8]) := by decide
/-- P4 step 4: the 5-bit cell does not fit the 4-bit bus. -/
theorem test_rom_wider_than_bus : after (exec (.fset 0#8 valRead) (at' 0x100#32 shared)) (fun s => (s.report, s.bus? 1#8)) =
    some (some (.err (.signalPropagation (.invalidBusData 1#8 0x1F#32))), some ⟨4, 5#32⟩) := by decide
/-- R74: at 0x101 the ROM says 3 and the RAM, registered last, 0. -/
theorem test_last_listener_wins : after (exec (.fset 0#8 valRead) shared) (fun s => s.bus? 1#8) = some (some ⟨4, 0#32⟩) := by decide
/-- R197, R200: at 0x101 the RAM takes 5 and the ROM ignores it. -/
theorem test_ram_takes_the_write : after (exec (.fset 0#8 valWrite) shared) (fun s => (s.cell? 0#8 1, s.cell? 1#8 0)) = some (some 3#8, some 5#8) := by decide
/-- S8, with 0xC2 in cell 2. -/
theorem test_mirrored_read : after (exec (.fset 0#8 valRead) fabric) (fun s => (s.bus? 2#8, s.bus? 3#8, s.bus? 1#8)) =
    some (some ⟨11, 2#32⟩, some ⟨8, 0xC2#32⟩, some ⟨8, 0xC2#32⟩) := by decide
/-- S8: 0x4003 is outside the range. -/
theorem test_outside_the_mapper : after (exec (.fset 0#8 valRead) (at' 0x4003#32 fabric)) (·.buses) = some (at' 0x4003#32 fabric).buses := by decide
/-- M3: the stale inner data bus reaches the outer one. -/
theorem test_inner_miss : after (exec (.fset 0#8 valRead) (at' 0x10#32 fabric)) (fun s => (s.bus? 2#8, s.bus? 1#8)) = some (some ⟨11, 0x10#32⟩, some ⟨8, 0x5A#32⟩) := by decide
/-- M8. -/
theorem test_relayed_address_too_wide : after (exec (.fset 0#8 valRead) narrow) (fun s => (s.report, s.bus? 2#8, s.bus? 1#8)) =
    some (some (.err (.signalPropagation (.signalPropagation (.invalidBusData 2#8 0x12#32)))), some ⟨4, 0#32⟩, some ⟨8, 0xEE#32⟩) := by decide
/-- M11. -/
theorem test_other_class_moves_no_data : after (exec (.fset 0#8 valStart) control) (fun s => (s.bus? 2#8, (s.flag? 1#8).map (·.value), s.bus? 3#8, s.cell? 0#8 0x34)) =
    some (some ⟨16, 0x34#32⟩, some valStart, some ⟨8, 0#32⟩, some 0#8) := by decide
/-- M9. -/
theorem test_read_back_too_wide : after (exec (.fset 0#8 valRead) wideInner) (fun s => (s.report, s.bus? 1#8, s.bus? 3#8, (s.flag? 1#8).map (·.value))) =
    some (some (.err (.signalPropagation (.signalPropagation (.invalidBusData 1#8 0x1F#32)))), some ⟨4, 9#32⟩, some ⟨8, 0x1F#32⟩, some valRead) := by decide
/-- M10, first part: the mapper adds no wrapper. -/
theorem test_inner_rom_too_wide : after (exec (.fset 0#8 valRead) (at' 0#32 narrowInner)) (fun s => (s.report, s.bus? 3#8, s.bus? 1#8)) =
    some (some (.err (.signalPropagation (.signalPropagation (.invalidBusData 3#8 0x1F#32)))), some ⟨4, 0#32⟩, some ⟨8, 0x99#32⟩) := by decide
/-- M10, second part. -/
theorem test_data_in_too_wide : after (exec (.fset 0#8 valWrite) narrowInner) (fun s => (s.report, s.bus? 2#8, s.bus? 3#8, (s.flag? 1#8).map (·.value))) =
    some (some (.err (.signalPropagation (.signalPropagation (.invalidBusData 3#8 0x99#32)))), some ⟨8, 1#32⟩, some ⟨4, 0#32⟩, some valRead) := by decide
/-- R99: a platform's value of READ-type class at the .OTH row reads. -/
theorem test_platform_read_value : after (exec (.ramOth 1#8 ⟨0#16, 0#8, 0x20#8⟩) { shared with platform := [(0x20#8, .read)] }) (fun s => s.bus? 1#8) =
    some (some ⟨4, 0#32⟩) := by decide
/-- P5: bank 1. -/
theorem test_banked_write : after (exec (.mbsel 0#8 1#8) banked) (fun s => after (exec (.fset 0#8 valWrite) s) (fun t => t.cell? 0#8 0x4005)) = some (some (some 0xA1#8)) := by decide
/-- P5. -/
theorem test_mxlt_bank : after (exec (.mxlt 0#8 0xBFFF#31) banked) (·.report) = some (some (.ok (some 0x3FFF#32))) := by decide
/-- M1. -/
theorem test_mxlt_outside : after (exec (.mxlt 0#8 0x2000#31) fabric) (·.report) = some (some (.ok (some 0x2000#32))) := by decide
/-- M6. -/
theorem test_mbsel_past_the_table : refusal (exec (.mbsel 0#8 2#8) banked) = some .bankIndex := by decide
/-- Q1. -/
theorem test_cartnew_other_mapper : after (exec (.cartnew 0#8 1#8 true outer inner 0#8 0#8 [] []) bare) (fun s => (s.report, s.carts, s.mems)) =
    some (some (.err (.unsupportedMapper 1#8)), [], []) := by decide
/-- Q2. -/
theorem test_cartnew_no_prg : after (exec (.cartnew 0#8 0#8 true outer inner 0#8 0#8 [] []) bare) (·.report) =
    some (some (.err (.sizeMismatch [16384, 32768] 0))) := by decide
/-- S13. -/
theorem test_ines_mapper_number : (inesMapperId 0x42#8 0x10#8, inesMapperId 0xF5#8 0xF0#8) = (0x14#8, 255#8) := by decide
/-- R309. -/
theorem test_step_idle : after (step fabric) id = some fabric := by decide
/-- R305: a command word placed for the next step begins the run phase. -/
theorem test_fetch_word : after (step (bare.withFetchWord 48 0x010000000000)) (fun s => (s.phase, s.report)) = some (.run, some (.ok (some 0#32))) := by decide

/-! ## Witnesses: concrete states and operands that meet the hypotheses of an obligation -/

/-- The value the next operation finds on the driver's bytes, and nothing at the delivery port. -/
def issuing (bs : List Byte) (s : State) : State := { s with driver := bs }

theorem witness_DecodeOfEncodeIsTheOperation :
    (Instr.romnew 0#8 0#32 1#32 inner (some [0x1F#8, 3#8])).wellFormed = true ∧ (Instr.caddl 0#8 ⟨2#8, 1#8⟩).wellFormed = true ∧
    (Instr.mapOth 5#8 ⟨0#16, 0#8, 2#8⟩).wellFormed = true := by decide

theorem witness_BytesThatDecodeAreTheEncoding :
    decode [0x41#8, 2#8, 0#8, 0#8, 0#8, 0x10#8, 7#8] = .ok (.fnew 2#8 0x10#8, [7#8]) := by decide

theorem witness_StepRunsTheDecodedOperation :
    ((issuing [1#8, 0#8, 0#8, 0#8, 0#8, 0#8, 9#8] bare).delivery = none ∧
      decode (issuing [1#8, 0#8, 0#8, 0#8, 0#8, 0#8, 9#8] bare).driver = .ok (.brd 0#8, [9#8]) ∧ (Instr.brd 0#8).isReaction = false) ∧
    ({ bare with delivery := some 0x8F0100000311#48 }.delivery = some 0x8F0100000311#48 ∧
      word48Bytes 0x8F0100000311#48 = encode (.extOnf 1#8 ⟨0#16, 3#8, 0x11#8⟩) ∧
      (Instr.extOnf 1#8 ⟨0#16, 3#8, 0x11#8⟩).wellFormed = true ∧ (Instr.extOnf 1#8 ⟨0#16, 3#8, 0x11#8⟩).isReaction = true) ∧
    bare.delivery = none ∧ bare.driver = [] := by decide

/-- The ops on both sides of each end of the tables of R92 and R94. -/
theorem witness_UnacceptableOpsAreRefused :
    (∀ op ∈ [0x00#8, 0x04#8, 0x3F#8, 0x4C#8, 0x80#8, 0x8F#8, 0xFF#8],
      op ∉ [0x01#8, 0x02#8, 0x03#8, 0x08#8, 0x09#8, 0x10#8, 0x11#8, 0x18#8, 0x19#8, 0x40#8, 0x41#8, 0x42#8, 0x43#8, 0x44#8, 0x45#8,
        0x46#8, 0x47#8, 0x48#8, 0x49#8, 0x4A#8, 0x4B#8] ∧
      (issuing [op, 0#8, 0#8, 0#8, 0#8, 0#8] bare).driver = op :: 0#8 :: 0#8 :: 0#8 :: 0#8 :: 0#8 :: []) ∧
    (∀ op ∈ [0x40#8, 0x4B#8], 0x40#8 ≤ op ∧ op ≤ 0x4B#8) ∧ fabric.phase = .run ∧ fabric.delivery = none := by decide

/-- Widths 0 and 32 on one side, 1 and 31 on the other. -/
theorem witness_BnewMakesTheBusOrRaises :
    wiring.phase = .wiring ∧ wiring.bus? 9#8 = none ∧ ((0#32).toInt < 1 ∧ 31 < (32#32).toInt) ∧
    (1 ≤ (1#32).toInt ∧ (1#32).toInt ≤ 31) ∧ 1 ≤ (31#32).toInt ∧ (31#32).toInt ≤ 31 := by decide

theorem witness_BrdAndFgetReadWithoutChange :
    fabric.bus? 1#8 = some ⟨8, 0xEE#32⟩ ∧ fabric.flag? 0#8 = some ⟨0#4, valRead, [.mapper 0#8]⟩ := by decide

/-- 255 fits an 8-bit bus, 256 does not. -/
theorem witness_BwcStoresWhatFitsOrRaises :
    fabric.bus? 1#8 = some ⟨8, 0xEE#32⟩ ∧ 8 ≤ 31 ∧ (255#32).toNat < 2 ^ 8 ∧ 2 ^ 8 ≤ (256#32).toNat := by decide

theorem witness_BwmStoresLowBitsAndReportsFit : fabric.bus? 1#8 = some ⟨8, 0xEE#32⟩ ∧ (8 : Nat) ≤ 31 := by decide

theorem witness_EveryStepKeepsBusValuesMasked :
    fabric.busesFit ∧ after (step (issuing (encode (.bwm 1#8 (-1#32))) fabric)) (·.busesFit) = some True := by
  refine ⟨by decide, congrArg some (eq_true ?_)⟩
  decide

theorem witness_FnewMakesTheFlag :
    bare.phase = .wiring ∧ bare.definesValue valStart = true ∧ bare.flag? 9#8 = none ∧ bare.definesValue 2#8 = false := by decide

theorem witness_FaddlAppendsAnExternalListener :
    wiring.flag? 2#8 = some ⟨1#4, valHalt, [.external 0#8, .external 1#8]⟩ ∧ wiring.phase = .wiring ∧
    Listener.external 2#8 ∉ [Listener.external 0#8, .external 1#8] ∧ Listener.external 1#8 ∈ [Listener.external 0#8, .external 1#8] ∧
    (4#8 ≠ 0x05#8 ∧ 6#8 ≠ 0x05#8) ∧ fabric.flag? 2#8 = some ⟨1#4, valHalt, [.external 0#8, .external 1#8]⟩ ∧ fabric.phase = .run := by
  decide

/-- No listener of the fabric has a behaviour listed: all observe. -/
theorem fabric_observes (x : Handle) : fabric.observes x := onlyObserves_nil

theorem witness_FsetDeliversOnceWhetherOrNotTheValueChanges :
    (fabric.flag? 2#8 = some ⟨1#4, valHalt, [.external 0#8, .external 1#8]⟩ ∧ fabric.memberOf 1#4 valHalt = true ∧
    [Listener.external 0#8, .external 1#8] = [0#8, 1#8].map .external ∧ 1 ≤ fabric.fuel) ∧ ∀ x ∈ [0#8, 1#8], fabric.observes x :=
  ⟨by decide, fun x _ => fabric_observes x⟩

/-- The first listener observes, the second fails with an error of its own. -/
def failing : State := { fabric with behaviours := [(1, .rules [fails])] }

theorem witness_FsetStopsAtTheFirstFailingListener :
    failing.flag? 2#8 = some ⟨1#4, valHalt, [.external 0#8] ++ .external 1#8 :: []⟩ ∧ failing.memberOf 1#4 valStart = true ∧
    ∃ s1 s2,
      deliverAll (perform failing.fuel) (flagReaction 2#8 valStart) (fun i => .flag 2#8 i valStart) failing.stack 0 [.external 0#8]
        (failing.enterRun.putFlag 2#8 ⟨1#4, valStart, [.external 0#8] ++ .external 1#8 :: []⟩) = .ok s1 none ∧
      flagReaction 2#8 valStart s1 (.external 1#8) = .ok (.extOnf 1#8 ⟨0#16, 2#8, valStart⟩) ∧
      perform failing.fuel (.extOnf 1#8 ⟨0#16, 2#8, valStart⟩) (s1.withStack (.flag 2#8 1 valStart :: failing.stack)) =
        .err s2 (.ofListener 1#8 7) := by
  refine ⟨by decide, by decide, ?_⟩
  exact ⟨_, _, rfl, rfl, rfl⟩

theorem witness_ReentrantFsetIsDepthFirst :
    let s := reacting [haltsOnStart]
    let s1 := s.enterRun.putFlag 2#8 ⟨1#4, valStart, [.external 0#8, .external 1#8]⟩
    let s2 := (s1.putExt 0#8 ⟨[], [.onFlagChange valStart 2#8]⟩).putFlag 2#8 ⟨1#4, valHalt, [.external 0#8, .external 1#8]⟩
    (s.flag? 2#8 = some ⟨1#4, valHalt, [.external 0#8, .external 1#8]⟩ ∧ s.memberOf 1#4 valStart = true ∧
    s.memberOf 1#4 valHalt = true ∧ (0#8 : Handle) ≠ 1#8 ∧ 3 ≤ s.fuel) ∧
    s1.reaction 0#8 (.onFlagChange valStart 2#8) = ⟨[⟨.fset 2#8 valHalt, ErrorTest.never.holds⟩], none, []⟩ ∧
    s2.reaction 0#8 (.onFlagChange valHalt 2#8) = ⟨[], none, []⟩ ∧ s.observes 1#8 :=
  ⟨by decide, rfl, rfl, onlyObserves_nil⟩

theorem witness_FsetOverMemoriesCompletes :
    shared.wellWired ∧ shared.flag? 0#8 = some ⟨0#4, valRead, [.memory 0#8, .memory 1#8]⟩ ∧ shared.memberOf 0#4 valRead = true ∧
    shared.memberOf 0#4 valWrite = true ∧ 1 ≤ shared.fuel ∧ shared.classOf valWrite = some .write ∧
    shared.mem? 1#8 = some ⟨.ram, 0x101, 0x102, 0#8, 1#8, 0#8, [(1, 9#8)]⟩ ∧ shared.bus? 0#8 = some ⟨16, 0x101#32⟩ ∧
    shared.bus? 1#8 = some ⟨4, 5#32⟩ := by decide

theorem witness_FsetOverMemoriesCompletes_listeners :
    ∀ l ∈ [Listener.memory 0#8, .memory 1#8], ∃ m, l = .memory m := by simp

/-- Handles 9 and 255 name nothing; widths 1 and 31; a data bus of 9 bits; ranges of two cells and of 2^31. -/
theorem witness_OperandsOutsideTheFabricAreRefused :
    (fabric.bus? 9#8 = none ∧ fabric.flag? 9#8 = none ∧ fabric.clock? 255#8 = none ∧ fabric.map? 255#8 = none) ∧
    (fabric.flag? 0#8 = some ⟨0#4, valRead, [.mapper 0#8]⟩ ∧ fabric.memberOf 0#4 2#8 = false ∧ fabric.memberOf 0#4 valHalt = false) ∧
    (wiring.phase = .wiring ∧ wiring.bus? 1#8 = some ⟨8, 0xEE#32⟩ ∧ (1 ≤ (1#32).toInt ∧ (31#32).toInt ≤ 31) ∧
      wiring.flag? 0#8 = some ⟨0#4, valRead, [.mapper 0#8]⟩ ∧ wiring.definesValue valRead = true ∧
      wiring.clock? 0#8 = some ⟨none, [.divider 1#8]⟩) ∧
    (0 ≤ (0#32).toInt ∧ (0#32).toInt < (1#32).toInt ∧ (1#32).toInt - (0#32).toInt + 1 < 2 ^ 31 ∧
      2 ^ 31 ≤ (0x7FFFFFFF#32).toInt - (0#32).toInt + 1 ∧
      wiring.mem? 0#8 = some ⟨.rom, 0, 15, 2#8, 3#8, 1#8, [(2, 0xC2#8), (12, 0x0C#8)]⟩ ∧
      (bare.putBus 1#8 ⟨9, 0#32⟩).phase = .wiring ∧ (bare.putBus 1#8 ⟨9, 0#32⟩).mem? 5#8 = none ∧
      (bare.putBus 1#8 ⟨9, 0#32⟩).hasTriple outer = true ∧ (bare.putBus 1#8 ⟨9, 0#32⟩).bus? 1#8 = some ⟨9, 0#32⟩ ∧ 8 < 9) := by decide

/-- The least mask and base refused; mapper 0 in use, 9 not; outer triple for both; memory 9 absent, memory 0 on the inner triple; both PRG
sizes' CARTNEW with memory 0 in use, and with cartridge 0. -/
theorem witness_OperandsOutsideTheFabricAreRefused_mappers :
    (2 ^ 31 ≤ (0x80000000#32).toNat ∧ (0x7FFFFFFF#32).toNat < 2 ^ 31 ∧
      wiring.map? 0#8 = some ⟨.mirrored 0x7FF#32, 0, 0x1FFF, outer, inner, 0#8⟩ ∧ wiring.map? 9#8 = none ∧
      wiring.hasTriple outer = true ∧ wiring.hasTriple inner = true ∧ outer.flag ≠ inner.flag ∧ wiring.mem? 9#8 = none ∧
      wiring.mem? 0#8 = some ⟨.rom, 0, 15, 2#8, 3#8, 1#8, [(2, 0xC2#8), (12, 0x0C#8)]⟩ ∧
      ¬((2#8 : Handle) = outer.abus ∧ (3#8 : Handle) = outer.dbus ∧ (1#8 : Handle) = outer.flag) ∧ wiring.cart? 0#8 = none ∧
      (wiring.putCart 0#8 ⟨[], [], true, 0#8⟩).cart? 0#8 = some ⟨[], [], true, 0#8⟩) ∧
    (∃ prg : List Byte, prg.length = 16384) ∧ ∃ prg : List Byte, prg.length = 32768 :=
  ⟨by decide, ⟨_, List.length_replicate (n := 16384) (a := 0x42#8)⟩, ⟨_, List.length_replicate (n := 32768) (a := 0x42#8)⟩⟩

theorem witness_EveryStepKeepsFlagsInTheirSets :
    fabric.flagsInSet ∧ (after (step (issuing (encode (.fset 2#8 valStart)) fabric)) (·.flags)).isSome = true := by decide

theorem witness_ObserversChangeNothingElse :
    fabric.reaction 0#8 (.onFlagChange valHalt 2#8) = ⟨[], none, []⟩ ∧ fabric.reaction 0#8 (.onTick 2#8) = ⟨[], none, []⟩ ∧
    (⟨0#16, 2#8, valHalt⟩ : Delivery).zero = 0#16 ∧ (⟨0#16, 2#8, 0#8⟩ : Delivery).val = 0#8 := ⟨rfl, rfl, rfl, rfl⟩

/-- 256 does not fit the 8-bit bus, 255 does; the error handled and not; a value the copying listener reacts to and one it does not. -/
theorem witness_ListenerFailsWithItsFirstUnhandledError :
    (fabric.bus? 1#8 = some ⟨8, 0xEE#32⟩ ∧ (8 : Nat) ≤ 31 ∧ 2 ^ 8 ≤ (256#32).toNat ∧ (255#32).toNat < 2 ^ 8 ∧ 1 ≤ fabric.fuel) ∧
    (∀ h, (reacting [writesTwice h]).reaction 0#8 (.onFlagChange valStart 2#8) =
        ⟨[⟨.bwc 1#8 256#32, h.holds⟩, ⟨.bwc 1#8 255#32, ErrorTest.never.holds⟩], none, []⟩) ∧
    ((reacting [copies]).bus? 3#8 = some ⟨8, 0x5A#32⟩ ∧ (reacting [copies]).bus? 1#8 = some ⟨8, 0xEE#32⟩ ∧
      (0x5A#32).toNat < 2 ^ 8 ∧ (reacting [copies]).behaviour 0#8 = .rules [⟨.op .eq .value (.lit valStart.toNat),
        [⟨.bwc (.lit (1#8 : Handle).toNat) (.bus 3#8), .never⟩], none, [.own 0]⟩] ∧ valHalt ≠ valStart) :=
  ⟨by decide, fun _ => rfl, by decide⟩

/-- A command that fails with an error two dispatches deep, handled and not. -/
theorem witness_ListenerFailsWithItsFirstUnhandledError_choice :
    ∀ h, (startsAFailing h).reaction 5#8 (.onFlagChange 0#8 9#8) = ⟨[⟨.fset 2#8 valStart, h.holds⟩], none, []⟩ ∧
      (Instr.fset 2#8 valStart).isCommand = true ∧
      ∃ s', perform (startsAFailing h).fuel (.fset 2#8 valStart)
        ((startsAFailing h).putExt 5#8 ⟨[], ((startsAFailing h).ext 5#8).seen ++ [.onFlagChange 0#8 9#8]⟩) =
          .err s' (.signalPropagation (.ofListener 1#8 7)) :=
  fun _ => ⟨rfl, rfl, _, rfl⟩

/-- Periods 1 and 0. -/
theorem witness_CnewAndDnewMakeTheClock :
    wiring.phase = .wiring ∧ wiring.clock? 9#8 = none ∧ 1 ≤ (1#32).toInt ∧ (0#32).toInt < 1 := by decide

/-- A listener kind on each side of the two allowed. -/
theorem witness_CaddlAppendsUnlessACycleArises :
    wiring.phase = .wiring ∧ wiring.clock? 0#8 = some ⟨none, [.divider 1#8]⟩ ∧ Listener.external 7#8 ∉ [Listener.divider 1#8] ∧
    wiring.clock? 2#8 = some ⟨none, [.external 0#8, .external 1#8]⟩ ∧
    Listener.external 0#8 ∈ [Listener.external 0#8, .external 1#8] ∧ wiring.clock? 1#8 = some ⟨some ⟨3, 1⟩, [.external 0#8]⟩ ∧
    Listener.divider 1#8 ∉ [Listener.external 0#8, .external 1#8] ∧ Listener.divider 1#8 ∈ [Listener.divider 1#8] ∧
    (∀ k ∈ [1#8, 3#8, 4#8, 6#8], k ≠ 0x02#8 ∧ k ≠ 0x05#8) := by decide

/-- Divider 1 reaches itself and no other clock. -/
theorem witness_CaddlAppendsUnlessACycleArises_paths :
    wiring.Reaches 1#8 1#8 ∧ ¬wiring.Reaches 1#8 0#8 ∧ ¬wiring.Reaches 1#8 2#8 := by
  have key : ∀ a e, wiring.Reaches a e → a = 1#8 → e = 1#8 := by
    intro a e h
    induction h with
    | here => exact id
    | further _ hf ih =>
      intro ha
      rw [ih ha] at hf
      obtain ⟨u, hu, hl⟩ := hf
      have hc : wiring.clock? 1#8 = some ⟨some ⟨3, 1⟩, [.external 0#8]⟩ := by decide
      rw [hc] at hu
      cases hu
      simp at hl
  exact ⟨.here _, fun h => absurd (key _ _ h rfl) (by decide), fun h => absurd (key _ _ h rfl) (by decide)⟩

theorem witness_TickPulsesEveryListenerOnce :
    (fabric.clock? 2#8 = some ⟨none, [.external 0#8, .external 1#8]⟩ ∧ fabric.midPulse 2#8 = false ∧
    [Listener.external 0#8, .external 1#8] = [0#8, 1#8].map .external ∧ 1 ≤ fabric.fuel) ∧ ∀ x ∈ [0#8, 1#8], fabric.observes x :=
  ⟨by decide, fun x _ => fabric_observes x⟩

theorem witness_TickInsideItsOwnPulseIsRefused :
    ((fabric.withStack [.clock 2#8 0]).clock? 2#8 = some ⟨none, [.external 0#8, .external 1#8]⟩ ∧
      (fabric.withStack [.clock 2#8 0]).midPulse 2#8 = true) ∧
    ((reacting [ticks]).clock? 2#8 = some ⟨none, .external 0#8 :: [.external 1#8]⟩ ∧ (reacting [ticks]).midPulse 2#8 = false ∧
      2 ≤ (reacting [ticks]).fuel) ∧
    (reacting [ticks]).reaction 0#8 (.onTick 2#8) = ⟨⟨.tick 2#8, ErrorTest.always.holds⟩ :: [], none, []⟩ :=
  ⟨by decide, by decide, rfl⟩

/-- n = 0 on one side, n = 1 on the other; a pulse that completes, one that fails, one that is refused. -/
theorem witness_TicknIsThatManyTicks :
    fabric.clock? 2#8 = some ⟨none, [.external 0#8, .external 1#8]⟩ ∧ (0#32).toInt ≤ 0 ∧ 0 < (1#32).toInt ∧
    after (exec (.tick 2#8) fabric) (·.report) = some (some (.ok none)) ∧
    after (exec (.tick 2#8) failing) (·.report) = some (some (.err (.signalPropagation (.ofListener 1#8 7)))) ∧
    refusal (exec (.tick 2#8) (fabric.withStack [.clock 2#8 0])) = some (.clockBusy 2#8) := by decide

/-- Period 3: counter 1 only counts, counter 2 fires. -/
theorem witness_DivOntCountsAndFires :
    fabric.clock? 1#8 = some ⟨some ⟨3, 1⟩, [.external 0#8]⟩ ∧ 1 + 1 ≠ 3 ∧
    (fabric.putClock 1#8 ⟨some ⟨3, 2⟩, [.external 0#8]⟩).clock? 1#8 = some ⟨some ⟨3, 2⟩, [.external 0#8]⟩ ∧ 2 + 1 = 3 ∧
    fabric.midPulse 1#8 = false ∧ [Listener.external 0#8] = [0#8].map .external ∧ 2 ≤ fabric.fuel := by decide

/-- The listener of divider 1 observes, and so do those of clock 2. -/
theorem witness_DivOntCountsAndFires_observers : ∀ x ∈ [0#8], fabric.observes x := fun x _ => fabric_observes x

/-- Ten pulses, and none. -/
theorem witness_DividerFiresOnEveryPeriodthPulse :
    (fabric.clock? 0#8 = some ⟨none, [.divider 1#8]⟩ ∧ fabric.clock? 1#8 = some ⟨some ⟨3, 1⟩, [.external 0#8]⟩ ∧
    (0#8 : Handle) ≠ 1#8 ∧ (1 : Nat) ≤ 3 ∧ (1 : Nat) < 3 ∧ fabric.midPulse 0#8 = false ∧
    fabric.midPulse 1#8 = false ∧ 3 ≤ fabric.fuel ∧ 0 ≤ (10#32).toInt ∧ 0 ≤ (0#32).toInt) ∧ fabric.observes 0#8 :=
  ⟨by decide, fabric_observes _⟩

theorem witness_FailureInADividedPulseKeepsTheCounterReset :
    let s := (reacting [fails]).putClock 1#8 ⟨some ⟨3, 2⟩, [.external 0#8]⟩
    s.clock? 0#8 = some ⟨none, [.divider 1#8]⟩ ∧ s.clock? 1#8 = some ⟨some ⟨3, 2⟩, [.external 0#8]⟩ ∧
    (s.enterRun.putClock 1#8 ⟨some ⟨3, 0⟩, [.external 0#8]⟩).reaction 0#8 (.onTick 1#8) = ⟨[], some 7, []⟩ ∧
    s.midPulse 0#8 = false ∧ s.midPulse 1#8 = false ∧ 2 + 1 = 3 ∧ 3 ≤ s.fuel :=
  ⟨by decide, by decide, rfl, by decide⟩

theorem witness_EveryStepKeepsCountersBelowPeriods :
    fabric.countersInRange ∧ (after (step (issuing (encode (.tick 0#8)) fabric)) (·.clocks)).isSome = true := by decide

/-- A negative bound, equal bounds; a range of two with one element and with three. -/
theorem witness_RangeAndSizeErrorsMakeNothing :
    bare.phase = .wiring ∧ (-1#32).toInt < 0 ∧ (5#32).toInt ≤ (5#32).toInt ∧ 0 ≤ (0#32).toInt ∧ (0#32).toInt < (1#32).toInt ∧
    (([0#8] : List Byte).length : Int) ≠ (1#32).toInt - (0#32).toInt + 1 ∧
    (([0#8, 0#8, 0#8] : List Byte).length : Int) ≠ (1#32).toInt - (0#32).toInt + 1 := by decide

/-- An 8-bit data bus, the widest a RAM takes. -/
theorem witness_RamnewAndRomnewMakeTheMemory :
    bare.phase = .wiring ∧ 0 ≤ (0#32).toInt ∧ (0#32).toInt < (1#32).toInt ∧ (1#32).toInt - (0#32).toInt + 1 < 2 ^ 31 ∧
    (([7#8, 8#8] : List Byte).length : Int) = (1#32).toInt - (0#32).toInt + 1 ∧ bare.mem? 5#8 = none ∧
    bare.bus? 0#8 = some ⟨16, 0#32⟩ ∧ bare.bus? 1#8 = some ⟨8, 0#32⟩ ∧ (8 : Nat) ≤ 8 ∧ bare.flag? 0#8 = some ⟨0#4, valRead, []⟩ ∧
    Listener.memory 5#8 ∉ ([] : List Listener) := by decide

/-- On the 4-bit bus of P4 the cell 3 fits and the cell 0x1F does not; the last and the first address of the range. A RAM on an 8-bit bus. -/
theorem witness_MemoryReadPutsTheCellOnTheDataBus :
    shared.mem? 0#8 = some ⟨.rom, 0x100, 0x101, 0#8, 1#8, 0#8, [(0, 0x1F#8), (1, 3#8)]⟩ ∧ shared.classOf valRead = some .read ∧
    shared.bus? 0#8 = some ⟨16, 0x101#32⟩ ∧ (at' 0x100#32 shared).bus? 0#8 = some ⟨16, 0x100#32⟩ ∧
    shared.bus? 1#8 = some ⟨4, 5#32⟩ ∧ (Memory.read [(0, 0x1F#8), (1, 3#8)] (0x101 - 0x100)).toNat < 2 ^ 4 ∧
    2 ^ 4 ≤ (Memory.read [(0, 0x1F#8), (1, 3#8)] (0x100 - 0x100)).toNat ∧
    shared.mem? 1#8 = some ⟨.ram, 0x101, 0x102, 0#8, 1#8, 0#8, [(1, 9#8)]⟩ := by decide

theorem witness_RamWriteStoresTheDataBus :
    shared.mem? 1#8 = some ⟨.ram, 0x101, 0x102, 0#8, 1#8, 0#8, [(1, 9#8)]⟩ ∧ shared.classOf valWrite = some .write ∧
    shared.bus? 0#8 = some ⟨16, 0x101#32⟩ ∧ shared.bus? 1#8 = some ⟨4, 5#32⟩ ∧ (5#32).toNat < 256 := by decide

theorem witness_SilentReactionsChangeNothing :
    shared.mem? 1#8 = some ⟨.ram, 0x101, 0x102, 0#8, 1#8, 0#8, [(1, 9#8)]⟩ ∧ shared.classOf valHalt = some .other ∧
    shared.mem? 0#8 = some ⟨.rom, 0x100, 0x101, 0#8, 1#8, 0#8, [(0, 0x1F#8), (1, 3#8)]⟩ ∧
    shared.classOf valWrite = some .write := by decide

/-- One below and one above the ranges, and a flag not the memory's. -/
theorem witness_MemoryOutsideItsRangeIsSilent :
    (at' 0xFF#32 shared).bus? 0#8 = some ⟨16, 0xFF#32⟩ ∧ 0xFF < 0x100 ∧ (at' 0x103#32 shared).bus? 0#8 = some ⟨16, 0x103#32⟩ ∧
    0x102 < 0x103 ∧ (9#8 : Handle) ≠ 0#8 ∧ shared.mem? 1#8 = some ⟨.ram, 0x101, 0x102, 0#8, 1#8, 0#8, [(1, 9#8)]⟩ ∧
    shared.mem? 0#8 = some ⟨.rom, 0x100, 0x101, 0#8, 1#8, 0#8, [(0, 0x1F#8), (1, 3#8)]⟩ ∧
    shared.classOf valRead = some .read := by decide

/-- The first and the last address of the RAM. -/
theorem witness_LoadReturnsTheLatestStore :
    fabricRam.mem? 0#8 = some ⟨.ram, 0, 15, 2#8, 3#8, 1#8, [(2, 0xC2#8), (12, 0x0C#8)]⟩ ∧ inner.abus ≠ inner.dbus ∧
    fabricRam.bus? 2#8 = some ⟨11, 0#32⟩ ∧ fabricRam.bus? 3#8 = some ⟨8, 0x5A#32⟩ ∧
    fabricRam.flag? 1#8 = some ⟨0#4, valRead, [.memory 0#8]⟩ ∧ (0#32).toNat < 2 ^ 11 ∧ (15#32).toNat < 2 ^ 11 ∧
    (255#32).toNat < 2 ^ 8 ∧ (0#32).toNat < 2 ^ 8 ∧ (0#32 : Word) ≠ 15#32 ∧ 1 ≤ fabricRam.fuel := by decide

/-- Both memories answer 0x101; an 8-bit data bus. -/
theorem witness_LastAnsweringListenerWinsARead :
    (shared.putBus 1#8 ⟨8, 5#32⟩).flag? 0#8 = some ⟨0#4, valRead, [.memory 0#8, .memory 1#8]⟩ ∧
    (shared.putBus 1#8 ⟨8, 5#32⟩).mem? 0#8 = some ⟨.rom, 0x100, 0x101, 0#8, 1#8, 0#8, [(0, 0x1F#8), (1, 3#8)]⟩ ∧
    (shared.putBus 1#8 ⟨8, 5#32⟩).mem? 1#8 = some ⟨.ram, 0x101, 0x102, 0#8, 1#8, 0#8, [(1, 9#8)]⟩ ∧
    (shared.putBus 1#8 ⟨8, 5#32⟩).bus? 0#8 = some ⟨16, 0x101#32⟩ ∧ (shared.putBus 1#8 ⟨8, 5#32⟩).bus? 1#8 = some ⟨8, 5#32⟩ ∧
    1 ≤ shared.fuel := by decide

theorem witness_EveryStepKeepsMemoriesCanonical :
    shared.memoriesCanonical ∧ (after (step (issuing (encode (.fset 0#8 valWrite)) shared)) (·.mems)).isSome = true := by decide

theorem witness_NoStepChangesARom :
    shared.mem? 0#8 = some ⟨.rom, 0x100, 0x101, 0#8, 1#8, 0#8, [(0, 0x1F#8), (1, 3#8)]⟩ ∧
    (after (step (issuing (encode (.fset 0#8 valWrite)) shared)) (·.mems)).isSome = true := by decide

/-- The largest mask and base. -/
theorem witness_MapnewMakesTheMapper :
    wiring.phase = .wiring ∧ 0 ≤ (0#32).toInt ∧ (0#32).toInt < (1#32).toInt ∧ wiring.map? 9#8 = none ∧ wiring.hasTriple outer = true ∧
    wiring.hasTriple inner = true ∧ outer.flag ≠ inner.flag ∧
    wiring.mem? 0#8 = some ⟨.rom, 0, 15, 2#8, 3#8, 1#8, [(2, 0xC2#8), (12, 0x0C#8)]⟩ ∧
    wiring.flag? 0#8 = some ⟨0#4, valRead, [.mapper 0#8]⟩ ∧ Listener.mapper 9#8 ∉ [Listener.mapper 0#8] ∧
    (0x7FFFFFFF#32).toNat < 2 ^ 31 ∧ [0x7FFFFFFF#32] ≠ [] := by decide

/-- One past the range, its last address, its first; the three kinds of mapper; a sum of 2^31 - 1. -/
theorem witness_MxltTranslates :
    fabric.map? 0#8 = some ⟨.mirrored 0x7FF#32, 0, 0x1FFF, outer, inner, 0#8⟩ ∧ 0x1FFF < (0x2000#31).toNat ∧
    (0x1FFF#31).toNat ≤ 0x1FFF ∧ control.map? 0#8 = some ⟨.identity, 0, 0xFF, outer, inner, 0#8⟩ ∧
    banked.map? 0#8 = some ⟨.banked [0#32, 0x4000#32] 0#8, 0x8000, 0xBFFF, outer, inner, 0#8⟩ ∧ 0x8000 ≤ (0x8000#31).toNat ∧
    (0x7FFF#31).toNat < 0x8000 ∧ [0#32, 0x4000#32][(0#8 : Byte).toNat]? = some 0#32 ∧ 0 + (0xBFFF - 0x8000) < 2 ^ 31 ∧
    0x7FFFC000 + (0xBFFF - 0x8000) < 2 ^ 31 := by decide

/-- Bank 1 of two, and bank 2. -/
theorem witness_MbselSelectsTheBank :
    banked.map? 0#8 = some ⟨.banked [0#32, 0x4000#32] 0#8, 0x8000, 0xBFFF, outer, inner, 0#8⟩ ∧
    (1#8 : Byte).toNat < [0#32, 0x4000#32].length ∧ [0#32, 0x4000#32].length ≤ (2#8 : Byte).toNat ∧
    control.map? 0#8 = some ⟨.identity, 0, 0xFF, outer, inner, 0#8⟩ ∧
    fabric.map? 0#8 = some ⟨.mirrored 0x7FF#32, 0, 0x1FFF, outer, inner, 0#8⟩ := by decide

theorem witness_MapRdRelaysARead :
    fabric.map? 0#8 = some ⟨.mirrored 0x7FF#32, 0, 0x1FFF, outer, inner, 0#8⟩ ∧ fabric.classOf valRead = some .read ∧
    fabric.bus? 0#8 = some ⟨16, 0x802#32⟩ ∧
    translateAddress ⟨.mirrored 0x7FF#32, 0, 0x1FFF, outer, inner, 0#8⟩ 0x802 = .ok 2 ∧ fabric.bus? 2#8 = some ⟨11, 0#32⟩ ∧
    2 < 2 ^ 11 ∧ fabric.flag? 1#8 = some ⟨0#4, valRead, [.memory 0#8]⟩ ∧ fabric.memberOf 0#4 valRead = true ∧
    fabric.mem? 0#8 = some ⟨.rom, 0, 15, 2#8, 3#8, 1#8, [(2, 0xC2#8), (12, 0x0C#8)]⟩ ∧
    onTriple ⟨.rom, 0, 15, 2#8, 3#8, 1#8, [(2, 0xC2#8), (12, 0x0C#8)]⟩ inner = true ∧ fabric.bus? 3#8 = some ⟨8, 0x5A#32⟩ ∧
    fabric.bus? 1#8 = some ⟨8, 0xEE#32⟩ ∧ (Memory.read [(2, 0xC2#8), (12, 0x0C#8)] 2).toNat < 2 ^ 8 ∧ 2 ≤ fabric.fuel := by decide

/-- 16 is the first address past the ROM. -/
theorem witness_MapRdInnerMissCopiesTheStaleBus :
    (at' 0x10#32 fabric).map? 0#8 = some ⟨.mirrored 0x7FF#32, 0, 0x1FFF, outer, inner, 0#8⟩ ∧
    (at' 0x10#32 fabric).bus? 0#8 = some ⟨16, 0x10#32⟩ ∧
    translateAddress ⟨.mirrored 0x7FF#32, 0, 0x1FFF, outer, inner, 0#8⟩ 0x10 = .ok 16 ∧ 15 < 16 ∧ 16 < 2 ^ 11 ∧
    (at' 0x10#32 fabric).bus? 2#8 = some ⟨11, 0#32⟩ ∧ (at' 0x10#32 fabric).flag? 1#8 = some ⟨0#4, valRead, [.memory 0#8]⟩ ∧
    (at' 0x10#32 fabric).memberOf 0#4 valRead = true ∧ (at' 0x10#32 fabric).classOf valRead = some .read ∧
    (at' 0x10#32 fabric).mem? 0#8 = some ⟨.rom, 0, 15, 2#8, 3#8, 1#8, [(2, 0xC2#8), (12, 0x0C#8)]⟩ ∧
    (at' 0x10#32 fabric).bus? 3#8 = some ⟨8, 0x5A#32⟩ ∧ inner.dbus ≠ inner.abus ∧
    (at' 0x10#32 fabric).bus? 1#8 = some ⟨8, 0xEE#32⟩ ∧ (0x5A#32).toNat < 2 ^ 8 ∧ outer.dbus ≠ inner.abus ∧ 2 ≤ fabric.fuel := by
  decide

theorem witness_MapWrRelaysAWrite :
    fabric.map? 0#8 = some ⟨.mirrored 0x7FF#32, 0, 0x1FFF, outer, inner, 0#8⟩ ∧ fabric.classOf valWrite = some .write ∧
    fabric.bus? 0#8 = some ⟨16, 0x802#32⟩ ∧ fabric.memberOf 0#4 valWrite = true ∧
    fabric.mem? 0#8 = some ⟨.rom, 0, 15, 2#8, 3#8, 1#8, [(2, 0xC2#8), (12, 0x0C#8)]⟩ ∧
    fabricRam.mem? 0#8 = some ⟨.ram, 0, 15, 2#8, 3#8, 1#8, [(2, 0xC2#8), (12, 0x0C#8)]⟩ ∧
    fabricRam.map? 0#8 = some ⟨.mirrored 0x7FF#32, 0, 0x1FFF, outer, inner, 0#8⟩ ∧
    translateAddress ⟨.mirrored 0x7FF#32, 0, 0x1FFF, outer, inner, 0#8⟩ 0x802 = .ok 2 ∧
    onTriple ⟨.ram, 0, 15, 2#8, 3#8, 1#8, [(2, 0xC2#8), (12, 0x0C#8)]⟩ inner = true ∧ fabricRam.bus? 1#8 = some ⟨8, 0xEE#32⟩ ∧
    fabricRam.bus? 2#8 = some ⟨11, 0#32⟩ ∧ fabricRam.bus? 3#8 = some ⟨8, 0x5A#32⟩ ∧ inner.abus ≠ inner.dbus ∧
    inner.abus ≠ outer.dbus ∧ (0xEE#32).toNat < 2 ^ 8 ∧ 2 ≤ fabricRam.fuel := by decide

theorem witness_MapOthRelaysWithoutData :
    control.map? 0#8 = some ⟨.identity, 0, 0xFF, outer, inner, 0#8⟩ ∧ control.classOf valStart = some .other ∧
    control.bus? 0#8 = some ⟨16, 0x34#32⟩ ∧ translateAddress ⟨.identity, 0, 0xFF, outer, inner, 0#8⟩ 0x34 = .ok 0x34 ∧
    control.bus? 2#8 = some ⟨16, 0#32⟩ ∧ 0x34 < 2 ^ 16 ∧ control.flag? 1#8 = some ⟨1#4, valHalt, [.memory 0#8]⟩ ∧
    control.memberOf 1#4 valStart = true ∧ control.mem? 0#8 = some ⟨.ram, 0, 0xFF, 2#8, 3#8, 1#8, []⟩ ∧ 2 ≤ control.fuel := by decide

/-- One past the range of the mapper, one below that of the banked one, and a flag not the outer one. -/
theorem witness_MapperOutsideItsRangeIsSilent :
    fabric.map? 0#8 = some ⟨.mirrored 0x7FF#32, 0, 0x1FFF, outer, inner, 0#8⟩ ∧
    (at' 0x2000#32 fabric).bus? 0#8 = some ⟨16, 0x2000#32⟩ ∧ 0x1FFF < 0x2000 ∧
    banked.map? 0#8 = some ⟨.banked [0#32, 0x4000#32] 0#8, 0x8000, 0xBFFF, outer, inner, 0#8⟩ ∧
    (at' 0x7FFF#32 banked).bus? 0#8 = some ⟨16, 0x7FFF#32⟩ ∧ 0x7FFF < 0x8000 ∧ (9#8 : Handle) ≠ outer.flag ∧
    fabric.classOf valRead = some .read ∧ fabric.classOf valWrite = some .write ∧ fabric.classOf valHalt = some .other := by decide

/-- 16 is the least address that does not fit the 4-bit inner address bus of M8, 15 the greatest that does; the mapper first on the list. -/
theorem witness_RelayErrorsAreWrappedOnce :
    (at' 0x10#32 narrow).relays 0#8 ⟨.identity, 0, 0xFF, outer, inner, 0#8⟩ ⟨0#16, 0#8, valRead⟩ 16 ∧
    (at' 0xF#32 narrow).relays 0#8 ⟨.identity, 0, 0xFF, outer, inner, 0#8⟩ ⟨0#16, 0#8, valRead⟩ 15 ∧
    (at' 0x10#32 narrow).bus? 2#8 = some ⟨4, 0#32⟩ ∧ 2 ^ 4 ≤ 16 ∧ 15 < 2 ^ 4 ∧ narrow.classOf valRead = some .read ∧
    narrow.classOf valWrite = some .write ∧ narrow.classOf valHalt = some .other ∧
    (at' 0x10#32 narrow).flag? 0#8 = some ⟨0#4, valRead, [] ++ .mapper 0#8 :: []⟩ ∧ narrow.memberOf 0#4 valRead = true ∧
    deliverAll (perform narrow.fuel) (flagReaction 0#8 valRead) (fun i => .flag 0#8 i valRead) [] 0 []
      ((at' 0x10#32 narrow).putFlag 0#8 ⟨0#4, valRead, [.mapper 0#8]⟩) =
        .ok ((at' 0x10#32 narrow).putFlag 0#8 ⟨0#4, valRead, [.mapper 0#8]⟩) none ∧
    ((at' 0x10#32 narrow).putFlag 0#8 ⟨0#4, valRead, [.mapper 0#8]⟩).relays 0#8 ⟨.identity, 0, 0xFF, outer, inner, 0#8⟩
      ⟨0#16, 0#8, valRead⟩ 16 ∧ 1 ≤ narrow.fuel :=
  ⟨⟨by decide, rfl, rfl, _, rfl, by decide⟩, ⟨by decide, rfl, rfl, _, rfl, by decide⟩, by decide, by decide, by decide, rfl, rfl, rfl,
    by decide, by decide, rfl, ⟨by decide, rfl, rfl, _, rfl, by decide⟩, by decide⟩

/-- M10, second part: 0x99 does not fit the 4-bit inner data bus. -/
theorem witness_RelayErrorsAreWrappedOnce_data_in :
    narrowInner.relays 0#8 ⟨.identity, 0, 0xFF, outer, inner, 0#8⟩ ⟨0#16, 0#8, valWrite⟩ 1 ∧
    narrowInner.bus? 2#8 = some ⟨8, 0#32⟩ ∧ (narrowInner.putBus 2#8 ⟨8, 1#32⟩).bus? 3#8 = some ⟨4, 0#32⟩ ∧
    (narrowInner.putBus 2#8 ⟨8, 1#32⟩).bus? 1#8 = some ⟨8, 0x99#32⟩ ∧ 2 ^ 4 ≤ (0x99#32).toNat :=
  ⟨⟨by decide, rfl, rfl, _, rfl, by decide⟩, by decide⟩

/-- M9: the inner cascade completes, and 0x1F does not fit the 4-bit outer data bus. M10, first part: it fails. -/
theorem witness_RelayErrorsAreWrappedOnce_data_out :
    wideInner.relays 0#8 ⟨.identity, 0, 0xFF, outer, inner, 0#8⟩ ⟨0#16, 0#8, valRead⟩ 0 ∧
    (∃ s2 v, perform wideInner.fuel (.fset 1#8 valRead) (wideInner.putBus 2#8 ⟨8, 0#32⟩) = .ok s2 v ∧
      s2.bus? 3#8 = some ⟨8, 0x1F#32⟩ ∧ s2.bus? 1#8 = some ⟨4, 9#32⟩ ∧ 2 ^ 4 ≤ (0x1F#32).toNat) ∧
    (at' 0#32 narrowInner).relays 0#8 ⟨.identity, 0, 0xFF, outer, inner, 0#8⟩ ⟨0#16, 0#8, valRead⟩ 0 ∧
    ∃ s2 e, perform narrowInner.fuel (.fset 1#8 valRead) ((at' 0#32 narrowInner).putBus 2#8 ⟨8, 0#32⟩) = .err s2 e :=
  ⟨⟨by decide, rfl, rfl, _, rfl, by decide⟩, ⟨_, _, rfl, by decide⟩, ⟨by decide, rfl, rfl, _, rfl, by decide⟩, _, _, rfl⟩

/-- The last clause: the data goes in, and an external listener on the inner flag fails. -/
theorem witness_RelayErrorsAreWrappedOnce_nested :
    let s := { wideInner with
      flags := [(0, ⟨0#4, valRead, [.mapper 0#8]⟩), (1, ⟨0#4, valWrite, [.memory 0#8, .external 0#8]⟩)]
      behaviours := [(0, .rules [fails])] }
    s.relays 0#8 ⟨.identity, 0, 0xFF, outer, inner, 0#8⟩ ⟨0#16, 0#8, valWrite⟩ 0 ∧ (s.putBus 2#8 ⟨8, 0#32⟩).bus? 3#8 = some ⟨8, 0#32⟩ ∧
    (s.putBus 2#8 ⟨8, 0#32⟩).bus? 1#8 = some ⟨4, 9#32⟩ ∧ (9#32).toNat < 2 ^ 8 ∧
    ∃ s2 e, perform s.fuel (.fset 1#8 valWrite) ((s.putBus 2#8 ⟨8, 0#32⟩).putBus 3#8 ⟨8, 9#32⟩) = .err s2 e :=
  ⟨⟨by decide, rfl, rfl, _, rfl, by decide⟩, by decide, by decide, by decide, _, _, rfl⟩

theorem witness_EveryStepKeepsMappersLegal :
    banked.mappersLegal ∧ (after (step (issuing (encode (.mbsel 0#8 1#8)) banked)) (·.maps)).isSome = true := by decide

/-- Mapper number 1; a PRG array of one byte. -/
theorem witness_CartnewRaises : bare.phase = .wiring ∧ (1#8 : Byte) ≠ 0#8 ∧ [0#8].length ≠ 16384 ∧ [0#8].length ≠ 32768 := by decide

/-- Both PRG sizes. -/
theorem witness_CartnewBuildsVariantZero :
    bare.phase = .wiring ∧ (∀ prg : List Byte, prg.length = 16384 → prg.length = 16384 ∨ prg.length = 32768) ∧
    (∃ prg : List Byte, prg.length = 16384) ∧ (∃ prg : List Byte, prg.length = 32768) ∧ bare.cart? 0#8 = none ∧
    bare.mem? 0#8 = none ∧ bare.map? 0#8 = none ∧ bare.hasTriple outer = true ∧ bare.hasTriple inner = true ∧
    outer.flag ≠ inner.flag ∧ bare.flag? 0#8 = some ⟨0#4, valRead, []⟩ ∧ bare.flag? 1#8 = some ⟨0#4, valRead, []⟩ ∧
    Listener.mapper 0#8 ∉ ([] : List Listener) ∧ Listener.memory 0#8 ∉ ([] : List Listener) :=
  ⟨by decide, fun _ h => .inl h, ⟨_, List.length_replicate (n := 16384) (a := 0x42#8)⟩,
    ⟨_, List.length_replicate (n := 32768) (a := 0x42#8)⟩, by decide⟩

/-- The narrowest buses that carry the accesses; the first and the last address of the window. -/
theorem witness_CartridgeWindowReadsThePrgArray :
    (∃ prg : List Byte, prg.length = 16384) ∧ bare.phase = .wiring ∧ bare.cart? 0#8 = none ∧ bare.mem? 0#8 = none ∧
    bare.map? 0#8 = none ∧ outer.flag ≠ inner.flag ∧ bare.flag? 0#8 = some ⟨0#4, valRead, []⟩ ∧
    bare.flag? 1#8 = some ⟨0#4, valRead, []⟩ ∧ bare.bus? 0#8 = some ⟨16, 0#32⟩ ∧ bare.bus? 1#8 = some ⟨8, 0#32⟩ ∧
    bare.bus? 2#8 = some ⟨15, 0#32⟩ ∧ bare.bus? 3#8 = some ⟨8, 0#32⟩ ∧ 3 ≤ bare.fuel ∧ 0 < 0x8000 ∧ 0x7FFF < 0x8000 :=
  ⟨⟨_, List.length_replicate (n := 16384) (a := 0x42#8)⟩, by decide⟩

/-- An image with neither PRG nor CHR; one with a trainer; a wrong magic; an image one byte short. -/
theorem witness_InesParseGivesTheFourInputs :
    (List.replicate 8 0#8).length = 8 ∧ ([] : List Byte).length = (0#8 : Byte).toNat * 16384 ∧
    ([] : List Byte).length = (if (0#8 : Byte).getLsbD 2 then 512 else 0) ∧
    (∃ trainer : List Byte, trainer.length = (if (4#8 : Byte).getLsbD 2 then 512 else 0)) ∧
    [0x4E#8, 0x45#8, 0x53#8, 0x1B#8].take 4 ≠ [0x4E#8, 0x45#8, 0x53#8, 0x1A#8] ∧
    ((List.replicate 7 0#8).length : Nat) + 8 <
      16 + (if (0#8 : Byte).getLsbD 2 then 512 else 0) + (0#8 : Byte).toNat * 16384 + (0#8 : Byte).toNat * 8192 :=
  ⟨by decide, by decide, by decide, ⟨_, List.length_replicate (n := 512) (a := 0#8)⟩, by decide, by decide⟩

theorem witness_CascadeErrorsAreSignalPropagation :
    after (exec (.fset 0#8 valRead) narrow) (·.report) =
      some (some (.err (.signalPropagation (.signalPropagation (.invalidBusData 2#8 0x12#32))))) ∧
    after (exec (.tick 2#8) failing) (·.report) = some (some (.err (.signalPropagation (.ofListener 1#8 7)))) ∧
    after (exec (.tickn 2#8 1#32) failing) (·.report) = some (some (.err (.signalPropagation (.ofListener 1#8 7)))) := by decide

/-- A TICK whose divider only counts needs two levels; with one it runs out. -/
theorem witness_MoreFuelChangesNoOutcome :
    perform 2 (.tick 0#8) fabric ≠ .refused .outOfFuel ∧ perform 1 (.tick 0#8) fabric = .refused .outOfFuel ∧ (2 : Nat) ≤ 3 := by decide

theorem witness_NoRunPhaseStepChangesTheConfiguration :
    fabric.wellWired ∧ fabric.phase = .run ∧ (after (step (issuing (encode (.fset 0#8 valRead)) fabric)) (·.phase)).isSome = true := by
  decide

theorem witness_RecordsAreRefusedInTheRunPhase :
    fabric.phase = .run ∧ (Instr.cnew 9#8).isCommand = false ∧ (Instr.cnew 9#8).isReaction = false := by decide

theorem witness_EveryStepLeavesTheStackAsItWas :
    after (step (issuing (encode (.fset 2#8 valStart)) failing)) (fun s => (s.stack, s.report)) =
      some ([], some (.err (.signalPropagation (.ofListener 1#8 7)))) := by decide

theorem witness_EveryStepKeepsTheWiringWellFormed :
    wiring.wellWired ∧ (after (step (issuing (encode (.mapnewI 1#8 0#32 1#32 outer inner 0#8)) wiring)) (·.maps)).isSome = true := by
  decide

end Sys2Proof.Tests
end

section
/-! SUPPORT. What an external listener's whole reaction answers, what a delivery presented to one leaves, and O20. -/

namespace Sys2Proof.Machine

variable {s t : State} {x : Handle}

/-! ## The reaction and the delivery -/

section Reacting

variable {nested : Instr → State → Res} {ev : Event} {cs : List ExtCommand} {failure : Option Nat} {own : List Nat}
  (hr : s.reaction x ev = ⟨cs, failure, own⟩)
include hr

/-- A listener whose reaction is known holds what the reaction says of its own, with the event on record (R161). -/
theorem moveOn_eq : s.moveOn x ev = s.putExt x ⟨own, (s.ext x).seen ++ [ev]⟩ := by
  rw [State.moveOn, hr]

/-- An error that ends the commands is the reaction's, whether or not it has one of its own (R161). -/
theorem extReact_err {e : FabricError} (hc : runCommands nested cs (s.moveOn x ev) = .err t e) :
    extReact nested x ev s = .err t e := by
  rw [extReact, hr, hc, andThen_err]

/-- After commands carried out to the end a listener with no error of its own succeeds. -/
theorem extReact_ok {v : Option Word} (hc : runCommands nested cs (s.moveOn x ev) = .ok t v) (hf : failure = none) :
    extReact nested x ev s = .ok t none := by
  rw [extReact, hr, hc, andThen_ok, hf]

/-- One with an error of its own fails with it from the state its commands reached (R287). -/
theorem extReact_ownError {v : Option Word} {code : Nat} (hc : runCommands nested cs (s.moveOn x ev) = .ok t v)
    (hf : failure = some code) : extReact nested x ev s = .err t (.ofListener x code) := by
  rw [extReact, hr, hc, andThen_ok, hf]
  rfl

end Reacting

/-- What the issuer is told of listener x when its commands are carried out: the listener's own error, if it has one (R287). -/
def ownReport (x : Handle) (failure : Option Nat) : Report := failure.elim (.ok none) fun code => .err (.ofListener x code)

/-- A flag change presented on its own to listener x is its reaction to it (R161). -/
theorem exec_extOnf {dw : Delivery} (hz : dw.zero = 0#16) :
    exec (.extOnf x dw) s = settle (extReact (perform s.fuel) x (.onFlagChange dw.val dw.src) s) := by
  rw [exec, execExtOnf, runExtOnf, withFormed_zero hz]

section Delivered

variable {dw : Delivery} {cs : List ExtCommand} {failure : Option Nat} {own : List Nat} (hz : dw.zero = 0#16)
  (hr : s.reaction x (.onFlagChange dw.val dw.src) = ⟨cs, failure, own⟩)
include hz hr

theorem exec_extOnf_ok {v : Option Word}
    (hc : runCommands (perform s.fuel) cs (s.moveOn x (.onFlagChange dw.val dw.src)) = .ok t v) :
    exec (.extOnf x dw) s = .next (t.withReport (ownReport x failure)) := by
  rw [exec_extOnf hz]
  cases hf : failure with
  | none => rw [extReact_ok hr hc hf, settle_ok]; rfl
  | some code => rw [extReact_ownError hr hc hf, settle_err]; rfl

theorem exec_extOnf_err {e : FabricError}
    (hc : runCommands (perform s.fuel) cs (s.moveOn x (.onFlagChange dw.val dw.src)) = .err t e) :
    exec (.extOnf x dw) s = .next (t.withReport (.err e)) := by
  rw [exec_extOnf hz, extReact_err hr hc, settle_err]

end Delivered

/-! ## The commands -/

@[simp] theorem runCommands_nil (nested : Instr → State → Res) (s : State) : runCommands nested [] s = .ok s none := rfl

/-- A BWC inside a cascade is the checked write, at any depth but 0 (R133). -/
theorem perform_bwc {n : Nat} (hn : 1 ≤ n) (b : Handle) (v : Word) (s : State) :
    perform n (.bwc b v) s = busWriteChecked b v s := by
  obtain ⟨m, rfl⟩ := Nat.exists_eq_add_of_le' hn
  rfl

section BusWrites

variable {n : Nat} {b : Handle} {u : Bus} {v : Word} (hn : 1 ≤ n) (hu : s.bus? b = some u) (hw : u.width ≤ 31)
include hn hu hw

/-- A listener's write that fits lets it go on. -/
theorem runCommands_bwc_fit (hv : v.toNat < 2 ^ u.width) (h : FabricError → Bool) (cs : List ExtCommand) :
    runCommands (perform n) (⟨.bwc b v, h⟩ :: cs) s = runCommands (perform n) cs (s.putBus b { u with value := v }) := by
  have hfit : fits u.width v = true := (fits_iff (by omega) v).mpr hv
  exact runCommands_ok rfl ((perform_bwc hn b v s).trans (busWriteChecked_fit hu hfit))

/-- A listener's write that does not fit ends its reaction, unless it handles InvalidBusData (R9, R298). -/
theorem runCommands_bwc_wide (hv : 2 ^ u.width ≤ v.toNat) (h : FabricError → Bool) (cs : List ExtCommand) :
    runCommands (perform n) (⟨.bwc b v, h⟩ :: cs) s =
      if h (.invalidBusData b v) then runCommands (perform n) cs s else .err s (.invalidBusData b v) := by
  have hwide : fits u.width v = false := by
    rw [← Bool.not_eq_true, fits_iff (by omega)]
    omega
  exact runCommands_err rfl ((perform_bwc hn b v s).trans (busWriteChecked_wide hu hwide))

end BusWrites

/-! ## The behaviour that copies bus b to bus c on one value (R9, R161) -/

/-- The behaviour the second clause of O20 speaks of. -/
def copyBehaviour (b c : Handle) (val : Byte) : Behaviour :=
  .rules [⟨.op .eq .value (.lit val.toNat), [⟨.bwc (.lit c.toNat) (.bus b), .never⟩], none, [.own 0]⟩]

section Copying

variable {b c : Handle} {val : Byte} (hb : s.behaviour x = copyBehaviour b c val)
include hb

/-- On the value it reacts to, the command carries what bus b holds at the moment. -/
theorem reaction_copy_same {u : Bus} (hu : s.bus? b = some u) (f : Handle) :
    s.reaction x (.onFlagChange val f) =
      ⟨[⟨.bwc c u.value, ErrorTest.never.holds⟩], none, [((s.ext x).own[0]?).getD 0]⟩ := by
  have hlook : Table.look s.buses b.toNat = some u := hu
  simp [State.reaction, hb, copyBehaviour, Behaviour.react, rulesReaction, Rule.reaction, Order.command, Quantity.eval,
    Binary.apply, Event.value, State.fabric, hlook]

/-- On any other value it observes. -/
theorem reaction_copy_other {val' : Byte} (hne : val' ≠ val) (f : Handle) :
    s.reaction x (.onFlagChange val' f) = ⟨[], none, (s.ext x).own⟩ := by
  have hne' : val'.toNat ≠ val.toNat := fun h => hne (BitVec.eq_of_toNat_eq h)
  simp [State.reaction, hb, copyBehaviour, Behaviour.react, rulesReaction, Quantity.eval, Binary.apply, Event.value, hne']

end Copying

/-! ## O20 -/

/-- Two bus writes, the first of which does not fit: what follows hangs on whether its error is handled (R9, R298). -/
theorem exec_extOnf_twoWrites {b : Handle} {u : Bus} {v w : Word} {h h' : FabricError → Bool} {failure : Option Nat}
    {own : List Nat} {dw : Delivery} (hz : dw.zero = 0#16)
    (hr : s.reaction x (.onFlagChange dw.val dw.src) = ⟨[⟨.bwc b v, h⟩, ⟨.bwc b w, h'⟩], failure, own⟩)
    (hu : s.bus? b = some u) (hwidth : u.width ≤ 31) (hv : 2 ^ u.width ≤ v.toNat) (hw : w.toNat < 2 ^ u.width)
    (hfuel : 1 ≤ s.fuel) :
    exec (.extOnf x dw) s =
      .next (if h (.invalidBusData b v) then
          ((s.moveOn x (.onFlagChange dw.val dw.src)).putBus b { u with value := w }).withReport (ownReport x failure)
        else (s.moveOn x (.onFlagChange dw.val dw.src)).withReport (.err (.invalidBusData b v))) := by
  have hu' : (s.moveOn x (.onFlagChange dw.val dw.src)).bus? b = some u := hu
  have hrun := runCommands_bwc_wide hfuel hu' hwidth hv h [⟨.bwc b w, h'⟩]
  by_cases hh : h (.invalidBusData b v) = true
  · rw [if_pos hh, runCommands_bwc_fit hfuel hu' hwidth hw h' []] at hrun
    rw [if_pos hh]
    exact exec_extOnf_ok hz hr hrun
  · rw [if_neg hh] at hrun ⊢
    exact exec_extOnf_err hz hr hrun

/-- The one command of a reaction fails: its error, if not handled, is the listener's; if handled, only one of its own is (R287). -/
theorem exec_extOnf_failingCommand {i : Instr} {h : FabricError → Bool} {failure : Option Nat} {own : List Nat} {dw : Delivery}
    {e : FabricError} (hz : dw.zero = 0#16) (hr : s.reaction x (.onFlagChange dw.val dw.src) = ⟨[⟨i, h⟩], failure, own⟩)
    (hi : i.isCommand = true) (he : perform s.fuel i (s.moveOn x (.onFlagChange dw.val dw.src)) = .err t e) :
    exec (.extOnf x dw) s = .next (t.withReport (if h e then ownReport x failure else .err e)) := by
  have hrun := runCommands_err (c := ⟨i, h⟩) (cs := []) hi he
  by_cases hh : h e = true
  · rw [if_pos hh] at hrun ⊢
    exact exec_extOnf_ok hz hr hrun
  · rw [if_neg hh] at hrun ⊢
    exact exec_extOnf_err hz hr hrun

/-- Settles O20: two writes with the first in error, the copying behaviour on its value and on any other, and one failing command. -/
theorem listenerFailsWithItsFirstUnhandledError : Obligations.ListenerFailsWithItsFirstUnhandledError := by
  refine ⟨?twoWrites, ?copying, ?oneCommand⟩
  case twoWrites =>
    intro s x b u v w h h' failure own dw hu hwidth hv hw hfuel hr hz
    rw [← moveOn_eq hr]
    exact exec_extOnf_twoWrites hz hr hu hwidth hv hw hfuel
  case copying =>
    intro s x b c u w val dw hu hw hwidth hv hfuel hz hb
    constructor
    · rintro rfl
      have hr := reaction_copy_same hb hu dw.src
      rw [← moveOn_eq hr]
      exact exec_extOnf_ok hz hr (runCommands_bwc_fit (s := s.moveOn x _) hfuel hw hwidth hv _ [])
    · intro hne
      have hr := reaction_copy_other hb hne dw.src
      rw [← moveOn_eq hr]
      exact exec_extOnf_ok hz hr (runCommands_nil _ _)
  case oneCommand =>
    intro s s' x i h failure own dw e hr hz hi he
    rw [← moveOn_eq hr] at he
    exact exec_extOnf_failingCommand hz hr hi he

end Sys2Proof.Machine
end

section
/-! SUPPORT. The translation of an address by each kind of mapper, MXLT through it, and O41. -/

namespace Sys2Proof.Machine

variable {s : State} {k : Handle} {u : Mapper} {a : Nat}

/-! ## Translation inside the range, by kind (R222 to R224) -/

theorem translateInside_identity (hk : u.kind = .identity) : translateInside u a = .ok a := by
  rw [translateInside, hk]

theorem translateInside_mirrored {mask : Word} (hk : u.kind = .mirrored mask) : translateInside u a = .ok (a &&& mask.toNat) := by
  rw [translateInside, hk]

section Banked

variable {bases : List Word} {sel : Byte} {base : Word} (hk : u.kind = .banked bases sel) (hb : bases[sel.toNat]? = some base)
include hk hb

theorem translateInside_banked (h : base.toNat + (a - u.first) < 2 ^ 31) :
    translateInside u a = .ok (base.toNat + (a - u.first)) := by
  simp only [translateInside, hk, hb]
  exact if_pos h

theorem translateInside_banked_large (h : 2 ^ 31 ≤ base.toNat + (a - u.first)) : translateInside u a = .error .tooLarge := by
  simp only [translateInside, hk, hb]
  exact if_neg (Nat.not_lt.mpr h)

end Banked

/-! ## MXLT (R221) -/

section Mxlt

variable {a : BitVec 31} (hu : s.map? k = some u)
include hu

/-- MXLT reports the translation and, but for the run phase begun, changes nothing. -/
theorem exec_mxlt_ok {t : Nat} (ht : translateAddress u a.toNat = .ok t) :
    exec (.mxlt k a) s = .next (s.enterRun.withReport (.ok (some (BitVec.ofNat 32 t)))) := by
  rw [exec, execMxlt, runMxlt, withMap_some (s := s.enterRun) hu, ht, settle_ok]

theorem exec_mxlt_refused {w : Refusal} (ht : translateAddress u a.toNat = .error w) : exec (.mxlt k a) s = .refused w := by
  rw [exec, execMxlt, runMxlt, withMap_some (s := s.enterRun) hu, ht, settle_refused]

end Mxlt

/-- Settles O41: outside the range, then inside it the three kinds, the banked one with a sum below 2^31 and with one that is not. -/
theorem mxltTranslates : Obligations.MxltTranslates := by
  intro s k u a hu
  have hself : a.setWidth 32 = BitVec.ofNat 32 a.toNat := (BitVec.ofNat_toNat 32 a).symm
  refine ⟨fun hout => hself ▸ exec_mxlt_ok hu (translate_outside hout), fun hlo hhi => ?_⟩
  have inside := translate_inside ⟨hlo, hhi⟩
  refine ⟨?identity, ?mirrored, ?banked, ?large⟩
  case identity =>
    intro hk
    rw [hself]
    exact exec_mxlt_ok hu (inside.trans (translateInside_identity hk))
  case mirrored =>
    intro mask hk
    have hmask : a.setWidth 32 &&& mask = BitVec.ofNat 32 (a.toNat &&& mask.toNat) := by
      rw [BitVec.ofNat_and, BitVec.ofNat_toNat, BitVec.ofNat_toNat, BitVec.setWidth_eq]
    rw [hmask]
    exact exec_mxlt_ok hu (inside.trans (translateInside_mirrored hk))
  case banked =>
    intro bases sel base hk hb hsum
    exact exec_mxlt_ok hu (inside.trans (translateInside_banked hk hb hsum))
  case large =>
    intro bases sel base hk hb hsum
    exact exec_mxlt_refused hu (inside.trans (translateInside_banked_large hk hb hsum))

end Sys2Proof.Machine
end

section
/-! SUPPORT. A delivery word decodes to the reaction it encodes, what `fetch` takes from each place, and O4. -/

namespace Sys2Proof

/-- An operation is read by its head and what follows (R91, R103). -/
theorem decode_headBytes (op unit : Byte) (imm : Word) (rest : List Byte) :
    decode (headBytes op unit imm ++ rest) = decodeHead op unit imm rest := by
  simp [headBytes, wordBytes, decode, word4_bytes]

/-- The word of a well-formed reaction decodes to it (R98, R99). -/
theorem decode_encode_reaction {i : Instr} (hw : i.wellFormed = true) (hr : i.isReaction = true) (rest : List Byte) :
    decode (encode i ++ rest) = .ok (i, rest) := by
  cases i with
  | divOnt | extOnt | extOnf => rw [encode, decode_headBytes, decodeHead, deliveryOf_imm]; rfl
  | ramRd m dw | romRd m dw | mapRd m dw =>
    obtain ⟨-, hval⟩ : dw.zero = 0#16 ∧ dw.val = 0#8 := by simpa [Instr.wellFormed, Delivery.rowRd, Delivery.formed] using hw
    simp [encode, decode_headBytes, decodeHead, deliveryOf_imm, hval, Pure.pure, Except.pure]
  | ramWr m dw | romWr m dw | mapWr m dw =>
    obtain ⟨-, hval⟩ : dw.zero = 0#16 ∧ dw.val = 1#8 := by simpa [Instr.wellFormed, Delivery.rowWr, Delivery.formed] using hw
    simp [encode, decode_headBytes, decodeHead, deliveryOf_imm, hval, Pure.pure, Except.pure]
  | ramOth m dw | romOth m dw | mapOth m dw =>
    obtain ⟨⟨-, hrd⟩, hwr⟩ : (dw.zero = 0#16 ∧ dw.val ≠ 0#8) ∧ dw.val ≠ 1#8 := by
      simpa [Instr.wellFormed, Delivery.rowOth, Delivery.formed] using hw
    simp [encode, decode_headBytes, decodeHead, deliveryOf_imm, hrd, hwr, Pure.pure, Except.pure]
  | _ => cases hr

namespace Machine

variable {s : State} {i : Instr} {rest : List Byte}

/-- With no delivery presented, the driver's next operation is taken (R8). -/
theorem fetch_driver (hp : s.delivery = none) (hd : decode s.driver = .ok (i, rest)) (hi : i.isReaction = false) :
    fetch s = .run i { s with driver := rest } := by
  have hf : fetch s = fetchDriver s := by rw [fetch, hp]
  rw [hf]
  cases hs : s.driver with
  | nil => rw [hs] at hd; cases hd
  | cons b bs =>
    rw [hs] at hd
    simp [fetchDriver, hs, hd, hi]

/-- A reaction presented is taken (R40). -/
theorem fetch_delivery {w : BitVec 48} (hp : s.delivery = some w) (hd : decode (word48Bytes w) = .ok (i, rest))
    (hi : i.isReaction = true) : fetch s = .run i { s with delivery := none } := by
  rw [fetch, hp]
  simp [fetchDelivery, hd, hi]

/-- With nothing presented and nothing to issue there is no operation (R309). -/
theorem fetch_idle (hp : s.delivery = none) (hd : s.driver = []) : fetch s = .idle := by
  simp [fetch, hp, fetchDriver, hd]

/-- A step carries out what is fetched (R16). -/
theorem step_run {t : State} (h : fetch s = .run i t) : step s = exec i t := by rw [step, h]

theorem step_idle (h : fetch s = .idle) : step s = .next s := by rw [step, h]

/-- Settles O4: one clause for each thing `fetch` can find that is not refused. -/
theorem stepRunsTheDecodedOperation : Obligations.StepRunsTheDecodedOperation := by
  refine ⟨?driver, ?delivery, ?idle⟩
  case driver =>
    intro s i rest hp hd hi
    exact step_run (fetch_driver hp hd hi)
  case delivery =>
    intro s w i hp henc hw hi
    have hd : decode (word48Bytes w) = .ok (i, []) := by
      rw [henc, ← List.append_nil (encode i)]
      exact decode_encode_reaction hw hi []
    exact step_run (fetch_delivery hp hd hi)
  case idle =>
    intro s hp hd
    exact step_idle (fetch_idle hp hd)

end Machine

end Sys2Proof
end

section
/-! SUPPORT. What a step can do, said once: the elementary changes of the state (`Change`), that every step is a sequence of them
(`step_changes`), and so that what each of them keeps every step keeps (`step_keeps`). -/

namespace Sys2Proof.Machine

open Relation (ReflTransGen)

/-- The elementary changes a step is made of: those of a cascade (the fields of `Kept`), those of a configuration record, each with all its
checks passed, and those of the fields that hold no unit. -/
inductive State.Change : State → State → Prop
  /-- A bus takes a value that fits (R133, R134). -/
  | busValue {s : State} {b : Handle} {u : Bus} {v : Word} (hb : s.bus? b = some u) (hv : u.width ≤ 32 → v.toNat < 2 ^ u.width) :
    Change s (s.putBus b { u with value := v })
  /-- A flag takes a defined member of its set (R160, R162). -/
  | flagValue {s : State} {f : Handle} {u : Flag} {val : Byte} (hf : s.flag? f = some u) (hv : s.memberOf u.set val = true) :
    Change s (s.putFlag f { u with value := val })
  /-- A divider counts a pulse or fires (R178). -/
  | counter {s : State} {d : Handle} {u : Clock} {v : Divider} {n : Nat} (hd : s.clock? d = some u) (hv : u.divider = some v)
    (hn : n = 0 ∨ n = v.counter + 1 ∧ n ≠ v.period) : Change s (s.putClock d { u with divider := some { v with counter := n } })
  /-- A cell of a RAM takes a value (R197). -/
  | cell {s : State} {m : Handle} {u : Mem} {a : Nat} {v : Byte} (hm : s.mem? m = some u) (hk : u.kind = .ram) (hlo : u.start ≤ a)
    (hhi : a ≤ u.last) : Change s (s.putMem m { u with contents := Memory.write u.contents (a - u.start) v })
  /-- A bank is selected (R225). -/
  | bank {s : State} {k : Handle} {u : Mapper} {bases : List Word} {sel bank : Byte} (hk : s.map? k = some u)
    (hu : u.kind = .banked bases sel) (hb : bank.toNat < bases.length) : Change s (s.putMap k { u with kind := .banked bases bank })
  /-- A listener's state, the stack, the report, the operations still to come (R35, R161, logs 2 to 4). -/
  | aside {s : State} (exts : Table Ext) (stack : List Frame) (report : Option Report) (driver : List Byte)
    (delivery : Option (BitVec 48)) :
    Change s { s with exts := exts, stack := stack, report := report, driver := driver, delivery := delivery }
  /-- The run phase begins (R305). -/
  | enterRun {s : State} : Change s s.enterRun
  /-- BNEW (R131). -/
  | busNew {s : State} {b : Handle} {width : Nat} (hp : s.phase = .wiring) (hb : s.bus? b = none) (hlo : 1 ≤ width)
    (hhi : width ≤ Config.maxBusWidth) : Change s (s.putBus b ⟨width, 0#32⟩)
  /-- FNEW (R151). -/
  | flagNew {s : State} {f : Handle} {init : Byte} (hp : s.phase = .wiring) (hf : s.flag? f = none)
    (hv : s.definesValue init = true) : Change s (s.putFlag f ⟨codeSet init, init, []⟩)
  /-- CNEW and DNEW (R171, R172). -/
  | clockNew {s : State} {c : Handle} {d : Option Divider} (hp : s.phase = .wiring) (hc : s.clock? c = none)
    (hd : Clock.counts ⟨d, []⟩ = true) : Change s (s.putClock c ⟨d, []⟩)
  /-- RAMNEW and ROMNEW (R191, R192, R194). -/
  | memNew {s : State} {m : Handle} {u : Mem} {fl : Flag} (hp : s.phase = .wiring) (hm : s.mem? m = none)
    (hrange : u.start < u.last ∧ u.last < Config.addressLimit) (hcells : Memory.wf (u.last - u.start + 1) u.contents)
    (ht : s.hasTriple ⟨u.abus, u.dbus, u.flag⟩ = true)
    (hram : u.kind = .ram → (s.bus? u.dbus).all (fun d => decide (d.width ≤ Config.cellWidth)) = true)
    (hf : s.flag? u.flag = some fl) (hl : .memory m ∉ fl.listeners) :
    Change s ((s.putMem m u).putFlag u.flag { fl with listeners := fl.listeners ++ [.memory m] })
  /-- MAPNEW (R216 to R220). -/
  | mapNew {s : State} {k : Handle} {u : Mapper} {fl : Flag} (hp : s.phase = .wiring) (hk : s.map? k = none)
    (hrange : u.first < u.last ∧ u.last < Config.addressLimit) (hu : u.kind.legal = true) (ho : s.hasTriple u.outer = true)
    (hi : s.hasTriple u.inner = true) (hne : u.outer.flag ≠ u.inner.flag) (hm : (s.mem? u.mem).any (fun w => onTriple w u.inner) = true)
    (hf : s.flag? u.outer.flag = some fl) (hl : .mapper k ∉ fl.listeners) :
    Change s ((s.putMap k u).putFlag u.outer.flag { fl with listeners := fl.listeners ++ [.mapper k] })
  /-- CARTNEW's cartridge (R253, R258). -/
  | cartNew {s : State} {q : Handle} {u : Cart} (hp : s.phase = .wiring) : Change s (s.putCart q u)
  /-- FADDL (R152). -/
  | flagHeard {s : State} {f x : Handle} {u : Flag} (hp : s.phase = .wiring) (hf : s.flag? f = some u)
    (hl : .external x ∉ u.listeners) : Change s (s.putFlag f { u with listeners := u.listeners ++ [.external x] })
  /-- CADDL (R173). -/
  | clockHeard {s : State} {c : Handle} {l : Listener} {u : Clock} (hp : s.phase = .wiring) (hc : s.clock? c = some u)
    (hl : l ∉ u.listeners) (hk : s.mayHearClock l = true) : Change s (s.putClock c { u with listeners := u.listeners ++ [l] })

/-- A sequence of elementary changes. -/
abbrev State.Changes : State → State → Prop := ReflTransGen State.Change

/-! ## Cascades -/

variable {s t : State}

/-- Every elementary change of a cascade is one. -/
theorem changes_kept : Kept State.Changes where
  refl _ := .refl
  trans _ _ _ := .trans
  bus _ _ _ _ hb hv := .single (.busValue hb hv)
  flag _ _ _ _ hf hv := .single (.flagValue hf hv)
  count _ _ _ _ hd hv hn := .single (.counter hd hv (.inr ⟨rfl, hn⟩))
  fire _ _ _ _ hd hv _ := .single (.counter hd hv (.inl rfl))
  cell _ _ _ _ _ hm hk hlo hhi := .single (.cell hm hk hlo hhi)
  bank _ _ _ _ _ _ hk hu hb := .single (.bank hk hu hb)
  ext s x e := .single (.aside (Table.put x.toNat e s.exts) s.stack s.report s.driver s.delivery)
  stack s fs := .single (.aside s.exts fs s.report s.driver s.delivery)

theorem changes_begin (s : State) (i : Instr) : s.Changes (s.begin i) := by
  unfold State.begin
  split
  · exact .single .enterRun
  · exact .refl

theorem changes_withReport (s : State) (r : Report) : s.Changes (s.withReport r) :=
  .single (.aside s.exts s.stack (some r) s.driver s.delivery)

/-! ## Configuration records: each check, and what stands after the checks have passed -/

/-- What a record that begins in state `s` may leave: a state reached by elementary changes, still in the wiring phase, with the dispatch
stack it found. -/
structure State.Builds (s t : State) : Prop where
  changes : s.Changes t
  phase : t.phase = .wiring
  stack : t.stack = s.stack

theorem builds_refl (h : s.phase = .wiring) : s.Builds s := ⟨.refl, h, rfl⟩

theorem builds_change {u : State} (h : s.Builds t) (hc : t.Change u) (hp : u.phase = t.phase) (hst : u.stack = t.stack) : s.Builds u :=
  ⟨h.changes.tail hc, hp.trans h.phase, hst.trans h.stack⟩

section Checks

variable {p : State → Prop} {k : Res}

theorem inWiring_leaves (hk : s.phase = .wiring → k.leaves p) : (inWiring s k).leaves p := by
  cases hp : s.phase with
  | wiring => rw [inWiring_wiring hp]; exact hk hp
  | run => rw [inWiring_run hp]; trivial

theorem require_leaves {c : Bool} {w : Refusal} (hk : c = true → k.leaves p) : (require c w k).leaves p := by
  cases c with
  | true => exact hk rfl
  | false => trivial

theorem withRange_leaves {lo hi : Word} (hs : p s) (hk : badRange lo hi = false → k.leaves p) : (withRange lo hi s k).leaves p := by
  cases h : badRange lo hi with
  | true => rw [withRange_bad h]; exact hs
  | false => rw [withRange_good h]; exact hk h

theorem withSize_leaves {lo hi : Word} {contents : Option (List Byte)} (hs : p s)
    (hk : (∀ cells, contents = some cells → cells.length = rangeSize lo hi) → k.leaves p) :
    (withSize lo hi contents s k).leaves p := by
  cases contents with
  | none => exact hk nofun
  | some cells =>
    rw [withSize]
    split
    · exact hk fun _ h => Option.some.inj h ▸ ‹_›
    · exact hs

theorem withTriple_leaves {t : Triple} (hk : s.hasTriple t = true → k.leaves p) : (withTriple t s k).leaves p := by
  rcases withTriple_cases t s k with ⟨ht, h⟩ | ⟨w, h⟩
  · rw [h]; exact hk ht
  · rw [h]; trivial

theorem withRamBus_leaves {kind : MemKind} {t : Triple}
    (hk : (kind = .ram → (s.bus? t.dbus).all (fun d => decide (d.width ≤ Config.cellWidth)) = true) → k.leaves p) :
    (withRamBus kind t s k).leaves p := by
  cases kind with
  | rom => exact hk nofun
  | ram =>
    cases hd : s.bus? t.dbus with
    | none => rw [withRamBus, withBus_none hd]; trivial
    | some d =>
      rw [withRamBus, withBus_some hd]
      exact require_leaves fun hw => hk fun _ => by rw [hd]; exact hw

theorem withMem_leaves {m : Handle} {k : Mem → Res} (hk : ∀ u, s.mem? m = some u → (k u).leaves p) : (withMem s m k).leaves p := by
  cases hm : s.mem? m with
  | none => rw [withMem_none hm]; trivial
  | some u => rw [withMem_some hm]; exact hk u hm

theorem flagAppend_leaves {f : Handle} {l : Listener}
    (hk : ∀ u, s.flag? f = some u → l ∉ u.listeners → p (s.putFlag f { u with listeners := u.listeners ++ [l] })) :
    (flagAppend f l s).leaves p := by
  cases hf : s.flag? f with
  | none => rw [flagAppend, withFlag_none hf]; trivial
  | some u =>
    by_cases hl : l ∈ u.listeners
    · rw [flagAppend_listed hf hl]; trivial
    · rw [flagAppend_fresh hf hl]; exact hk u hf hl

theorem clockAppend_leaves {c : Handle} {l : Listener}
    (hk : ∀ u, s.clock? c = some u → l ∉ u.listeners → p (s.putClock c { u with listeners := u.listeners ++ [l] })) :
    (clockAppend c l s).leaves p := by
  cases hc : s.clock? c with
  | none => rw [clockAppend, withClock_none hc]; trivial
  | some u =>
    by_cases hl : l ∈ u.listeners
    · rw [clockAppend_listed hc hl]; trivial
    · rw [clockAppend_fresh hc hl]; exact hk u hc hl

theorem withDivider_leaves {d : Handle} (hk : s.mayHearClock (.divider d) = true → k.leaves p) : (withDivider s d k).leaves p := by
  cases hd : s.clock? d with
  | none => rw [withDivider, withClock_none hd]; trivial
  | some u =>
    rw [withDivider, withClock_some hd]
    exact require_leaves fun hu => hk (by rw [State.mayHearClock, hd]; exact hu)

theorem andThen_leaves {r : Res} {k : State → Res} (hr : r.leaves p) (hk : ∀ t, p t → (k t).leaves p) : (r.andThen k).leaves p := by
  cases r with
  | ok t v => exact hk t hr
  | err t e => exact hr
  | refused w => trivial

end Checks

/-! ## Configuration records: what each leaves -/

/-- The cells a constructor gives a memory are canonical, of its size (R30, R191). -/
theorem wf_initialCells {lo hi : Word} {contents : Option (List Byte)}
    (h : ∀ cells, contents = some cells → cells.length = rangeSize lo hi) : Memory.wf (rangeSize lo hi) (initialCells contents) := by
  cases contents with
  | none => exact Memory.wf_empty _
  | some cells => exact h cells rfl ▸ Memory.wf_ofArray cells

theorem buildMem_builds {s₀ : State} (hs : s₀.Builds s) (kind : MemKind) (m : Handle) (start last : Word) (t : Triple)
    (contents : Option (List Byte)) : (buildMem kind m start last t contents s).leaves s₀.Builds := by
  refine withRange_leaves hs fun hrange => withSize_leaves hs fun hsize => require_leaves fun _ => require_leaves fun hm =>
    withTriple_leaves fun ht => withRamBus_leaves fun hram => flagAppend_leaves fun fl hf hl => ?_
  exact builds_change hs
    (.memNew hs.phase (Option.isNone_iff_eq_none.mp hm) (badRange_eq_false_nat.mp hrange) (wf_initialCells hsize) ht hram hf hl) rfl rfl

theorem buildMap_builds {s₀ : State} (hs : s₀.Builds s) {kind : MapKind} {operands : Res → Res}
    (hop : ∀ k : Res, (kind.legal = true → k.leaves s₀.Builds) → (operands k).leaves s₀.Builds) (k : Handle) (first last : Word)
    (outer inner : Triple) (mem : Handle) : (buildMap kind operands k first last outer inner mem s).leaves s₀.Builds := by
  refine withRange_leaves hs fun hrange => hop _ fun hkind => require_leaves fun hk => withTriple_leaves fun ho =>
    withTriple_leaves fun hi => require_leaves fun hne => withMem_leaves fun w hw => require_leaves fun hon =>
      flagAppend_leaves fun fl hf hl => ?_
  have hmem : (s.mem? mem).any (fun w => onTriple w inner) = true := by rw [hw]; exact hon
  exact builds_change hs
    (.mapNew hs.phase (Option.isNone_iff_eq_none.mp hk) (badRange_eq_false_nat.mp hrange) hkind ho hi (bne_iff_ne.mp hne) hmem hf hl)
    rfl rfl

theorem buildMirrored_builds {s₀ : State} (hs : s₀.Builds s) (k : Handle) (first last : Word) (outer inner : Triple) (mem : Handle)
    (mask : Word) : (buildMirrored k first last outer inner mem mask s).leaves s₀.Builds :=
  buildMap_builds hs (fun _ hk => require_leaves hk) k first last outer inner mem

theorem record_builds {k : Res} (h : settle (inWiring s k) = .next t) (hk : s.phase = .wiring → k.leaves s.Builds) :
    ∃ u r, s.Builds u ∧ t = u.withReport r := by
  have hl := inWiring_leaves hk
  rcases settle_next h with ⟨u, v, hr, rfl⟩ | ⟨u, e, hr, rfl⟩
  · rw [hr] at hl
    exact ⟨u, _, hl, rfl⟩
  · rw [hr] at hl
    exact ⟨u, _, hl, rfl⟩

/-- The next state of a configuration record is one it may leave, with the report put in. -/
theorem exec_record_builds {i : Instr} (hc : i.isCommand = false) (hr : i.isReaction = false) (h : exec i s = .next t) :
    ∃ u r, s.Builds u ∧ t = u.withReport r := by
  cases i with
  | bnew b width =>
    refine record_builds h fun hp => ?_
    split
    · exact builds_refl hp
    · rename_i hw
      have hnat : 1 ≤ width.toNat ∧ width.toNat ≤ Config.maxBusWidth := by
        have := (toInt_nonneg_iff width).mp (by omega)
        have := toInt_of_lt this
        omega
      exact require_leaves fun hb =>
        builds_change (builds_refl hp) (.busNew hp (Option.isNone_iff_eq_none.mp hb) hnat.1 hnat.2) rfl rfl
  | fnew f init =>
    exact record_builds h fun hp => require_leaves fun hv => require_leaves fun hf =>
      builds_change (builds_refl hp) (.flagNew hp (Option.isNone_iff_eq_none.mp hf) hv) rfl rfl
  | cnew c =>
    exact record_builds h fun hp => require_leaves fun hc =>
      builds_change (builds_refl hp) (.clockNew hp (Option.isNone_iff_eq_none.mp hc) rfl) rfl rfl
  | dnew c period =>
    refine record_builds h fun hp => require_leaves fun hper => require_leaves fun hc =>
      builds_change (builds_refl hp) (.clockNew hp (Option.isNone_iff_eq_none.mp hc) ?_) rfl rfl
    have hper : 1 ≤ period.toInt := of_decide_eq_true hper
    have := toInt_of_lt ((toInt_nonneg_iff period).mp (by omega))
    simp only [Clock.counts, Option.all_some, decide_eq_true_eq]
    omega
  | ramnew m start' last t contents => exact record_builds h fun hp => buildMem_builds (builds_refl hp) ..
  | romnew m start' last t contents => exact record_builds h fun hp => buildMem_builds (builds_refl hp) ..
  | mapnewI k first last outer inner mem =>
    exact record_builds h fun hp => buildMap_builds (builds_refl hp) (fun _ hk => hk rfl) ..
  | mapnewM k first last outer inner mem mask => exact record_builds h fun hp => buildMirrored_builds (builds_refl hp) ..
  | mapnewB k first last outer inner mem bases =>
    refine record_builds h fun hp => buildMap_builds (builds_refl hp)
      (fun _ hk => require_leaves fun hne => require_leaves fun hlim => hk ?_) ..
    have hpos : 0 < bases.length := List.length_pos_iff.mpr (by simpa using hne)
    simp [MapKind.legal, hlim, hpos]
  | faddl f l =>
    exact record_builds h fun hp => require_leaves fun _ => flagAppend_leaves fun u hf hl =>
      builds_change (builds_refl hp) (.flagHeard hp hf hl) rfl rfl
  | caddl c l =>
    refine record_builds h fun hp => ?_
    split
    · exact withDivider_leaves fun hd => require_leaves fun _ => clockAppend_leaves fun u hc hl =>
        builds_change (builds_refl hp) (.clockHeard hp hc hl hd) rfl rfl
    · exact require_leaves fun _ => clockAppend_leaves fun u hc hl =>
        builds_change (builds_refl hp) (.clockHeard hp hc hl rfl) rfl rfl
  | cartnew q mapperId mirroring outer inner mem map prg chr =>
    refine record_builds h fun hp => ?_
    split
    · exact builds_refl hp
    · split
      · exact builds_refl hp
      · refine require_leaves fun _ => andThen_leaves (p := s.Builds) ?_ fun u hu => builds_change hu (.cartNew hu.phase) rfl rfl
        exact andThen_leaves (buildMem_builds (builds_refl hp) ..) fun u hu => buildMirrored_builds hu ..
  | _ => simp [Instr.isCommand, Instr.isReaction] at hc hr

/-! ## Steps -/

/-- An operation is a sequence of elementary changes. -/
theorem exec_changes {i : Instr} (h : exec i s = .next t) : s.Changes t := by
  by_cases hi : i.isCommand = true ∨ i.isReaction = true
  · obtain ⟨u, r, hu, rfl⟩ := exec_kept changes_kept hi h
    exact ((changes_begin s i).trans hu).trans (changes_withReport u r)
  · obtain ⟨hc, hr⟩ := not_or.mp hi
    obtain ⟨u, r, hu, rfl⟩ := exec_record_builds (Bool.not_eq_true _ ▸ hc) (Bool.not_eq_true _ ▸ hr) h
    exact hu.changes.trans (changes_withReport u r)

/-- What `fetch` takes out leaves everything else as it was (R8, R40). -/
theorem fetch_run {i : Instr} {u : State} (h : fetch s = .run i u) :
    ∃ driver delivery, u = { s with driver := driver, delivery := delivery } := by
  unfold fetch fetchDelivery fetchDriver at h
  split at h <;> split at h
  · cases h
  · split at h
    · cases h; exact ⟨s.driver, none, rfl⟩
    · cases h
  · cases h
  · split at h
    · cases h
    · split at h
      · cases h
      · cases h; exact ⟨_, s.delivery, rfl⟩

/-- A step that goes on is idle, or carries out an operation on the state with it taken from its place (R8, R16, R40, R309). -/
theorem step_next (h : step s = .next t) :
    t = s ∨ ∃ i driver delivery, exec i { s with driver := driver, delivery := delivery } = .next t := by
  unfold step at h
  cases hf : fetch s with
  | idle => rw [hf] at h; cases h; exact .inl rfl
  | run i u =>
    rw [hf] at h
    obtain ⟨driver, delivery, rfl⟩ := fetch_run hf
    exact .inr ⟨i, driver, delivery, h⟩
  | refuse r => rw [hf] at h; cases h

/-- A step is a sequence of elementary changes. -/
theorem step_changes (h : step s = .next t) : s.Changes t := by
  rcases step_next h with rfl | ⟨i, driver, delivery, hx⟩
  · exact .refl
  · exact .head (.aside s.exts s.stack s.report driver delivery) (exec_changes hx)

/-- What every elementary change keeps a sequence of them keeps. -/
theorem changes_keep {p : State → Prop} (hp : ∀ s t : State, s.Change t → p s → p t) (h : s.Changes t) (hs : p s) : p t := by
  induction h with
  | refl => exact hs
  | tail _ hc ih => exact hp _ _ hc ih

/-- And so does every step. -/
theorem step_keeps {p : State → Prop} (hp : ∀ s t : State, s.Change t → p s → p t) (h : step s = .next t) (hs : p s) : p t :=
  changes_keep hp (step_changes h) hs

end Sys2Proof.Machine
end

section
/-! SUPPORT. The invariants of the units' values and ranges, each kept by every elementary change: O10, O18, O29, O38, O49, and O39. -/

namespace Sys2Proof.Machine

/-- What the new entry and every old one have, every entry of the table written has. -/
theorem forall_mem_put {α : Type} {p : Nat × α → Prop} {k : Nat} {v : α} {t : Table α} (hv : p (k, v)) (ht : ∀ q ∈ t, p q) :
    ∀ q ∈ Table.put k v t, p q := by
  intro q hq
  rcases Table.mem_put hq with rfl | hq
  · exact hv
  · exact ht q hq

variable {s t : State}

/-! ## Buses (R23) -/

theorem change_busesFit (h : s.Change t) (hs : s.busesFit) : t.busesFit := by
  cases h with
  | @busValue _ u v hb hv =>
    obtain ⟨hlo, hhi, -⟩ := hs _ (Table.look_mem hb)
    exact forall_mem_put ⟨hlo, hhi, hv (hhi.trans (by decide))⟩ hs
  | @busNew b width hp hb hlo hhi => exact forall_mem_put ⟨hlo, hhi, Nat.two_pow_pos width⟩ hs
  | _ => exact hs

/-- Settles O10: a bus takes only values that fit, and BNEW makes no other width. -/
theorem everyStepKeepsBusValuesMasked : Obligations.EveryStepKeepsBusValuesMasked :=
  fun _ _ hs h => step_keeps (p := State.busesFit) (fun _ _ => change_busesFit) h hs

/-! ## Flags (R25) -/

theorem change_flagsInSet (h : s.Change t) (hs : s.flagsInSet) : t.flagsInSet := by
  -- No change touches the defined values, so a flag put into the table needs its value in its set by the values of `s`.
  have put {f : Handle} {u : Flag} (hu : s.memberOf u.set u.value = true) : (s.putFlag f u).flagsInSet :=
    forall_mem_put hu hs
  -- A longer listener list leaves set and value as they are.
  have listed {f : Handle} {u : Flag} {ls : List Listener} (hf : s.flag? f = some u) :
      (s.putFlag f { u with listeners := ls }).flagsInSet := put (u := { u with listeners := ls }) (hs _ (Table.look_mem hf))
  cases h with
  | flagValue hf hv => exact put hv
  | flagNew hp hf hv => exact put (by simp [State.memberOf, hv])
  | memNew hp hm hrange hcells ht hram hf hl => exact listed hf
  | mapNew hp hk hrange hu ho hi hne hm hf hl => exact listed hf
  | flagHeard hp hf hl => exact listed hf
  | _ => exact hs

/-- Settles O18: a flag takes only defined members of its set, which no step changes. -/
theorem everyStepKeepsFlagsInTheirSets : Obligations.EveryStepKeepsFlagsInTheirSets :=
  fun _ _ hs h => step_keeps (p := State.flagsInSet) (fun _ _ => change_flagsInSet) h hs

/-! ## Clocks (R28) -/

theorem counts_some {u : Clock} {v : Divider} (hv : u.divider = some v) : u.counts = true ↔ 1 ≤ v.period ∧ v.counter < v.period := by
  simp [Clock.counts, hv]

theorem change_countersInRange (h : s.Change t) (hs : s.countersInRange) : t.countersInRange := by
  cases h with
  | @counter d u v n hd hv hn =>
    have hcount := (counts_some hv).mp (hs _ (Table.look_mem hd))
    exact forall_mem_put ((counts_some rfl).mpr (by simp only; omega)) hs
  | clockNew hp hc hd => exact forall_mem_put hd hs
  | clockHeard hp hc hl hk =>
    have hu := hs _ (Table.look_mem hc)
    exact forall_mem_put hu hs
  | _ => exact hs

/-- Settles O29: a counter is raised only to a number that is not the period, and else reset. -/
theorem everyStepKeepsCountersBelowPeriods : Obligations.EveryStepKeepsCountersBelowPeriods :=
  fun _ _ hs h => step_keeps (p := State.countersInRange) (fun _ _ => change_countersInRange) h hs

/-! ## Memories (R29, R30) -/

theorem change_memoriesCanonical (h : s.Change t) (hs : s.memoriesCanonical) : t.memoriesCanonical := by
  cases h with
  | cell hm hk hlo hhi =>
    obtain ⟨hlt, hlast, hwf⟩ := hs _ (Table.look_mem hm)
    exact forall_mem_put ⟨hlt, hlast, Memory.wf_write hwf (by simp only; omega) _⟩ hs
  | memNew hp hm hrange hcells ht hram hf hl => exact forall_mem_put ⟨hrange.1, hrange.2, hcells⟩ hs
  | _ => exact hs

/-- Settles O38: only cells of the range are written, and a constructor's contents are canonical. -/
theorem everyStepKeepsMemoriesCanonical : Obligations.EveryStepKeepsMemoriesCanonical :=
  fun _ _ hs h => step_keeps (p := State.memoriesCanonical) (fun _ _ => change_memoriesCanonical) h hs

/-- A ROM stays as it is: a cell is written in a RAM, and a new memory has a new handle (R30, R200). -/
theorem change_rom {m : Handle} {u : Mem} (hrom : u.kind = .rom) (h : s.Change t) (hs : s.mem? m = some u) : t.mem? m = some u := by
  cases h with
  | @cell m' u' a v hm hk hlo hhi =>
    have hne : m' ≠ m := by
      rintro rfl
      rw [hs] at hm
      cases hm
      rw [hrom] at hk
      cases hk
    rw [State.putMem_mem_ne s m' _ hne, hs]
  | @memNew m' u' fl hp hm hrange hcells ht hram hf hl =>
    have hne : m' ≠ m := by
      rintro rfl
      rw [hs] at hm
      cases hm
    rw [State.putFlag_mem', State.putMem_mem_ne s m' _ hne, hs]
  | _ => exact hs

/-- Settles O39. -/
theorem noStepChangesARom : Obligations.NoStepChangesARom :=
  fun _ _ m u hs hrom h => step_keeps (p := fun s => s.mem? m = some u) (fun _ _ => change_rom hrom) h hs

/-! ## Mappers (R31, R32) -/

theorem change_mappersLegal (h : s.Change t) (hs : s.mappersLegal) : t.mappersLegal := by
  cases h with
  | @bank k u bases sel bank hk hu hb =>
    obtain ⟨hlt, hlast, hlegal⟩ := hs _ (Table.look_mem hk)
    have hbases : bases.all inLimit = true := by
      rw [hu, MapKind.legal] at hlegal
      exact (Bool.and_eq_true_iff.mp hlegal).1
    exact forall_mem_put ⟨hlt, hlast, by simp [MapKind.legal, hbases, hb]⟩ hs
  | mapNew hp hk hrange hu ho hi hne hm hf hl => exact forall_mem_put ⟨hrange.1, hrange.2, hu⟩ hs
  | _ => exact hs

/-- Settles O49: MBSEL selects inside the bank table, and a constructor makes legal fields only. -/
theorem everyStepKeepsMappersLegal : Obligations.EveryStepKeepsMappersLegal :=
  fun _ _ hs h => step_keeps (p := State.mappersLegal) (fun _ _ => change_mappersLegal) h hs

end Sys2Proof.Machine
end

section
/-! SUPPORT. The tables of units stay keyed by handles, rising; a change outside the wiring phase leaves the configuration, and O56. -/

namespace Sys2Proof.Machine

variable {s t : State}

/-! ## Tables of units (R102) -/

/-- Every table of units is keyed by handles, rising: the first clause of `State.wellWired`. -/
abbrev State.unitsHandled (s : State) : Prop :=
  handled s.buses ∧ handled s.flags ∧ handled s.clocks ∧ handled s.mems ∧ handled s.maps

theorem handled_put {α : Type} (h : Handle) (v : α) {t : Table α} (ht : handled t) : handled (Table.put h.toNat v t) :=
  ⟨Table.rising_put _ v ht.1, forall_mem_put h.isLt ht.2⟩

theorem change_unitsHandled (h : s.Change t) (hs : s.unitsHandled) : t.unitsHandled := by
  obtain ⟨hbuses, hflags, hclocks, hmems, hmaps⟩ := hs
  cases h with
  | busValue | busNew => exact ⟨handled_put _ _ hbuses, hflags, hclocks, hmems, hmaps⟩
  | flagValue | flagNew | flagHeard => exact ⟨hbuses, handled_put _ _ hflags, hclocks, hmems, hmaps⟩
  | counter | clockNew | clockHeard => exact ⟨hbuses, hflags, handled_put _ _ hclocks, hmems, hmaps⟩
  | cell => exact ⟨hbuses, hflags, hclocks, handled_put _ _ hmems, hmaps⟩
  | bank => exact ⟨hbuses, hflags, hclocks, hmems, handled_put _ _ hmaps⟩
  | memNew => exact ⟨hbuses, handled_put _ _ hflags, hclocks, handled_put _ _ hmems, hmaps⟩
  | mapNew => exact ⟨hbuses, handled_put _ _ hflags, hclocks, hmems, handled_put _ _ hmaps⟩
  | aside | enterRun | cartNew => exact ⟨hbuses, hflags, hclocks, hmems, hmaps⟩

/-! ## Configuration (R20) -/

/-- Writing an entry over one of the same image leaves the table's image as it was. -/
theorem onEntries_put {α : Type} {g : α → α} {k : Nat} {u v : α} (hg : g v = g u) {t : Table α} (ht : Table.Rising t)
    (hk : Table.look t k = some u) : onEntries g (Table.put k v t) = onEntries g t := by
  induction t with
  | nil => cases hk
  | cons q t ih =>
    obtain ⟨j, w⟩ := q
    obtain ⟨hq, ht⟩ := List.pairwise_cons.mp ht
    rw [Table.look_cons] at hk
    split at hk
    · cases hk
      subst_vars
      simp [Table.put, onEntries, hg]
    · have hjk : j < k := hq _ (Table.look_mem hk)
      have htail : onEntries g (Table.put k v t) = onEntries g t := ih ht hk
      rw [Table.put, if_neg (by omega), if_neg (by omega)]
      exact congrArg ((j, g w) :: ·) htail

section Configuration

variable (hs : s.unitsHandled)
include hs

theorem configuration_putBus {b : Handle} {u v : Bus} (hb : s.bus? b = some u) (hv : v.configuration = u.configuration) :
    (s.putBus b v).configuration = s.configuration := by
  obtain ⟨⟨hr, -⟩, -⟩ := hs
  simp [State.configuration, onEntries_put hv hr hb]

theorem configuration_putFlag {f : Handle} {u v : Flag} (hf : s.flag? f = some u) (hv : v.configuration = u.configuration) :
    (s.putFlag f v).configuration = s.configuration := by
  obtain ⟨-, ⟨hr, -⟩, -⟩ := hs
  simp [State.configuration, onEntries_put hv hr hf]

theorem configuration_putClock {c : Handle} {u v : Clock} (hc : s.clock? c = some u) (hv : v.configuration = u.configuration) :
    (s.putClock c v).configuration = s.configuration := by
  obtain ⟨-, -, ⟨hr, -⟩, -⟩ := hs
  simp [State.configuration, onEntries_put hv hr hc]

theorem configuration_putMem {m : Handle} {u v : Mem} (hm : s.mem? m = some u) (hv : v.configuration = u.configuration) :
    (s.putMem m v).configuration = s.configuration := by
  obtain ⟨-, -, -, ⟨hr, -⟩, -⟩ := hs
  simp [State.configuration, onEntries_put hv hr hm]

theorem configuration_putMap {k : Handle} {u v : Mapper} (hk : s.map? k = some u) (hv : v.configuration = u.configuration) :
    (s.putMap k v).configuration = s.configuration := by
  obtain ⟨-, -, -, -, ⟨hr, -⟩⟩ := hs
  simp [State.configuration, onEntries_put hv hr hk]

/-- In the run phase only state is written: the records, which write configuration, are changes of the wiring phase (R305). -/
theorem change_configuration (hrun : s.phase = .run) (h : s.Change t) : t.configuration = s.configuration ∧ t.phase = .run := by
  cases h with
  | busValue hb hv => exact ⟨configuration_putBus hs hb rfl, hrun⟩
  | flagValue hf hv => exact ⟨configuration_putFlag hs hf rfl, hrun⟩
  | counter hd hv hn => exact ⟨configuration_putClock hs hd (by simp [Clock.configuration, hv]), hrun⟩
  | cell hm hk hlo hhi => exact ⟨configuration_putMem hs hm rfl, hrun⟩
  | bank hk hu hb => exact ⟨configuration_putMap hs hk (by simp [Mapper.configuration, MapKind.configuration, hu]), hrun⟩
  | aside => exact ⟨rfl, hrun⟩
  | enterRun => exact ⟨rfl, rfl⟩
  | busNew hp | flagNew hp | clockNew hp | memNew hp | mapNew hp | cartNew hp | flagHeard hp | clockHeard hp =>
    rw [hrun] at hp
    cases hp

end Configuration

/-- Settles O56. -/
theorem noRunPhaseStepChangesTheConfiguration : Obligations.NoRunPhaseStepChangesTheConfiguration := by
  rintro s t ⟨hs, -⟩ hrun h
  have kept : t.unitsHandled ∧ t.configuration = s.configuration ∧ t.phase = .run := by
    refine step_keeps (p := fun t => t.unitsHandled ∧ t.configuration = s.configuration ∧ t.phase = .run) ?_ h ⟨hs, rfl, hrun⟩
    rintro u v hc ⟨hu, hconf, hrun⟩
    obtain ⟨hconf', hrun'⟩ := change_configuration hu hrun hc
    exact ⟨change_unitsHandled hc hu, hconf'.trans hconf, hrun'⟩
  exact kept.2

end Sys2Proof.Machine
end

section
/-! SUPPORT. The wiring (R38): every elementary change keeps the units there are and how they are wired (`Extends`), what the wiring asks of
a state is kept under it, and O59; O60. -/

namespace Sys2Proof.Machine

variable {s t : State}

/-! ## Units stay, wired as they were -/

/-- Each unit of `s` is one of `t`, with no listener less and what else the wiring (R38) asks of it as it was. -/
structure State.Extends (s t : State) : Prop where
  bus : ∀ {b u}, s.bus? b = some u → ∃ v, t.bus? b = some v ∧ v.width = u.width
  flag : ∀ {f u}, s.flag? f = some u → ∃ v, t.flag? f = some v ∧ u.listeners ⊆ v.listeners
  clock : ∀ {c u}, s.clock? c = some u → ∃ v, t.clock? c = some v ∧ v.divider.isSome = u.divider.isSome
  mem : ∀ {m u}, s.mem? m = some u → ∃ v, t.mem? m = some v ∧ v.abus = u.abus ∧ v.dbus = u.dbus ∧ v.flag = u.flag
  map : ∀ {k u}, s.map? k = some u → ∃ v, t.map? k = some v ∧ v.outer = u.outer

/-- A write over an entry it is related to, or over none, leaves each key an entry related to the one it had. -/
theorem look_put_related {α : Type} {rel : α → α → Prop} (hrefl : ∀ u, rel u u) {k : Nat} {v : α} {t : Table α}
    (h : ∀ u, Table.look t k = some u → rel v u) {j : Nat} {u : α} (hj : Table.look t j = some u) :
    ∃ w, Table.look (Table.put k v t) j = some w ∧ rel w u := by
  rw [Table.look_put]
  split
  · subst_vars
    exact ⟨v, rfl, h u hj⟩
  · exact ⟨u, hj, hrefl u⟩

theorem extends_refl (s : State) : s.Extends s :=
  ⟨fun h => ⟨_, h, rfl⟩, fun h => ⟨_, h, List.Subset.refl _⟩, fun h => ⟨_, h, rfl⟩, fun h => ⟨_, h, rfl, rfl, rfl⟩,
    fun h => ⟨_, h, rfl⟩⟩

theorem extends_putBus {b : Handle} {v : Bus} (h : ∀ u, s.bus? b = some u → v.width = u.width) : s.Extends (s.putBus b v) :=
  { extends_refl s with bus := look_put_related (rel := fun v u : Bus => v.width = u.width) (fun _ => rfl) h }

theorem extends_putFlag {f : Handle} {v : Flag} (h : ∀ u, s.flag? f = some u → u.listeners ⊆ v.listeners) :
    s.Extends (s.putFlag f v) :=
  { extends_refl s with
    flag := look_put_related (rel := fun v u : Flag => u.listeners ⊆ v.listeners) (fun _ => List.Subset.refl _) h }

theorem extends_putClock {c : Handle} {v : Clock} (h : ∀ u, s.clock? c = some u → v.divider.isSome = u.divider.isSome) :
    s.Extends (s.putClock c v) :=
  { extends_refl s with
    clock := look_put_related (rel := fun v u : Clock => v.divider.isSome = u.divider.isSome) (fun _ => rfl) h }

theorem extends_putMem {m : Handle} {v : Mem}
    (h : ∀ u, s.mem? m = some u → v.abus = u.abus ∧ v.dbus = u.dbus ∧ v.flag = u.flag) : s.Extends (s.putMem m v) :=
  { extends_refl s with
    mem := look_put_related (rel := fun v u : Mem => v.abus = u.abus ∧ v.dbus = u.dbus ∧ v.flag = u.flag)
      (fun _ => ⟨rfl, rfl, rfl⟩) h }

theorem extends_putMap {k : Handle} {v : Mapper} (h : ∀ u, s.map? k = some u → v.outer = u.outer) : s.Extends (s.putMap k v) :=
  { extends_refl s with map := look_put_related (rel := fun v u : Mapper => v.outer = u.outer) (fun _ => rfl) h }

/-- A listener more on a flag's list. -/
theorem extends_append {f : Handle} {u : Flag} (hf : s.flag? f = some u) (l : Listener) :
    s.Extends (s.putFlag f { u with listeners := u.listeners ++ [l] }) :=
  extends_putFlag fun w hw => by
    cases hf.symm.trans hw
    exact List.subset_append_left _ _

/-- Every elementary change keeps the units there are, wired as they were. -/
theorem change_extends (h : s.Change t) : s.Extends t := by
  cases h with
  | busValue hb hv => exact extends_putBus (by simp [hb])
  | busNew hp hb hlo hhi => exact extends_putBus (by simp [hb])
  | flagValue hf hv => exact extends_putFlag (by simp [hf])
  | flagNew hp hf hv => exact extends_putFlag (by simp [hf])
  | flagHeard hp hf hl => exact extends_append hf _
  | counter hd hv hn => exact extends_putClock (by simp [hd, hv])
  | clockNew hp hc hd => exact extends_putClock (by simp [hc])
  | clockHeard hp hc hl hk => exact extends_putClock (by simp [hc])
  | cell hm hk hlo hhi => exact extends_putMem (by simp [hm])
  | memNew hp hm hrange hcells ht hram hf hl =>
    exact { extends_putMem (by simp [hm]) with flag := (extends_append hf _).flag }
  | bank hk hu hb => exact extends_putMap (by simp [hk])
  | mapNew hp hk hrange hu ho hi hne hm hf hl =>
    exact { extends_putMap (by simp [hk]) with flag := (extends_append hf _).flag }
  | aside | enterRun | cartNew => exact { extends_refl s with }

/-! ## What the wiring asks, kept as units are added -/

section Carried

variable (h : s.Extends t)
include h

theorem hasTriple_of_extends {r : Triple} (hs : s.hasTriple r = true) : t.hasTriple r = true := by
  obtain ⟨a, d, f, ha, hd, hf⟩ := hasTriple_iff.mp hs
  obtain ⟨a', ha', -⟩ := h.bus ha
  obtain ⟨d', hd', -⟩ := h.bus hd
  obtain ⟨f', hf', -⟩ := h.flag hf
  exact hasTriple_iff.mpr ⟨a', d', f', ha', hd', hf'⟩

theorem mayHearFlag_of_extends {f : Handle} {l : Listener} (hs : s.mayHearFlag f l = true) : t.mayHearFlag f l = true := by
  cases l with
  | divider d => exact hs
  | external x => exact hs
  | memory m =>
    obtain ⟨u, hu, hf⟩ := (Option.any_eq_true _ _).mp hs
    obtain ⟨v, hv, -, -, hflag⟩ := h.mem hu
    exact (Option.any_eq_true _ _).mpr ⟨v, hv, by rw [hflag]; exact hf⟩
  | mapper k =>
    obtain ⟨u, hu, hf⟩ := (Option.any_eq_true _ _).mp hs
    obtain ⟨v, hv, houter⟩ := h.map hu
    exact (Option.any_eq_true _ _).mpr ⟨v, hv, by rw [houter]; exact hf⟩

theorem mayHearClock_of_extends {l : Listener} (hs : s.mayHearClock l = true) : t.mayHearClock l = true := by
  cases l with
  | divider d =>
    obtain ⟨u, hu, hd⟩ := (Option.any_eq_true _ _).mp hs
    obtain ⟨v, hv, hdiv⟩ := h.clock hu
    exact (Option.any_eq_true _ _).mpr ⟨v, hv, by rw [hdiv]; exact hd⟩
  | external x => exact hs
  | memory m => exact hs
  | mapper k => exact hs

theorem hearsFlag_of_extends {f : Handle} {l : Listener} (hs : s.hearsFlag f l = true) : t.hearsFlag f l = true := by
  obtain ⟨u, hu, hl⟩ := (Option.any_eq_true _ _).mp hs
  obtain ⟨v, hv, hsub⟩ := h.flag hu
  exact (Option.any_eq_true _ _).mpr ⟨v, hv, List.contains_iff_mem.mpr (hsub (List.contains_iff_mem.mp hl))⟩

/-- A bus there is stays as narrow as it was. -/
theorem narrow_of_extends {b : Handle} {n : Nat} (hb : (s.bus? b).isSome = true)
    (hs : (s.bus? b).all (fun d => decide (d.width ≤ n)) = true) : (t.bus? b).all (fun d => decide (d.width ≤ n)) = true := by
  obtain ⟨u, hu⟩ := Option.isSome_iff_exists.mp hb
  obtain ⟨v, hv, hwidth⟩ := h.bus hu
  rw [hu] at hs
  rw [hv, Option.all_some, hwidth]
  exact hs

theorem placed_of_extends {m : Handle} {r : Triple} (hs : (s.mem? m).any (fun u => onTriple u r) = true) :
    (t.mem? m).any (fun u => onTriple u r) = true := by
  obtain ⟨u, hu, hon⟩ := (Option.any_eq_true _ _).mp hs
  obtain ⟨v, hv, habus, hdbus, hflag⟩ := h.mem hu
  exact (Option.any_eq_true _ _).mpr ⟨v, hv, by rw [onTriple, habus, hdbus, hflag]; exact hon⟩

end Carried

/-! ## The four clauses of the wiring -/

/-- A listener not yet listed, put at the end. -/
theorem listed_append {p : Listener → Prop} {ls : List Listener} {l : Listener} (hs : ls.Nodup ∧ ∀ k ∈ ls, p k) (hl : l ∉ ls)
    (hp : p l) : (ls ++ [l]).Nodup ∧ ∀ k ∈ ls ++ [l], p k :=
  ⟨List.nodup_append_comm.mp (List.nodup_cons.mpr ⟨hl, hs.1⟩),
    List.forall_mem_append.mpr ⟨hs.2, List.forall_mem_singleton.mpr hp⟩⟩

/-- A flag is heard by the listener just put at the end of its list. -/
theorem hearsFlag_appended (s : State) (f : Handle) (u : Flag) (l : Listener) :
    (s.putFlag f { u with listeners := u.listeners ++ [l] }).hearsFlag f l = true := by
  simp [State.hearsFlag]

theorem change_flagsWired (h : s.Change t) (hs : s.flagsWired) : t.flagsWired := by
  have hext := change_extends h
  have old : ∀ p ∈ s.flags, p.2.listeners.Nodup ∧ ∀ l ∈ p.2.listeners, t.mayHearFlag (BitVec.ofNat 8 p.1) l = true := fun p hp =>
    ⟨(hs p hp).1, fun l hl => mayHearFlag_of_extends hext ((hs p hp).2 l hl)⟩
  cases h with
  | flagValue hf hv =>
    have hu := old _ (Table.look_mem hf)
    exact forall_mem_put hu old
  | flagNew hp hf hv => exact forall_mem_put ⟨List.nodup_nil, nofun⟩ old
  | flagHeard hp hf hl => exact forall_mem_put (listed_append (old _ (Table.look_mem hf)) hl rfl) old
  | memNew hp hm hrange hcells ht hram hf hl =>
    exact forall_mem_put (listed_append (old _ (Table.look_mem hf)) hl (by simp [State.mayHearFlag])) old
  | mapNew hp hk hrange hu ho hi hne hm hf hl =>
    exact forall_mem_put (listed_append (old _ (Table.look_mem hf)) hl (by simp [State.mayHearFlag])) old
  | _ => exact old

theorem change_clocksWired (h : s.Change t) (hs : s.clocksWired) : t.clocksWired := by
  have hext := change_extends h
  have old : ∀ p ∈ s.clocks, p.2.listeners.Nodup ∧ ∀ l ∈ p.2.listeners, t.mayHearClock l = true := fun p hp =>
    ⟨(hs p hp).1, fun l hl => mayHearClock_of_extends hext ((hs p hp).2 l hl)⟩
  cases h with
  | counter hd hv hn =>
    have hu := old _ (Table.look_mem hd)
    exact forall_mem_put hu old
  | clockNew hp hc hd => exact forall_mem_put ⟨List.nodup_nil, nofun⟩ old
  | clockHeard hp hc hl hk =>
    exact forall_mem_put (listed_append (old _ (Table.look_mem hc)) hl (mayHearClock_of_extends hext hk)) old
  | _ => exact old

theorem change_memoriesWired (h : s.Change t) (hs : s.memoriesWired) : t.memoriesWired := by
  have hext := change_extends h
  have narrow {r : Triple} (hr : s.hasTriple r = true) : (s.bus? r.dbus).isSome = true := by
    obtain ⟨-, d, -, -, hd, -⟩ := hasTriple_iff.mp hr
    simp [hd]
  have old : ∀ p ∈ s.mems, t.hasTriple ⟨p.2.abus, p.2.dbus, p.2.flag⟩ = true ∧
      t.hearsFlag p.2.flag (.memory (BitVec.ofNat 8 p.1)) = true ∧
      (p.2.kind = .ram → (t.bus? p.2.dbus).all (fun u => decide (u.width ≤ Config.cellWidth)) = true) := fun p hp => by
    obtain ⟨htriple, hhears, hram⟩ := hs p hp
    exact ⟨hasTriple_of_extends hext htriple, hearsFlag_of_extends hext hhears,
      fun hk => narrow_of_extends hext (narrow htriple) (hram hk)⟩
  cases h with
  | cell hm hk hlo hhi =>
    have hu := old _ (Table.look_mem hm)
    exact forall_mem_put hu old
  | @memNew m u fl hp hm hrange hcells ht hram hf hl =>
    refine forall_mem_put ⟨hasTriple_of_extends hext ht, ?_, hram⟩ old
    rw [BitVec.ofNat_toNat, BitVec.setWidth_eq]
    exact hearsFlag_appended ..
  | _ => exact old

theorem change_mappersWired (h : s.Change t) (hs : s.mappersWired) : t.mappersWired := by
  have hext := change_extends h
  have old : ∀ p ∈ s.maps, t.hasTriple p.2.outer = true ∧ t.hasTriple p.2.inner = true ∧ p.2.outer.flag ≠ p.2.inner.flag ∧
      (t.mem? p.2.mem).any (fun u => onTriple u p.2.inner) = true ∧
      t.hearsFlag p.2.outer.flag (.mapper (BitVec.ofNat 8 p.1)) = true := fun p hp => by
    obtain ⟨houter, hinner, hne, hmem, hhears⟩ := hs p hp
    exact ⟨hasTriple_of_extends hext houter, hasTriple_of_extends hext hinner, hne, placed_of_extends hext hmem,
      hearsFlag_of_extends hext hhears⟩
  cases h with
  | bank hk hu hb =>
    have hu := old _ (Table.look_mem hk)
    exact forall_mem_put hu old
  | @mapNew k u fl hp hk hrange hu ho hi hne hm hf hl =>
    refine forall_mem_put ⟨hasTriple_of_extends hext ho, hasTriple_of_extends hext hi, hne, hm, ?_⟩ old
    rw [BitVec.ofNat_toNat, BitVec.setWidth_eq]
    exact hearsFlag_appended ..
  | _ => exact old

/-! ## O59 and O60 -/

theorem change_wellWired (h : s.Change t) (hs : s.wellWired) : t.wellWired := by
  obtain ⟨hhandled, hbuses, hmems, hmaps, hclocks, hflagsW, hclocksW, hmemsW, hmapsW⟩ := hs
  exact ⟨change_unitsHandled h hhandled, change_busesFit h hbuses, change_memoriesCanonical h hmems, change_mappersLegal h hmaps,
    change_countersInRange h hclocks, change_flagsWired h hflagsW, change_clocksWired h hclocksW, change_memoriesWired h hmemsW,
    change_mappersWired h hmapsW⟩

/-- Settles O59: each clause of the wiring by itself is kept by every elementary change. -/
theorem everyStepKeepsTheWiringWellFormed : Obligations.EveryStepKeepsTheWiringWellFormed :=
  fun _ _ hs h => step_keeps (p := State.wellWired) (fun _ _ => change_wellWired) h hs

/-- Settles O60: the empty fabric has no unit that could break an invariant. -/
theorem resetMeetsTheInvariants : Obligations.ResetMeetsTheInvariants := by
  unfold Obligations.ResetMeetsTheInvariants
  decide

end Sys2Proof.Machine
end

section
/-! SUPPORT. Every operation, with its whole cascade, leaves the dispatch stack as it found it, and O58. -/

namespace Sys2Proof.Machine

variable {s t : State}

/-- The stack an operation leaves, by `ok` or by `err`. -/
def Res.onStack (r : Res) (fs : List Frame) : Prop := r.leaves fun t => t.stack = fs

theorem ok_onStack (s : State) (v : Option Word) : (Res.ok s v).onStack s.stack := rfl

/-! ## Operations that carry out no other -/

theorem busWriteChecked_onStack (b : Handle) (v : Word) (s : State) : (busWriteChecked b v s).onStack s.stack := by
  rcases busWriteChecked_cases b v s with ⟨-, h⟩ | ⟨u, -, ⟨-, h⟩ | ⟨-, h⟩⟩
  · rw [h]; trivial
  · rw [h]; exact rfl
  · rw [h]; exact rfl

theorem relayWrite_onStack (b : Handle) (v : Word) (s : State) : (relayWrite b v s).onStack s.stack :=
  leaves_wrapped changes_kept (busWriteChecked_onStack b v s)

theorem relayCopy_onStack (dst src : Handle) (s : State) : (relayCopy dst src s).onStack s.stack := by
  cases hu : s.bus? src with
  | none => rw [relayCopy, withBus_none hu]; trivial
  | some u => rw [relayCopy_some hu]; exact relayWrite_onStack dst u.value s

theorem memAnswer_onStack (u : Mem) (dw : Delivery) {k : Nat → Res} (hk : ∀ a, (k a).onStack s.stack) :
    (memAnswer u dw s k).onStack s.stack := by
  rcases memAnswer_cases u dw s k with h | h | ⟨a, -, -, -, -, h⟩
  · rw [h]; exact rfl
  · rw [h]; trivial
  · rw [h]; exact hk _

theorem memRead_onStack (u : Mem) (dw : Delivery) (s : State) : (memRead u dw s).onStack s.stack :=
  memAnswer_onStack u dw fun _ => busWriteChecked_onStack _ _ s

theorem memWrite_onStack (m : Handle) (u : Mem) (dw : Delivery) (s : State) : (memWrite m u dw s).onStack s.stack := by
  refine memAnswer_onStack u dw fun a => ?_
  cases hd : s.bus? u.dbus with
  | none => rw [withBus_none hd]; trivial
  | some d =>
    rw [withBus_some hd]
    by_cases hv : d.value.toNat < 256
    · rw [cellStore_narrow hv]; exact rfl
    · rw [cellStore_wide hv]; trivial

theorem ramEffect_onStack (m : Handle) (u : Mem) (dw : Delivery) (s : State) (cls : ValueClass) :
    (ramEffect m u dw s cls).onStack s.stack := by
  cases cls with
  | read => exact memRead_onStack u dw s
  | write => exact memWrite_onStack m u dw s
  | other => exact rfl

theorem romEffect_onStack (u : Mem) (dw : Delivery) (s : State) (cls : ValueClass) : (romEffect u dw s cls).onStack s.stack := by
  cases cls with
  | read => exact memRead_onStack u dw s
  | write => exact rfl
  | other => exact rfl

theorem withMemReaction_onStack (kind : MemKind) (m : Handle) (dw : Delivery) {k : Mem → ValueClass → Res}
    (hk : ∀ u cls, (k u cls).onStack s.stack) : (withMemReaction kind m dw s k).onStack s.stack := by
  rcases withMemReaction_cases kind m dw s k with ⟨w, h⟩ | ⟨u, cls, -, -, -, h⟩
  · rw [h]; trivial
  · rw [h]; exact hk u cls

theorem withMapReaction_onStack (k : Handle) (dw : Delivery) {c : Mapper → ValueClass → Res}
    (hc : ∀ u cls, (c u cls).onStack s.stack) : (withMapReaction k dw s c).onStack s.stack := by
  rcases withMapReaction_cases k dw s c with ⟨w, h⟩ | ⟨u, cls, -, -, h⟩
  · rw [h]; trivial
  · rw [h]; exact hc u cls

theorem mapAnswer_onStack (u : Mapper) (dw : Delivery) {k : Word → Res} (hk : ∀ w, (k w).onStack s.stack) :
    (mapAnswer u dw s k).onStack s.stack := by
  rcases mapAnswer_cases u dw s k with h | ⟨w, h⟩ | ⟨a, v, -, -, -, -, -, h⟩
  · rw [h]; exact rfl
  · rw [h]; trivial
  · rw [h]; exact hk _

theorem runMxlt_onStack (k : Handle) (a : BitVec 31) (s : State) : (runMxlt k a s).onStack s.stack := by
  cases hu : s.map? k with
  | none => rw [runMxlt, withMap_none hu]; trivial
  | some u =>
    rw [runMxlt, withMap_some hu]
    cases translateAddress u a.toNat with
    | error w => trivial
    | ok v => exact rfl

theorem runMbsel_onStack (k : Handle) (bank : Byte) (s : State) : (runMbsel k bank s).onStack s.stack := by
  cases hu : s.map? k with
  | none => rw [runMbsel, withMap_none hu]; trivial
  | some u =>
    rw [runMbsel, withMap_some hu]
    cases u.kind with
    | identity => trivial
    | mirrored mask => trivial
    | banked bases sel => exact require_leaves fun _ => rfl

/-! ## Operations that carry out others -/

/-- What comes after an operation that leaves the stack finds it as it was. -/
theorem andThen_onStack {r : Res} {k : State → Res} (hr : r.onStack s.stack) (hk : ∀ t, (k t).onStack t.stack) :
    (r.andThen k).onStack s.stack :=
  andThen_leaves hr fun t ht => ht ▸ hk t

/-- Every dispatch ends by putting back the stack it found (R35, R164). -/
theorem dispatch_onStack (nested : Instr → State → Res) (react : State → Listener → Except Refusal Instr) (frame : Nat → Frame)
    (ls : List Listener) (s : State) : (dispatch nested react frame ls s).onStack s.stack := by
  unfold dispatch
  cases deliverAll nested react frame s.stack 0 ls s with
  | ok t v => exact rfl
  | err t e => exact rfl
  | refused w => trivial

theorem runFset_onStack (nested : Instr → State → Res) (f : Handle) (val : Byte) (s : State) :
    (runFset nested f val s).onStack s.stack := by
  cases hu : s.flag? f with
  | none => rw [runFset, withFlag_none hu]; trivial
  | some u =>
    rw [runFset, withFlag_some hu]
    exact require_leaves fun _ => dispatch_onStack nested _ _ _ (s.putFlag f { u with value := val })

theorem runTick_onStack (nested : Instr → State → Res) (c : Handle) (s : State) : (runTick nested c s).onStack s.stack := by
  cases hu : s.clock? c with
  | none => rw [runTick, withClock_none hu]; trivial
  | some u =>
    rw [runTick, withClock_some hu]
    exact require_leaves fun _ => dispatch_onStack nested _ _ _ s

theorem pulses_onStack (nested : Instr → State → Res) (c : Handle) (n : Nat) (s : State) : (pulses nested c n s).onStack s.stack := by
  induction n generalizing s with
  | zero => exact rfl
  | succ n ih => exact andThen_onStack (runTick_onStack nested c s) ih

theorem runTickn_onStack (nested : Instr → State → Res) (c : Handle) (n : Word) (s : State) :
    (runTickn nested c n s).onStack s.stack := by
  cases hu : s.clock? c with
  | none => rw [runTickn, withClock_none hu]; trivial
  | some u => rw [runTickn, withClock_some hu]; exact pulses_onStack nested c _ s

theorem withFormed_leaves {p : State → Prop} {dw : Delivery} {k : Res} (hk : k.leaves p) : (withFormed dw k).leaves p := by
  unfold withFormed
  split
  · exact hk
  · trivial

theorem withPulse_leaves {p : State → Prop} {dw : Delivery} {k : Res} (hk : k.leaves p) : (withPulse dw k).leaves p := by
  refine withFormed_leaves ?_
  split
  · exact hk
  · trivial

section Nested

variable {nested : Instr → State → Res} (hn : ∀ i s, (nested i s).onStack s.stack)
include hn

theorem runCommands_onStack (cs : List ExtCommand) (s : State) : (runCommands nested cs s).onStack s.stack := by
  induction cs generalizing s with
  | nil => exact rfl
  | cons c cs ih =>
    by_cases hc : c.command.isCommand = true
    · have hs := hn c.command s
      cases hr : nested c.command s with
      | ok t v =>
        rw [hr] at hs
        rw [runCommands_ok hc hr, ← show t.stack = s.stack from hs]
        exact ih t
      | err t e =>
        rw [hr] at hs
        rw [runCommands_err hc hr, ← show t.stack = s.stack from hs]
        split
        · exact ih t
        · exact rfl
      | refused w => rw [runCommands, if_pos hc, hr]; trivial
    · rw [runCommands, if_neg hc]; trivial

theorem extReact_onStack (x : Handle) (ev : Event) (s : State) : (extReact nested x ev s).onStack s.stack := by
  refine andThen_onStack (runCommands_onStack hn _ (s.moveOn x ev)) fun t => ?_
  cases (s.reaction x ev).failure with
  | none => exact rfl
  | some code => exact rfl

theorem runDivOnt_onStack (d : Handle) (dw : Delivery) (s : State) : (runDivOnt nested d dw s).onStack s.stack := by
  refine withPulse_leaves ?_
  cases hu : s.clock? d with
  | none => rw [withClock_none hu]; trivial
  | some u =>
    rw [withClock_some hu]
    cases u.divider with
    | none => trivial
    | some v =>
      simp only
      split
      · exact andThen_onStack (hn _ (s.putClock d { u with divider := some { v with counter := 0 } })) fun t => ok_onStack t none
      · exact rfl

theorem mapEffect_onStack (u : Mapper) (dw : Delivery) (s : State) (cls : ValueClass) : (mapEffect nested u dw s cls).onStack s.stack := by
  cases cls with
  | read =>
    exact mapAnswer_onStack u dw fun w => andThen_onStack (relayWrite_onStack _ w s) fun s₁ =>
      andThen_onStack (hn _ s₁) fun s₂ => relayCopy_onStack _ _ s₂
  | write =>
    exact mapAnswer_onStack u dw fun w => andThen_onStack (relayWrite_onStack _ w s) fun s₁ =>
      andThen_onStack (relayCopy_onStack _ _ s₁) fun s₂ => andThen_onStack (hn _ s₂) fun s₃ => ok_onStack s₃ none
  | other =>
    exact mapAnswer_onStack u dw fun w => andThen_onStack (relayWrite_onStack _ w s) fun s₁ =>
      andThen_onStack (hn _ s₁) fun s₂ => ok_onStack s₂ none

/-- One operation of a cascade leaves the stack as it found it, if those it carries out do. -/
theorem act_onStack (i : Instr) (s : State) : (act nested i s).onStack s.stack := by
  cases i with
  | brd b =>
    cases hu : s.bus? b with
    | none => rw [act, runBrd, withBus_none hu]; trivial
    | some u => rw [act, runBrd, withBus_some hu]; exact rfl
  | bwc b v => exact busWriteChecked_onStack b v s
  | bwm b v =>
    cases hu : s.bus? b with
    | none => rw [act, runBwm, busWriteMasked, withBus_none hu]; trivial
    | some u => rw [act, runBwm, busWriteMasked_some v hu]; exact rfl
  | fget f =>
    cases hu : s.flag? f with
    | none => rw [act, runFget, withFlag_none hu]; trivial
    | some u => rw [act, runFget, withFlag_some hu]; exact rfl
  | fset f val => exact runFset_onStack nested f val s
  | tick c => exact runTick_onStack nested c s
  | tickn c n => exact runTickn_onStack nested c n s
  | mxlt k a => exact runMxlt_onStack k a s
  | mbsel k bank => exact runMbsel_onStack k bank s
  | divOnt d dw => exact runDivOnt_onStack hn d dw s
  | extOnt x dw => exact withPulse_leaves (extReact_onStack hn x _ s)
  | extOnf x dw => exact withFormed_leaves (extReact_onStack hn x _ s)
  | ramRd m dw | ramWr m dw | ramOth m dw => exact withMemReaction_onStack .ram m dw fun u cls => ramEffect_onStack m u dw s cls
  | romRd m dw | romWr m dw | romOth m dw => exact withMemReaction_onStack .rom m dw fun u cls => romEffect_onStack u dw s cls
  | mapRd k dw | mapWr k dw | mapOth k dw => exact withMapReaction_onStack k dw fun u cls => mapEffect_onStack hn u dw s cls
  | _ => trivial

end Nested

theorem perform_onStack (n : Nat) (i : Instr) (s : State) : (perform n i s).onStack s.stack := by
  induction n generalizing i s with
  | zero => trivial
  | succ n ih => exact act_onStack ih i s

/-! ## O58 -/

theorem exec_stack {i : Instr} (h : exec i s = .next t) : t.stack = s.stack := by
  by_cases hi : i.isCommand = true ∨ i.isReaction = true
  · have hbegin : (s.begin i).stack = s.stack := by
      unfold State.begin
      split <;> rfl
    have hs := perform_onStack (s.fuel + 1) i (s.begin i)
    rw [exec_eq_perform i s hi] at h
    rcases settle_next h with ⟨u, v, hr, rfl⟩ | ⟨u, e, hr, rfl⟩
    · rw [hr] at hs; exact Eq.trans hs hbegin
    · rw [hr] at hs; exact Eq.trans hs hbegin
  · obtain ⟨hc, hr⟩ := not_or.mp hi
    obtain ⟨u, r, hu, rfl⟩ := exec_record_builds (Bool.not_eq_true _ ▸ hc) (Bool.not_eq_true _ ▸ hr) h
    exact hu.stack

/-- Settles O58: a dispatch puts back the stack it found, and nothing else touches it. -/
theorem everyStepLeavesTheStackAsItWas : Obligations.EveryStepLeavesTheStackAsItWas := by
  intro s t h
  rcases step_next h with rfl | ⟨i, driver, delivery, hx⟩
  · rfl
  · have hs := exec_stack hx
    exact hs

end Sys2Proof.Machine
end

section
/-! SUPPORT. A re-entrant FSET: a dispatch of two listeners that completes, what a delivery writes of a listener, and O15. -/

namespace Sys2Proof.Machine

variable {s t : State} {x y f : Handle} {val : Byte}

/-! ## Deliveries and dispatches inside a cascade -/

theorem perform_extOnf (n : Nat) (s : State) (x f : Handle) (val : Byte) :
    perform (n + 1) (.extOnf x ⟨0#16, f, val⟩) s = extReact (perform n) x (.onFlagChange val f) s := by
  rw [perform_succ, act, runExtOnf, withFormed_zero rfl]

/-- A dispatch of two listeners that both succeed. -/
theorem dispatch_two_ok {nested : Instr → State → Res} {react : State → Listener → Except Refusal Instr} {frame : Nat → Frame}
    {l m : Listener} {r q : Instr} {s₁ s₂ : State} {v w : Option Word} (hl : react s l = .ok r)
    (hr : nested r (s.withStack (frame 0 :: s.stack)) = .ok s₁ v) (hm : react s₁ m = .ok q)
    (hq : nested q (s₁.withStack (frame 1 :: s.stack)) = .ok s₂ w) :
    dispatch nested react frame [l, m] s = .ok (s₂.withStack s.stack) none := by
  rw [dispatch, deliverAll_cons_ok hl hr, deliverAll_cons_ok hm hq, deliverAll_nil, unwound_ok]

/-! ## What a delivery writes of a listener (R161, log 6) -/

theorem moveOn_seen_self (s : State) (x : Handle) (ev : Event) : ((s.moveOn x ev).ext x).seen = (s.ext x).seen ++ [ev] := by
  rw [State.moveOn, State.putExt_ext_self]

theorem moveOn_ext_ne (s : State) (ev : Event) (h : x ≠ y) : (s.moveOn x ev).ext y = s.ext y :=
  State.putExt_ext_ne s x _ h

/-! ## Two listeners, the second of which observes -/

/-- The first listener's reaction is carried out to its end, whatever it is, before the second listener sees the value (R155, R158). -/
theorem runFset_two {u : Flag} {s₁ : State} {v : Option Word} {n : Nat} (hf : s.flag? f = some u) (hv : s.memberOf u.set val = true)
    (hls : u.listeners = [.external x, .external y]) (hs₁ : s.putFlag f { u with value := val } = s₁)
    (hx : ∀ fs, extReact (perform n) x (.onFlagChange val f) (s₁.withStack fs) = .ok (t.withStack fs) v) (hy : t.observes y) :
    runFset (perform (n + 1)) f val s = .ok ((t.moveOn y (.onFlagChange val f)).withStack s.stack) none := by
  have hfirst (fs : List Frame) : perform (n + 1) (.extOnf x ⟨0#16, f, val⟩) (s₁.withStack fs) = .ok (t.withStack fs) v := by
    rw [perform_extOnf, hx]
  have hsecond (fs gs : List Frame) : perform (n + 1) (.extOnf y ⟨0#16, f, val⟩) ((t.withStack fs).withStack gs) =
      .ok ((t.moveOn y (.onFlagChange val f)).withStack gs) none := act_extOnf_observer (s := t.withStack gs) _ f val hy
  have hstack : s₁.stack = s.stack := hs₁ ▸ rfl
  rw [runFset, withFlag_some hf, hv, require_true, hs₁, hls, dispatch_two_ok rfl (hfirst _) rfl (hsecond _ _), hstack,
    State.withStack_withStack]

/-! ## O15 -/

/-- Settles O15: the nested FSET's cascade is carried out inside the first delivery, so the second listener sees the nested value first. -/
theorem reentrantFsetIsDepthFirst : Obligations.ReentrantFsetIsDepthFirst := by
  intro s s₁ s₂ f x y u val val' h own own' hf hv hv' hls hxy hs₁ hr₁ hs₂ hr₂ hy hfuel
  obtain ⟨n, hn⟩ := Nat.exists_eq_add_of_le' hfuel
  have hmove : s₁.moveOn x (.onFlagChange val f) = s₁.putExt x ⟨own, (s.ext x).seen ++ [.onFlagChange val f]⟩ := by
    rw [moveOn_eq hr₁, hs₁]
    rfl
  have hf₁ : s₁.flag? f = some { u with value := val } := by rw [hs₁]; exact State.putFlag_flag_self ..
  have hv₁ : s₁.memberOf u.set val' = true := by rw [hs₁]; exact hv'
  have hy₂ : s₂.observes y := by rw [hs₂, hs₁]; exact hy
  have hsilent (fs : List Frame) : extReact (perform n) x (.onFlagChange val' f) (s₂.withStack fs) =
      .ok ((s₂.moveOn x (.onFlagChange val' f)).withStack fs) none :=
    extReact_silent (s := s₂.withStack fs) _ (congrArg Reaction.commands hr₂) (congrArg Reaction.failure hr₂)
  -- Once x has issued the nested FSET, x and y have both seen its value.
  obtain ⟨s₄, hs₄⟩ : ∃ s₄, s₄ = (s₂.moveOn x (.onFlagChange val' f)).moveOn y (.onFlagChange val' f) := ⟨_, rfl⟩
  have hnested (fs : List Frame) : extReact (perform (n + 2)) x (.onFlagChange val f) (s₁.withStack fs) = .ok (s₄.withStack fs) none := by
    have hfset : perform (n + 2) (.fset f val') ((s₁.withStack fs).moveOn x (.onFlagChange val f)) = .ok (s₄.withStack fs) none := by
      rw [State.moveOn_withStack, hmove, hs₄]
      refine runFset_two (s₁ := s₂.withStack fs) hf₁ hv₁ hls ?_ hsilent hy₂
      rw [hs₂]
      rfl
    exact extReact_ok (s := s₁.withStack fs) hr₁ (runCommands_ok (cs := []) rfl hfset) rfl
  have houter : runFset (perform s.fuel) f val s.enterRun = .ok ((s₄.moveOn y (.onFlagChange val f)).withStack s.stack) none := by
    rw [hn]
    exact runFset_two hf hv hls hs₁.symm hnested (by rw [hs₄]; exact hy₂)
  have hexts₂ : ∀ z, z ≠ x → s₂.ext z = s.ext z := fun z hz => by
    rw [hs₂, hs₁]
    exact State.putExt_ext_ne _ x _ hz.symm
  refine ⟨_, by rw [exec, execFset, houter, settle_ok], rfl, ?flag, ?seenX, ?seenY, ?others, ?flags, ?frame⟩
  case flag =>
    rw [hs₄, hs₂]
    exact State.putFlag_flag_self ..
  case seenX =>
    have hx₂ : (s₂.ext x).seen = (s.ext x).seen ++ [.onFlagChange val f] := by
      rw [hs₂, State.putFlag_ext', State.putExt_ext_self]
    rw [State.withReport_ext', State.withStack_ext', moveOn_ext_ne _ _ hxy.symm, hs₄, moveOn_ext_ne _ _ hxy.symm, moveOn_eq hr₂,
      State.putExt_ext_self, hx₂, List.append_assoc]
    rfl
  case seenY =>
    rw [State.withReport_ext', State.withStack_ext', moveOn_seen_self, hs₄, moveOn_seen_self, moveOn_ext_ne _ _ hxy,
      hexts₂ y hxy.symm, List.append_assoc]
    rfl
  case others =>
    intro z hzx hzy
    rw [State.withReport_ext', State.withStack_ext', moveOn_ext_ne _ _ hzy.symm, hs₄, moveOn_ext_ne _ _ hzy.symm,
      moveOn_ext_ne _ _ hzx.symm, hexts₂ z hzx]
  case flags =>
    intro g hg
    rw [hs₄, hs₂, hs₁]
    exact (State.putFlag_flag_ne _ f _ hg.symm).trans (State.putFlag_flag_ne _ f _ hg.symm)
  case frame =>
    rw [hs₄, hs₂, hs₁]
    exact ⟨rfl, rfl, rfl, rfl, rfl, rfl⟩

end Sys2Proof.Machine
end

section
/-! SUPPORT. The constructors of memories and mappers when their checks pass and where they refuse, O31, and O17. -/

namespace Sys2Proof.Machine

variable {s : State}

/-! ## Ranges and sizes (R14, R193) -/

theorem legal_range {lo hi : Word} (hlo : 0 ≤ lo.toInt) (hlt : lo.toInt < hi.toInt) : badRange lo hi = false :=
  badRange_eq_false.mpr ⟨hlo, by omega, hlt⟩

theorem rangeSize_eq {lo hi : Word} (hlo : 0 ≤ lo.toInt) (hlt : lo.toInt < hi.toInt) :
    (rangeSize lo hi : Int) = hi.toInt - lo.toInt + 1 := by
  have hlo' := toInt_of_lt ((toInt_nonneg_iff lo).mp hlo)
  have hhi' := toInt_of_lt ((toInt_nonneg_iff hi).mp (by omega))
  unfold rangeSize
  omega

theorem withSize_fits {lo hi : Word} {contents : Option (List Byte)}
    (h : ∀ cells, contents = some cells → cells.length = rangeSize lo hi) (k : Res) : withSize lo hi contents s k = k := by
  cases contents with
  | none => rfl
  | some cells => exact if_pos (h cells rfl)

theorem withRamBus_narrow {kind : MemKind} {t : Triple} {d : Bus} (hd : s.bus? t.dbus = some d)
    (h : kind = .ram → d.width ≤ 8) (k : Res) : withRamBus kind t s k = k := by
  cases kind with
  | rom => rfl
  | ram => rw [withRamBus, withBus_some hd, decide_eq_true (p := d.width ≤ Config.cellWidth) (h rfl), require_true]

theorem withRamBus_wide {t : Triple} {d : Bus} (hd : s.bus? t.dbus = some d) (h : 8 < d.width) (k : Res) :
    withRamBus .ram t s k = .refused .ramBusTooWide := by
  rw [withRamBus, withBus_some hd, decide_eq_false (p := d.width ≤ Config.cellWidth) (Nat.not_le.mpr h), require_false]

/-! ## Construction of a memory (R191 to R194) -/

section BuildMem

variable {kind : MemKind} {m : Handle} {start last : Word} {t : Triple} {contents : Option (List Byte)} {fl : Flag} {d : Bus}
  (hr : badRange start last = false) (hsize : ∀ cells, contents = some cells → cells.length = rangeSize start last)
include hr hsize

theorem buildMem_large (h : 2 ^ 31 ≤ rangeSize start last) : buildMem kind m start last t contents s = .refused .tooLarge := by
  rw [buildMem, withRange_good hr, withSize_fits hsize,
    decide_eq_false (p := rangeSize start last < Config.addressLimit) (Nat.not_lt.mpr h), require_false]

variable (hlim : rangeSize start last < 2 ^ 31)
include hlim

theorem buildMem_inUse {u : Mem} (hm : s.mem? m = some u) :
    buildMem kind m start last t contents s = .refused (.handleInUse .memory m) := by
  rw [buildMem, withRange_good hr, withSize_fits hsize, decide_eq_true (p := rangeSize start last < Config.addressLimit) hlim,
    require_true, hm, Option.isNone_some, require_false]

variable (hm : s.mem? m = none) (ht : s.hasTriple t = true)
include hm ht

/-- With a new handle and its three units there, what is left is the RAM's bus and the flag's list. -/
theorem buildMem_fresh : buildMem kind m start last t contents s =
    withRamBus kind t s (flagAppend t.flag (.memory m)
      (s.putMem m ⟨kind, start.toNat, last.toNat, t.abus, t.dbus, t.flag, initialCells contents⟩)) := by
  rw [buildMem, withRange_good hr, withSize_fits hsize, decide_eq_true (p := rangeSize start last < Config.addressLimit) hlim,
    require_true, hm, Option.isNone_none, require_true, withTriple_has ht]

end BuildMem

section RamnewRomnew

variable {m : Handle} {start last : Word} {t : Triple} {contents : Option (List Byte)} (hp : s.phase = .wiring)
include hp

theorem exec_ramnew : exec (.ramnew m start last t contents) s = settle (buildMem .ram m start last t contents s) := by
  rw [exec, execRamnew, inWiring_wiring hp]

theorem exec_romnew : exec (.romnew m start last t contents) s = settle (buildMem .rom m start last t contents s) := by
  rw [exec, execRomnew, inWiring_wiring hp]

end RamnewRomnew

/-- Cell `i` of a new memory is element `i` of the contents, or 0 (R30, R41). -/
theorem read_initialCells (contents : Option (List Byte)) (i : Nat) :
    Memory.read (initialCells contents) i = ((contents.getD [])[i]?).getD 0#8 := by
  cases contents with
  | none => rfl
  | some cells => exact Memory.read_ofArray i cells

/-- Settles O31: the cells are the contents' own canonical form, the same for both kinds. -/
theorem ramnewAndRomnewMakeTheMemory : Obligations.RamnewAndRomnewMakeTheMemory := by
  intro s m start last t contents a d fl hp hlo hlt hlim hlen hm ha hd hf hl
  have hrange := rangeSize_eq hlo hlt
  have hsize : ∀ cells, contents = some cells → cells.length = rangeSize start last := fun cells hc => by
    have := hlen cells hc
    omega
  have ht : s.hasTriple t = true := hasTriple_iff.mpr ⟨a, d, fl, ha, hd, hf⟩
  have made {kind : MemKind} (hk : kind = .ram → d.width ≤ 8) : settle (buildMem kind m start last t contents s) =
      .next (((s.putMem m ⟨kind, start.toNat, last.toNat, t.abus, t.dbus, t.flag, initialCells contents⟩).putFlag t.flag
        { fl with listeners := fl.listeners ++ [.memory m] }).withReport (.ok none)) := by
    rw [buildMem_fresh (legal_range hlo hlt) hsize (by omega) hm ht, withRamBus_narrow hd hk,
      flagAppend_fresh ((State.putMem_flag' s m _ t.flag).trans hf) hl, settle_ok]
  exact ⟨initialCells contents, read_initialCells contents, wf_initialCells hsize,
    fun hw => (exec_ramnew hp).trans (made fun _ => hw), (exec_romnew hp).trans (made nofun)⟩

/-! ## Construction of a mapper (R216 to R220) -/

section BuildMap

variable {kind : MapKind} {operands : Res → Res} {k : Handle} {first last : Word} {outer inner : Triple} {mem : Handle}
  (hr : badRange first last = false) (hop : ∀ r, operands r = r)
include hr hop

theorem buildMap_inUse {u : Mapper} (hk : s.map? k = some u) :
    buildMap kind operands k first last outer inner mem s = .refused (.handleInUse .mapper k) := by
  rw [buildMap, withRange_good hr, hop, hk, Option.isNone_some, require_false]

variable (hk : s.map? k = none) (ho : s.hasTriple outer = true) (hi : s.hasTriple inner = true)
include hk ho hi

theorem buildMap_flagsEqual (hf : outer.flag = inner.flag) :
    buildMap kind operands k first last outer inner mem s = .refused .mapperFlagsEqual := by
  rw [buildMap, withRange_good hr, hop, hk, Option.isNone_none, require_true, withTriple_has ho, withTriple_has hi,
    bne_eq_false_iff_eq.mpr hf, require_false]

/-- With a new handle, its six units there and two flags, what is left is the memory and the flag's list. -/
theorem buildMap_fresh (hf : outer.flag ≠ inner.flag) : buildMap kind operands k first last outer inner mem s =
    withMem s mem fun u => require (onTriple u inner) .mapperMisplaced <|
      flagAppend outer.flag (.mapper k) (s.putMap k ⟨kind, first.toNat, last.toNat, outer, inner, mem⟩) := by
  rw [buildMap, withRange_good hr, hop, hk, Option.isNone_none, require_true, withTriple_has ho, withTriple_has hi,
    bne_iff_ne.mpr hf, require_true]

variable (hf : outer.flag ≠ inner.flag)
include hf

theorem buildMap_noMemory (hm : s.mem? mem = none) :
    buildMap kind operands k first last outer inner mem s = .refused (.noSuchUnit .memory mem) := by
  rw [buildMap_fresh hr hop hk ho hi hf, withMem_none hm]

theorem buildMap_misplaced {w : Mem} (hm : s.mem? mem = some w)
    (hw : ¬(w.abus = inner.abus ∧ w.dbus = inner.dbus ∧ w.flag = inner.flag)) :
    buildMap kind operands k first last outer inner mem s = .refused .mapperMisplaced := by
  have hon : onTriple w inner = false := by simpa [onTriple] using hw
  rw [buildMap_fresh hr hop hk ho hi hf, withMem_some hm, hon, require_false]

end BuildMap

section Mapnew

variable {k : Handle} {first last : Word} {outer inner : Triple} {mem : Handle} (hp : s.phase = .wiring)
include hp

/-- A mapper constructor whose own operands are legal is the construction alone. -/
theorem exec_mapnew {i : Instr} (hi : i = .mapnewI k first last outer inner mem ∨
    (∃ mask, mask.toNat < 2 ^ 31 ∧ i = .mapnewM k first last outer inner mem mask) ∨
    ∃ bases, bases ≠ [] ∧ (∀ b ∈ bases, b.toNat < 2 ^ 31) ∧ i = .mapnewB k first last outer inner mem bases) :
    ∃ kind operands, (∀ r, operands r = r) ∧ exec i s = settle (buildMap kind operands k first last outer inner mem s) := by
  rcases hi with rfl | ⟨mask, hmask, rfl⟩ | ⟨bases, hne, hbases, rfl⟩
  · exact ⟨.identity, id, fun _ => rfl, by rw [exec, execMapnewI, inWiring_wiring hp]⟩
  · have hlim : inLimit mask = true := decide_eq_true hmask
    exact ⟨.mirrored mask, require (inLimit mask) .tooLarge, fun r => by rw [hlim, require_true],
      by rw [exec, execMapnewM, inWiring_wiring hp, buildMirrored]⟩
  · have hsome : (!bases.isEmpty) = true := by simpa using hne
    have hlim : bases.all inLimit = true := List.all_eq_true.mpr fun b hb => decide_eq_true (hbases b hb)
    exact ⟨.banked bases 0#8, fun r => require (!bases.isEmpty) .noBanks <| require (bases.all inLimit) .tooLarge r,
      fun r => by simp only [hsome, hlim, require_true], by rw [exec, execMapnewB, inWiring_wiring hp]⟩

variable (hr : badRange first last = false)
include hr

theorem exec_mapnewM_large {mask : Word} (h : 2 ^ 31 ≤ mask.toNat) :
    exec (.mapnewM k first last outer inner mem mask) s = .refused .tooLarge := by
  have hlim : inLimit mask = false := decide_eq_false (Nat.not_lt.mpr h)
  rw [exec, execMapnewM, inWiring_wiring hp, buildMirrored, buildMap, withRange_good hr, hlim, require_false, settle_refused]

theorem exec_mapnewB_none : exec (.mapnewB k first last outer inner mem []) s = .refused .noBanks := by
  rw [exec, execMapnewB, inWiring_wiring hp, buildMap, withRange_good hr, List.isEmpty_nil, Bool.not_true, require_false,
    settle_refused]

theorem exec_mapnewB_large {bases : List Word} (h : ∃ b ∈ bases, 2 ^ 31 ≤ b.toNat) :
    exec (.mapnewB k first last outer inner mem bases) s = .refused .tooLarge := by
  obtain ⟨b, hb, hlarge⟩ := h
  have hsome : (!bases.isEmpty) = true := by simpa using List.ne_nil_of_mem hb
  have hlim : bases.all inLimit = false :=
    List.all_eq_false.mpr ⟨b, hb, Bool.not_eq_true _ ▸ decide_eq_false (Nat.not_lt.mpr hlarge)⟩
  rw [exec, execMapnewB, inWiring_wiring hp, buildMap, withRange_good hr, hsome, require_true, hlim, require_false, settle_refused]

end Mapnew

/-! ## CARTNEW (R253) -/

section Cartnew

variable {q : Handle} {mirroring : Bool} {outer inner : Triple} {mem map : Handle} {prg chr : List Byte} (hp : s.phase = .wiring)
  (hprg : prg.length = 16384 ∨ prg.length = 32768)
include hp hprg

/-- With variant 0 and one of its two sizes, what is left is the cartridge's handle and the construction. -/
theorem exec_cartnew_variant0 : exec (.cartnew q 0#8 mirroring outer inner mem map prg chr) s =
    settle (require (s.cart? q).isNone (.handleInUse .cartridge q) <|
      (buildVariant0 prg.length outer inner mem map prg s).andThen fun s' => .ok (s'.putCart q ⟨prg, chr, mirroring, 0#8⟩) none) := by
  have hsize : ¬prg.length ∉ prgSizes := not_not_intro (by simpa [prgSizes] using hprg)
  rw [exec, execCartnew, inWiring_wiring hp, if_neg (show ¬(0#8 ≠ Config.supportedMapper) from not_not_intro rfl), if_neg hsize]

theorem exec_cartnew_inUse {u : Cart} (hq : s.cart? q = some u) :
    exec (.cartnew q 0#8 mirroring outer inner mem map prg chr) s = .refused (.handleInUse .cartridge q) := by
  rw [exec_cartnew_variant0 hp hprg, hq, Option.isNone_some, require_false, settle_refused]

theorem exec_cartnew_memInUse {u : Mem} (hq : s.cart? q = none) (hm : s.mem? mem = some u) :
    exec (.cartnew q 0#8 mirroring outer inner mem map prg chr) s = .refused (.handleInUse .memory mem) := by
  have hrange : badRange 0#32 (BitVec.ofNat 32 (prg.length - 1)) = false ∧
      rangeSize 0#32 (BitVec.ofNat 32 (prg.length - 1)) = prg.length ∧ prg.length < 2 ^ 31 := by
    rcases hprg with h | h <;> rw [h] <;> decide
  obtain ⟨hr, hsize, hlim⟩ := hrange
  have hrom : buildMem .rom mem 0#32 (BitVec.ofNat 32 (prg.length - 1)) inner (some prg) s = .refused (.handleInUse .memory mem) :=
    buildMem_inUse hr (fun cells hc => Option.some.inj hc ▸ hsize.symm) (hsize.trans_lt hlim) hm
  rw [exec_cartnew_variant0 hp hprg, hq, Option.isNone_none, require_true, buildVariant0, hrom, andThen_refused, andThen_refused,
    settle_refused]

end Cartnew

/-! ## Commands and small constructors -/

section NoUnit

variable {h : Handle}

theorem busCommands_noUnit (v : Word) (hb : s.bus? h = none) : exec (.brd h) s = .refused (.noSuchUnit .bus h) ∧
    exec (.bwc h v) s = .refused (.noSuchUnit .bus h) ∧ exec (.bwm h v) s = .refused (.noSuchUnit .bus h) := by
  have hb' : s.enterRun.bus? h = none := hb
  refine ⟨?brd, ?bwc, ?bwm⟩
  case brd => rw [exec, execBrd, runBrd, withBus_none hb', settle_refused]
  case bwc => rw [exec, execBwc, runBwc, busWriteChecked, withBus_none hb', settle_refused]
  case bwm => rw [exec, execBwm, runBwm, busWriteMasked, withBus_none hb', settle_refused]

theorem flagCommands_noUnit (val : Byte) (hf : s.flag? h = none) : exec (.fget h) s = .refused (.noSuchUnit .flag h) ∧
    exec (.fset h val) s = .refused (.noSuchUnit .flag h) := by
  have hf' : s.enterRun.flag? h = none := hf
  constructor
  · rw [exec, execFget, runFget, withFlag_none hf', settle_refused]
  · rw [exec, execFset, runFset, withFlag_none hf', settle_refused]

/-- TICKN too, whatever its count (log 15). -/
theorem clockCommands_noUnit (n : Word) (hc : s.clock? h = none) : exec (.tick h) s = .refused (.noSuchUnit .clock h) ∧
    exec (.tickn h n) s = .refused (.noSuchUnit .clock h) := by
  have hc' : s.enterRun.clock? h = none := hc
  constructor
  · rw [exec, execTick, runTick, withClock_none hc', settle_refused]
  · rw [exec, execTickn, runTickn, withClock_none hc', settle_refused]

theorem mapperCommands_noUnit (a : BitVec 31) (bank : Byte) (hk : s.map? h = none) :
    exec (.mxlt h a) s = .refused (.noSuchUnit .mapper h) ∧ exec (.mbsel h bank) s = .refused (.noSuchUnit .mapper h) := by
  have hk' : s.enterRun.map? h = none := hk
  constructor
  · rw [exec, execMxlt, runMxlt, withMap_none hk', settle_refused]
  · rw [exec, execMbsel, runMbsel, withMap_none hk', settle_refused]

end NoUnit

theorem exec_fset_notMember {f : Handle} {u : Flag} {val : Byte} (hf : s.flag? f = some u) (hv : s.memberOf u.set val = false) :
    exec (.fset f val) s = .refused (.flagValue f val) := by
  have hf' : s.enterRun.flag? f = some u := hf
  rw [exec, execFset, runFset, withFlag_some hf', State.enterRun_memberOf, hv, require_false, settle_refused]

section InUse

variable {h : Handle} (hp : s.phase = .wiring)
include hp

theorem exec_bnew_inUse {u : Bus} {w : Word} (hu : s.bus? h = some u) (hlo : 1 ≤ w.toInt) (hhi : w.toInt ≤ 31) :
    exec (.bnew h w) s = .refused (.handleInUse .bus h) := by
  have hwidth : ¬(w.toInt < 1 ∨ (Config.maxBusWidth : Int) < w.toInt) := by
    simp only [Config.maxBusWidth]
    omega
  rw [exec, execBnew, inWiring_wiring hp, if_neg hwidth, hu, Option.isNone_some, require_false, settle_refused]

theorem exec_fnew_inUse {u : Flag} {init : Byte} (hu : s.flag? h = some u) (hv : s.definesValue init = true) :
    exec (.fnew h init) s = .refused (.handleInUse .flag h) := by
  rw [exec, execFnew, inWiring_wiring hp, hv, require_true, hu, Option.isNone_some, require_false, settle_refused]

theorem exec_cnew_inUse {u : Clock} (hu : s.clock? h = some u) : exec (.cnew h) s = .refused (.handleInUse .clock h) := by
  rw [exec, execCnew, inWiring_wiring hp, hu, Option.isNone_some, require_false, settle_refused]

theorem exec_dnew_inUse {u : Clock} {period : Word} (hu : s.clock? h = some u) (hper : 1 ≤ period.toInt) :
    exec (.dnew h period) s = .refused (.handleInUse .clock h) := by
  rw [exec, execDnew, inWiring_wiring hp, decide_eq_true hper, require_true, hu, Option.isNone_some, require_false, settle_refused]

end InUse

/-! ## O17 -/

/-- Settles O17, clause by clause. -/
theorem operandsOutsideTheFabricAreRefused : Obligations.OperandsOutsideTheFabricAreRefused := by
  refine ⟨fun s b v => busCommands_noUnit v, fun s f val => flagCommands_noUnit val, fun s c n => clockCommands_noUnit n,
    fun s k a bank => mapperCommands_noUnit a bank, fun s f u val => exec_fset_notMember, ?used, ?memory, ?mapnew, ?cartnew⟩
  case used =>
    intro s h w init hp
    exact ⟨fun u => exec_bnew_inUse hp, fun u => exec_fnew_inUse hp, fun u hu => ⟨exec_cnew_inUse hp hu, exec_dnew_inUse hp hu⟩⟩
  case memory =>
    intro s m start last t hp hlo hlt
    have hr := legal_range hlo hlt
    have hrange := rangeSize_eq hlo hlt
    have hsize : ∀ cells, (none : Option (List Byte)) = some cells → cells.length = rangeSize start last := nofun
    rw [exec_ramnew hp, exec_romnew hp]
    refine ⟨fun hlarge => ?_, fun hlim => ⟨fun u hu => ?_, fun d hm ht hd hw => ?_⟩⟩
    · rw [buildMem_large hr hsize (by omega), buildMem_large hr hsize (by omega)]
      exact ⟨rfl, rfl⟩
    · rw [buildMem_inUse hr hsize (by omega) hu, buildMem_inUse hr hsize (by omega) hu]
      exact ⟨rfl, rfl⟩
    · rw [buildMem_fresh hr hsize (by omega) hm ht, withRamBus_wide hd hw, settle_refused]
  case mapnew =>
    intro s k first last outer inner mem hp hlo hlt
    have hr := legal_range hlo hlt
    refine ⟨fun mask => exec_mapnewM_large hp hr, exec_mapnewB_none hp hr, fun bases => exec_mapnewB_large hp hr, fun i hi => ?_⟩
    obtain ⟨kind, operands, hop, hexec⟩ := exec_mapnew hp hi
    rw [hexec]
    refine ⟨fun u hk => ?_, fun hk ho hin => ⟨fun hf => ?_, fun hf hm => ?_, fun w hf hm hw => ?_⟩⟩
    · rw [buildMap_inUse hr hop hk, settle_refused]
    · rw [buildMap_flagsEqual hr hop hk ho hin hf, settle_refused]
    · rw [buildMap_noMemory hr hop hk ho hin hf hm, settle_refused]
    · rw [buildMap_misplaced hr hop hk ho hin hf hm hw, settle_refused]
  case cartnew =>
    intro s q mirroring outer inner mem map prg chr hp hprg
    exact ⟨fun u => exec_cartnew_inUse hp hprg, fun u => exec_cartnew_memInUse hp hprg⟩

end Sys2Proof.Machine
end

section
/-! SUPPORT. A memory's reaction inside a cascade, the commands of an access by the units they name, and O37. -/

namespace Sys2Proof.Machine

variable {s : State}

/-! ## A memory's reaction (R195 to R199) -/

section Reaction

variable {m f : Handle} {u : Mem} {a d : Bus} {n : Nat} (hm : s.mem? m = some u) (hflag : u.flag = f)
  (ha : s.bus? u.abus = some a) (hrange : u.start ≤ a.value.toNat ∧ a.value.toNat ≤ u.last)
  (hd : s.bus? u.dbus = some d) (hn : 1 ≤ n)
include hm hflag ha hrange hd hn

/-- A RAM and a ROM alike put the cell the address bus selects on the data bus, if it fits (R196, R199). -/
theorem perform_memoryRead (hfit : fits d.width (cellWord u (a.value.toNat - u.start)) = true) :
    perform n (memoryReaction u.kind .read m ⟨0#16, f, valRead⟩) s =
      .ok (s.putBus u.dbus { d with value := cellWord u (a.value.toNat - u.start) }) none := by
  obtain ⟨k, rfl⟩ := Nat.exists_eq_add_of_le' hn
  have hread : memRead u ⟨0#16, f, valRead⟩ s =
      .ok (s.putBus u.dbus { d with value := cellWord u (a.value.toNat - u.start) }) none := by
    rw [memRead, memAnswer_inside hflag.symm ha hrange, busWriteChecked_fit hd hfit]
  rw [perform_succ, ← hread]
  cases hk : u.kind with
  | ram => exact withMemReaction_some (dw := ⟨0#16, f, valRead⟩) rfl hm hk (classOf_read s) _
  | rom => exact withMemReaction_some (dw := ⟨0#16, f, valRead⟩) rfl hm hk (classOf_read s) _

/-- A RAM stores a data bus value no wider than a cell (R197). -/
theorem perform_memoryWrite (hk : u.kind = .ram) (hv : d.value.toNat < 256) :
    perform n (memoryReaction u.kind .write m ⟨0#16, f, valWrite⟩) s =
      .ok (s.putMem m { u with contents := Memory.write u.contents (a.value.toNat - u.start) (d.value.setWidth 8) }) none := by
  obtain ⟨k, rfl⟩ := Nat.exists_eq_add_of_le' hn
  have hwrite : memWrite m u ⟨0#16, f, valWrite⟩ s =
      .ok (s.putMem m { u with contents := Memory.write u.contents (a.value.toNat - u.start) (d.value.setWidth 8) }) none := by
    rw [memWrite, memAnswer_inside hflag.symm ha hrange, withBus_some hd, cellStore_narrow hv]
  rw [perform_succ, ← hwrite, hk]
  exact withMemReaction_some (dw := ⟨0#16, f, valWrite⟩) rfl hm hk (classOf_write s) _

end Reaction

/-- Every cell fits a data bus of a cell's width or more (R30, R196). -/
theorem fits_cellWord {width : Nat} (hlo : 8 ≤ width) (hhi : width ≤ 31) (u : Mem) (i : Nat) : fits width (cellWord u i) = true := by
  rw [fits_iff (by omega), cellWord_toNat]
  calc (Memory.read u.contents i).toNat < 2 ^ 8 := (Memory.read u.contents i).isLt
    _ ≤ 2 ^ width := Nat.pow_le_pow_right (by omega) hlo

/-! ## The commands of an access (R79, R80) -/

theorem exec_brd {b : Handle} {u : Bus} (hu : s.bus? b = some u) :
    exec (.brd b) s = .next (s.enterRun.withReport (.ok (some u.value))) := by
  rw [exec, execBrd, runBrd, withBus_some (s := s.enterRun) hu, settle_ok]

theorem exec_bwc_fit {b : Handle} {u : Bus} {v : Word} (hu : s.bus? b = some u) (hw : u.width ≤ 31) (hv : v.toNat < 2 ^ u.width) :
    exec (.bwc b v) s = .next ((s.enterRun.putBus b { u with value := v }).withReport (.ok none)) := by
  have hfit : fits u.width v = true := (fits_iff (by omega) v).mpr hv
  rw [exec, execBwc, runBwc, busWriteChecked_fit (s := s.enterRun) hu hfit, settle_ok]

/-- FSET of a member of the set stores it and dispatches it, here with success (R160). -/
theorem exec_fset_ok {f : Handle} {fl : Flag} {val : Byte} {ls : List Listener} {t : State} {w : Option Word}
    (hf : s.flag? f = some fl) (hv : s.memberOf fl.set val = true) (hls : fl.listeners = ls)
    (hrun : dispatch (perform s.fuel) (flagReaction f val) (fun i => .flag f i val) ls
      (s.enterRun.putFlag f { fl with value := val }) = .ok t w) :
    exec (.fset f val) s = .next (t.withReport (.ok w)) := by
  subst hls
  rw [exec, execFset, runFset, withFlag_some (s := s.enterRun) hf, State.enterRun_memberOf, hv, require_true, hrun, settle_ok]

/-- READ and WRITE are members of set 0 whatever the platform defines (R100). -/
theorem memberOf_read (s : State) : s.memberOf 0#4 valRead = true := rfl

theorem memberOf_write (s : State) : s.memberOf 0#4 valWrite = true := rfl

/-! ## O37 -/

/-- Settles O37: the first memory's read leaves the address bus as it was, so the second answers too and its cell overwrites the first's. -/
theorem lastAnsweringListenerWinsARead : Obligations.LastAnsweringListenerWinsARead := by
  intro s f m m' u u' fl a d hf hset hls hm hm' hflag hflag' habus hdbus hne ha hd hlo hhi hstart hlast hstart' hlast' hfuel
  have haddress (t : State) (d' : Bus) (ht : t.bus? u.abus = some a) : (t.putBus u.dbus d').bus? u'.abus = some a := by
    rw [habus, State.putBus_bus_ne t _ _ hne.symm, ht]
  have hdata (t : State) (d' : Bus) : (t.putBus u.dbus d').bus? u'.dbus = some d' := by
    rw [hdbus, State.putBus_bus_self]
  refine ⟨_, exec_fset_ok hf (hset ▸ memberOf_read s) hls (dispatch_two_ok
    (flagReaction_memory hm (classOf_read _))
    (perform_memoryRead hm hflag ha ⟨hstart, hlast⟩ hd hfuel (fits_cellWord hlo hhi u _))
    (flagReaction_memory hm' (classOf_read _))
    (perform_memoryRead hm' hflag' (haddress _ _ ha) ⟨hstart', hlast'⟩ (hdata _ _) hfuel (fits_cellWord hlo hhi u' _))), rfl, ?_⟩
  rw [hdbus]
  exact State.putBus_bus_self ..

end Sys2Proof.Machine
end

section
/-! SUPPORT. STORE and LOAD on a triple only one RAM hears, each by what it makes of the RAM and the two buses, and O36. -/

namespace Sys2Proof.Machine

variable {s : State}

/-! ## Operations one after the other -/

theorem runAll_cons {i : Instr} {s' : State} (h : exec i s = .next s') (is : List Instr) : runAll (i :: is) s = runAll is s' := by
  rw [runAll, h]

theorem runAll_append {is : List Instr} {s' : State} (h : runAll is s = .next s') (js : List Instr) :
    runAll (is ++ js) s = runAll js s' := by
  induction is generalizing s with
  | nil => cases h; rfl
  | cons i is ih =>
    cases hi : exec i s with
    | next s₁ => rw [List.cons_append, runAll_cons hi, ih ((runAll_cons hi is).symm.trans h)]
    | fault x => cases x
    | refused w => simp [runAll, hi] at h

/-- Three operations, as many as an access has (R108). -/
theorem runAll_three {i j k : Instr} {s₁ s₂ s₃ : State} (hi : exec i s = .next s₁) (hj : exec j s₁ = .next s₂)
    (hk : exec k s₂ = .next s₃) : runAll [i, j, k] s = .next s₃ := by
  rw [runAll_cons hi, runAll_cons hj, runAll_cons hk, runAll]

/-! ## The RAM after a store (R197) -/

/-- RAM `u` with `v` stored at address `x` of its range. -/
def Mem.stored (u : Mem) (x v : Word) : Mem :=
  { u with contents := Memory.write u.contents (x.toNat - u.start) (v.setWidth 8) }

theorem read_stored_self (u : Mem) (x v : Word) : Memory.read (u.stored x v).contents (x.toNat - u.start) = v.setWidth 8 :=
  Memory.read_write_self ..

/-- A store leaves the cell of every other address of the range (R197). -/
theorem read_stored_ne {u : Mem} {x x' : Word} (hne : x ≠ x') (hx : u.start ≤ x.toNat) (hx' : u.start ≤ x'.toNat) (v' : Word) :
    Memory.read (u.stored x' v').contents (x.toNat - u.start) = Memory.read u.contents (x.toNat - u.start) := by
  have hne' : x.toNat ≠ x'.toNat := fun h => hne (BitVec.eq_of_toNat_eq h)
  exact Memory.read_write_ne _ (by omega) _

/-- A value that fits a data bus no wider than a cell fits a cell. -/
theorem narrow_of_fits {width : Nat} {v : Word} (hw : width ≤ 8) (hv : v.toNat < 2 ^ width) : v.toNat < 256 :=
  Nat.lt_of_lt_of_le hv (Nat.pow_le_pow_right (n := 2) (by omega) hw)

/-! ## One RAM on a triple: what each command of an access leaves of it -/

/-- Only RAM `m`, which is `u`, hears triple `t`, whose address bus is `a` and whose data bus is `d`. -/
structure State.OneRam (s : State) (t : Triple) (m : Handle) (u : Mem) (a d : Bus) : Prop where
  mem : s.mem? m = some u
  kind : u.kind = .ram
  abus : u.abus = t.abus
  dbus : u.dbus = t.dbus
  flag : u.flag = t.flag
  apart : t.abus ≠ t.dbus
  address : s.bus? t.abus = some a
  data : s.bus? t.dbus = some d
  addressWidth : a.width ≤ 31
  dataWidth : d.width ≤ 8
  heard : ∃ fl, s.flag? t.flag = some fl ∧ fl.set = 0#4 ∧ fl.listeners = [.memory m]
  fuel : 1 ≤ s.fuel

section OneRam

variable {t : Triple} {m : Handle} {u : Mem} {a d : Bus}

theorem State.OneRam.ramAddress (h : s.OneRam t m u a d) : s.bus? u.abus = some a := h.abus ▸ h.address

theorem State.OneRam.ramData (h : s.OneRam t m u a d) : s.bus? u.dbus = some d := h.dbus ▸ h.data

theorem oneRam_brd (h : s.OneRam t m u a d) :
    ∃ e, exec (.brd t.dbus) s = .next e ∧ e.report = some (.ok (some d.value)) ∧ e.OneRam t m u a d :=
  ⟨_, exec_brd h.data, rfl, { h with mem := h.mem }⟩

theorem oneRam_bwcAddress (h : s.OneRam t m u a d) {x : Word} (hx : x.toNat < 2 ^ a.width) :
    ∃ e, exec (.bwc t.abus x) s = .next e ∧ e.OneRam t m u { a with value := x } d :=
  ⟨_, exec_bwc_fit h.address h.addressWidth hx,
    { h with address := State.putBus_bus_self .., data := (State.putBus_bus_ne _ _ _ h.apart).trans h.data }⟩

theorem oneRam_bwcData (h : s.OneRam t m u a d) {v : Word} (hv : v.toNat < 2 ^ d.width) :
    ∃ e, exec (.bwc t.dbus v) s = .next e ∧ e.OneRam t m u a { d with value := v } :=
  ⟨_, exec_bwc_fit h.data (h.dataWidth.trans (by omega)) hv,
    { h with address := (State.putBus_bus_ne _ _ _ h.apart.symm).trans h.address, data := State.putBus_bus_self .. }⟩

theorem oneRam_fsetWrite (h : s.OneRam t m u a d) (hrange : u.start ≤ a.value.toNat ∧ a.value.toNat ≤ u.last)
    (hv : d.value.toNat < 2 ^ d.width) :
    ∃ e, exec (.fset t.flag valWrite) s = .next e ∧ e.OneRam t m (u.stored a.value d.value) a d := by
  obtain ⟨fl, hf, hset, hls⟩ := h.heard
  refine ⟨_, exec_fset_ok hf (hset ▸ memberOf_write s) hls (dispatch_one_ok
    (flagReaction_memory h.mem (classOf_write _))
    (perform_memoryWrite h.mem h.flag h.ramAddress hrange h.ramData h.fuel h.kind (narrow_of_fits h.dataWidth hv))), ?_⟩
  exact { h with mem := State.putMem_mem_self .., heard := ⟨_, State.putFlag_flag_self .., hset, hls⟩ }

theorem oneRam_fsetRead (h : s.OneRam t m u a d) (hrange : u.start ≤ a.value.toNat ∧ a.value.toNat ≤ u.last)
    (hfit : fits d.width (cellWord u (a.value.toNat - u.start)) = true) :
    ∃ e, exec (.fset t.flag valRead) s = .next e ∧
      e.OneRam t m u a { d with value := cellWord u (a.value.toNat - u.start) } := by
  obtain ⟨fl, hf, hset, hls⟩ := h.heard
  refine ⟨_, exec_fset_ok hf (hset ▸ memberOf_read s) hls (dispatch_one_ok
    (flagReaction_memory h.mem (classOf_read _))
    (perform_memoryRead h.mem h.flag h.ramAddress hrange h.ramData h.fuel hfit)), ?_⟩
  exact { h with
    address := (State.putBus_bus_ne _ _ _ (h.dbus ▸ h.apart.symm)).trans h.address
    data := h.dbus ▸ State.putBus_bus_self ..
    heard := ⟨_, State.putFlag_flag_self .., hset, hls⟩ }

/-! ## The accesses (R79, R80, R108) -/

theorem oneRam_store (h : s.OneRam t m u a d) {x v : Word} (hx : x.toNat < 2 ^ a.width) (hv : v.toNat < 2 ^ d.width)
    (hrange : u.start ≤ x.toNat ∧ x.toNat ≤ u.last) :
    ∃ e, runAll (storeAccess t x v) s = .next e ∧ e.OneRam t m (u.stored x v) { a with value := x } { d with value := v } := by
  obtain ⟨s₁, hs₁, h₁⟩ := oneRam_bwcAddress h hx
  obtain ⟨s₂, hs₂, h₂⟩ := oneRam_bwcData h₁ hv
  obtain ⟨s₃, hs₃, h₃⟩ := oneRam_fsetWrite h₂ hrange hv
  exact ⟨s₃, runAll_three hs₁ hs₂ hs₃, h₃⟩

theorem oneRam_load (h : s.OneRam t m u a d) {x : Word} (hx : x.toNat < 2 ^ a.width)
    (hrange : u.start ≤ x.toNat ∧ x.toNat ≤ u.last) (hfit : fits d.width (cellWord u (x.toNat - u.start)) = true) :
    ∃ e, runAll (loadAccess t x) s = .next e ∧ e.report = some (.ok (some (cellWord u (x.toNat - u.start)))) ∧ e.mem? m = some u := by
  obtain ⟨s₁, hs₁, h₁⟩ := oneRam_bwcAddress h hx
  obtain ⟨s₂, hs₂, h₂⟩ := oneRam_fsetRead h₁ hrange hfit
  obtain ⟨s₃, hs₃, hreport, h₃⟩ := oneRam_brd h₂
  exact ⟨s₃, runAll_three hs₁ hs₂ hs₃, hreport, h₃.mem⟩

end OneRam

/-! ## O36 -/

/-- Settles O36: the second STORE leaves the first one's cell, so the LOAD puts on the data bus what the first STORE put in it. -/
theorem loadReturnsTheLatestStore : Obligations.LoadReturnsTheLatestStore := by
  intro s t m u a d fl x x' v v' hm hk habus hdbus hflag hne ha hd hf hset hls haw hdw hx hx' hv hv' hxx hstart hlast hstart' hlast' hfuel
  have h : s.OneRam t m u a d := ⟨hm, hk, habus, hdbus, hflag, hne, ha, hd, haw, hdw, ⟨fl, hf, hset, hls⟩, hfuel⟩
  obtain ⟨s₁, hs₁, h₁⟩ := oneRam_store h hx hv ⟨hstart, hlast⟩
  obtain ⟨s₂, hs₂, h₂⟩ := oneRam_store h₁ hx' hv' ⟨hstart', hlast'⟩
  have hcell : Memory.read ((u.stored x v).stored x' v').contents (x.toNat - u.start) = v.setWidth 8 :=
    (read_stored_ne (u := u.stored x v) hxx hstart hstart' v').trans (read_stored_self u x v)
  have hword : cellWord ((u.stored x v).stored x' v') (x.toNat - u.start) = v := by
    have := narrow_of_fits hdw hv
    rw [cellWord, hcell]
    bv_omega
  have hfit : fits d.width v = true := (fits_iff (by omega) v).mpr hv
  obtain ⟨e, he, hreport, hmem⟩ := oneRam_load h₂ hx ⟨hstart, hlast⟩ ((congrArg (fits d.width) hword).trans hfit)
  refine ⟨e, ?_, hreport.trans (congrArg (fun w => some (Report.ok (some w))) hword), ?_, ?_⟩
  · rw [List.append_assoc, runAll_append hs₁, runAll_append hs₂, he]
  · rw [State.cell?, hmem, Option.map_some, hcell]
  · rw [State.cell?, hmem, Option.map_some]
    exact congrArg some (read_stored_self (u.stored x v) x' v')

end Sys2Proof.Machine
end

section
/-! SUPPORT. The fields inside a word as the encoder fills them and as the decoder reads them, and the readers of extension words of
Laws/Decode.lean that have no law there. -/

namespace Sys2Proof

/-! ## Fields of a word (R94 to R97) -/

/-- An address of 31 bits leaves the top bit 0. -/
theorem address_high (a : BitVec 31) : (a.setWidth 32 : Word).extractLsb' 31 1 = 0#1 := by
  apply BitVec.eq_of_toNat_eq
  simp only [BitVec.extractLsb'_toNat, BitVec.toNat_setWidth, Nat.shiftRight_eq_div_pow, BitVec.toNat_ofNat]
  omega

/-- An address of 31 bits carried in a word is read back. -/
theorem address_low (a : BitVec 31) : (a.setWidth 32 : Word).extractLsb' 0 31 = a := by
  rw [BitVec.extractLsb'_setWidth_of_le (by omega), BitVec.extractLsb'_eq_self]

/-- A word whose top bit is 0 is the address of 31 bits in it. -/
theorem address_of_word {w : Word} (h : w.extractLsb' 31 1 = 0#1) : (w.extractLsb' 0 31).setWidth 32 = w := by
  have htop : w.toNat / 2 ^ 31 % 2 = 0 := by
    simpa [BitVec.extractLsb'_toNat, Nat.shiftRight_eq_div_pow] using congrArg BitVec.toNat h
  apply BitVec.eq_of_toNat_eq
  simp only [BitVec.toNat_setWidth, BitVec.extractLsb'_toNat, Nat.shiftRight_zero]
  omega

/-- A listener reference lies in its word as in a delivery word whose value is the index (R96, R98). -/
theorem deliveryOf_listenerImm (l : ListenerRef) : deliveryOf (listenerImm l) = ⟨0#16, l.kind, l.index⟩ :=
  deliveryOf_imm ⟨0#16, l.kind, l.index⟩

theorem listenerImm_high (l : ListenerRef) : (listenerImm l).extractLsb' 16 16 = 0#16 :=
  congrArg Delivery.zero (deliveryOf_listenerImm l)

theorem listenerImm_kind (l : ListenerRef) : (listenerImm l).extractLsb' 8 8 = l.kind :=
  congrArg Delivery.src (deliveryOf_listenerImm l)

theorem listenerImm_index (l : ListenerRef) : (listenerImm l).extractLsb' 0 8 = l.index :=
  congrArg Delivery.val (deliveryOf_listenerImm l)

/-- A word whose bits from 16 up are 0 is the listener reference in it (R96). -/
theorem listenerImm_of_word {w : Word} (h : w.extractLsb' 16 16 = 0#16) :
    listenerImm ⟨w.extractLsb' 8 8, w.extractLsb' 0 8⟩ = w := by
  rw [listenerImm, ← h]
  exact deliveryImm_of w

/-- `imm` of CARTNEW: the mirroring bit above the mapper number (R94). -/
abbrev cartImm (mirroring : Bool) (mapperId : Byte) : Word := 0#23 ++ BitVec.ofBool mirroring ++ mapperId

theorem cartImm_high (m : Bool) (id : Byte) : (cartImm m id).extractLsb' 9 23 = 0#23 := by
  rw [BitVec.extractLsb'_append_eq_of_le (by omega), BitVec.extractLsb'_append_eq_left]

theorem cartImm_mirroring (m : Bool) (id : Byte) : (cartImm m id).getLsbD 8 = m := by
  rw [cartImm, BitVec.getLsbD_append, if_neg (by omega), BitVec.getLsbD_append, if_pos (by omega)]
  simp

theorem cartImm_mapperId (m : Bool) (id : Byte) : (cartImm m id).extractLsb' 0 8 = id := BitVec.extractLsb'_append_eq_right

/-- A word whose bits from 9 up are 0 is the mirroring bit and the mapper number in it (R94). -/
theorem cartImm_of_word {w : Word} (h : w.extractLsb' 9 23 = 0#23) : cartImm (w.getLsbD 8) (w.extractLsb' 0 8) = w := by
  have hbit : BitVec.ofBool (w.getLsbD 8) = w.extractLsb' 8 1 := by
    apply BitVec.eq_of_getLsbD_eq
    intro i hi
    obtain rfl : i = 0 := by omega
    simp
  calc cartImm (w.getLsbD 8) (w.extractLsb' 0 8)
      = w.extractLsb' 9 23 ++ w.extractLsb' 8 1 ++ w.extractLsb' 0 8 := by rw [cartImm, hbit, h]
    _ = w.extractLsb' 8 24 ++ w.extractLsb' 0 8 := 
        congrArg (· ++ w.extractLsb' 0 8) (BitVec.extractLsb'_append_extractLsb'_eq_extractLsb' rfl)
    _ = w.extractLsb' 0 32 := BitVec.extractLsb'_append_extractLsb'_eq_extractLsb' rfl
    _ = w := BitVec.extractLsb'_eq_self

/-- A word whose bits below 24 are 0 is the handle above them (R94). -/
theorem mapWord_of_word {w : Word} (h : w.extractLsb' 0 24 = 0#24) : w.extractLsb' 24 8 ++ 0#24 = w :=
  calc w.extractLsb' 24 8 ++ 0#24
      = w.extractLsb' 24 8 ++ w.extractLsb' 0 24 := by rw [h]
    _ = w.extractLsb' 0 32 := BitVec.extractLsb'_append_extractLsb'_eq_extractLsb' rfl
    _ = w := BitVec.extractLsb'_eq_self

/-! ## Reading in order -/

/-- Reading on from what has been read. -/
theorem read_bind {α β : Type} (a : α) (f : α → Except DecodeError β) : (Except.ok a >>= f) = f a := rfl

/-- A reading that succeeds has read its first part. -/
theorem read_bind_inv {α β : Type} {x : Except DecodeError α} {f : α → Except DecodeError β} {b : β} (h : (x >>= f) = .ok b) :
    ∃ a, x = .ok a ∧ f a = .ok b := by
  cases x with
  | error e => cases h
  | ok a => exact ⟨a, rfl, h⟩

/-- A reserved field that is 0 is passed (R105). -/
theorem mustBeZero_zero {n : Nat} (op : Byte) : mustBeZero op (0#n) = .ok () := if_pos rfl

/-- A reading that goes on after a reserved field has found it 0 (R105). -/
theorem mustBeZero_inv {n : Nat} {β : Type} {op : Byte} {field : BitVec n} {f : Unit → Except DecodeError β} {b : β}
    (h : (mustBeZero op field >>= f) = .ok b) : field = 0#n ∧ f () = .ok b := by
  rw [mustBeZero] at h
  split at h
  · exact ⟨‹_›, h⟩
  · cases h

variable {op : Byte} {bs r : List Byte}

/-- What was read after RAMNEW's and ROMNEW's head is what the encoder writes there (R94, R95, R97). -/
theorem takeMemory_inv {last : Word} {t : Triple} {c : Option (List Byte)} (h : takeMemory op bs = .ok (last, t, c, r)) :
    bs = memoryBytes last t c ++ r := by
  obtain ⟨⟨last', bs₁⟩, hlast, h⟩ := read_bind_inv h
  obtain ⟨⟨t', fill, bs₂⟩, ht, h⟩ := read_bind_inv h
  dsimp only at h
  split at h
  case isTrue hfill =>
    cases h
    simp [memoryBytes, takeWord_inv hlast, takeWiring_inv ht, hfill]
  case isFalse =>
    split at h
    case isTrue => cases h
    case isFalse hfill =>
      obtain ⟨⟨len, bs₃⟩, hlen, h⟩ := read_bind_inv h
      obtain ⟨⟨cells, bs₄⟩, hcells, h⟩ := read_bind_inv h
      cases h
      obtain ⟨hn, rfl⟩ := takeCells_inv hcells
      simp [memoryBytes, takeWord_inv hlast, takeWiring_inv ht, not_not.mp hfill, takeWord_inv hlen, len_inv _ _ hn]

/-- What was read after a mapper's head is what the encoder writes there (R94, R95). -/
theorem takeMapper_inv {last : Word} {outer inner : Triple} {mem : Handle}
    (h : takeMapper op bs = .ok (last, outer, inner, mem, r)) : bs = mapperBytes last outer inner mem ++ r := by
  obtain ⟨⟨last', bs₁⟩, hlast, h⟩ := read_bind_inv h
  obtain ⟨⟨outer', x, bs₂⟩, houter, h⟩ := read_bind_inv h
  obtain ⟨hx, h⟩ := mustBeZero_inv h
  obtain ⟨⟨inner', mem', bs₃⟩, hinner, h⟩ := read_bind_inv h
  cases h
  simp [mapperBytes, takeWord_inv hlast, takeWiring_inv houter, takeWiring_inv hinner, hx]

/-- What follows CARTNEW's head (R94, R97). -/
def cartBytes (outer inner : Triple) (mem map : Handle) (prg chr : List Byte) : List Byte :=
  wiringBytes outer 0#8 ++ wiringBytes inner mem ++ wordBytes (map ++ 0#24) ++ lengthBytes prg ++ lengthBytes chr ++
    packedBytes prg ++ packedBytes chr

variable {outer inner : Triple} {mem map : Handle} {prg chr : List Byte}

theorem encode_cartnew (q : Handle) (id : Byte) (m : Bool) :
    encode (.cartnew q id m outer inner mem map prg chr) =
      headBytes 0x4B#8 q (cartImm m id) ++ cartBytes outer inner mem map prg chr := by
  simp only [encode, cartBytes, List.append_assoc]

/-- What follows CARTNEW's head is read back. -/
theorem takeCart_bytes (hprg : lengthFits prg = true) (hchr : lengthFits chr = true) :
    takeCart op (cartBytes outer inner mem map prg chr ++ r) = .ok (outer, inner, mem, map, prg, chr, r) := by
  simp only [takeCart, cartBytes, lengthBytes, List.append_assoc, takeWiring_bytes, takeWord_bytes, read_bind,
    BitVec.extractLsb'_append_eq_right, BitVec.extractLsb'_append_eq_left, mustBeZero_zero, len_bytes _ hprg, len_bytes _ hchr,
    takePacked_bytes]
  rfl

/-- What was read after CARTNEW's head is what the encoder writes there (R94, R97). -/
theorem takeCart_inv (h : takeCart op bs = .ok (outer, inner, mem, map, prg, chr, r)) :
    bs = cartBytes outer inner mem map prg chr ++ r := by
  obtain ⟨⟨outer', x, bs₁⟩, houter, h⟩ := read_bind_inv h
  obtain ⟨hx, h⟩ := mustBeZero_inv h
  obtain ⟨⟨inner', mem', bs₂⟩, hinner, h⟩ := read_bind_inv h
  obtain ⟨⟨mapWord, bs₃⟩, hmap, h⟩ := read_bind_inv h
  obtain ⟨hlow, h⟩ := mustBeZero_inv h
  obtain ⟨⟨prgLen, bs₄⟩, hprgLen, h⟩ := read_bind_inv h
  obtain ⟨⟨chrLen, bs₅⟩, hchrLen, h⟩ := read_bind_inv h
  obtain ⟨⟨prg', bs₆⟩, hprg, h⟩ := read_bind_inv h
  obtain ⟨⟨chr', bs₇⟩, hchr, h⟩ := read_bind_inv h
  cases h
  obtain ⟨hprgSize, hprgBytes⟩ := takePacked_inv hprg
  obtain ⟨hchrSize, hchrBytes⟩ := takePacked_inv hchr
  simp [cartBytes, takeWiring_inv houter, hx, takeWiring_inv hinner, takeWord_inv hmap, mapWord_of_word hlow, takeWord_inv hprgLen,
    takeWord_inv hchrLen, len_inv _ _ hprgSize, len_inv _ _ hchrSize, hprgBytes, hchrBytes]

end Sys2Proof
end

section
/-! SUPPORT. Decoding what was encoded, class of word by class of word, and O1 and O3; encoding what was decoded, and O2. -/

namespace Sys2Proof

variable {i : Instr} {bs rest : List Byte}

/-! ## O1 and O3 -/

/-- The word of a command decodes to it (R92). -/
theorem decode_encode_command (hc : i.isCommand = true) (rest : List Byte) : decode (encode i ++ rest) = .ok (i, rest) := by
  cases i with
  | brd | bwc | bwm | fget | tick | tickn => rw [encode, decode_headBytes]; rfl
  | fset | mbsel => rw [encode, decode_headBytes, decodeHead, byte_high, byte_low, mustBeZero_zero]; rfl
  | mxlt => rw [encode, decode_headBytes, decodeHead, address_high, address_low, mustBeZero_zero]; rfl
  | _ => cases hc

/-- The words of a well-formed configuration record decode to it (R94 to R97). -/
theorem decode_encode_record (hw : i.wellFormed = true) (hc : i.isCommand = false) (hr : i.isReaction = false)
    (rest : List Byte) : decode (encode i ++ rest) = .ok (i, rest) := by
  cases i with
  | bnew | cnew | dnew => rw [encode, decode_headBytes]; rfl
  | fnew => rw [encode, decode_headBytes, decodeHead, byte_high, byte_low, mustBeZero_zero]; rfl
  | ramnew | romnew =>
    rw [encode, List.append_assoc, decode_headBytes, decodeHead, takeMemory_bytes _ _ _ _ _ hw]; rfl
  | mapnewI => rw [encode, List.append_assoc, decode_headBytes, decodeHead, takeMapper_bytes]; rfl
  | mapnewM =>
    rw [encode, List.append_assoc, List.append_assoc, decode_headBytes, decodeHead, takeMapper_bytes, read_bind]
    dsimp only
    rw [takeWord_bytes]; rfl
  | mapnewB =>
    simp only [encode, List.append_assoc, lengthBytes, decode_headBytes, decodeHead, takeMapper_bytes, read_bind, takeWord_bytes,
      len_bytes _ hw, takeWords_bytes]
    rfl
  | faddl | caddl =>
    rw [encode, decode_headBytes, decodeHead, listenerImm_high, listenerImm_kind, listenerImm_index, mustBeZero_zero]; rfl
  | cartnew =>
    obtain ⟨hprg, hchr⟩ := Bool.and_eq_true_iff.mp hw
    rw [encode_cartnew, List.append_assoc, decode_headBytes, decodeHead, cartImm_high, cartImm_mirroring, cartImm_mapperId,
      mustBeZero_zero, takeCart_bytes hprg hchr]
    rfl
  | brd | bwc | bwm | fget | fset | tick | tickn | mxlt | mbsel => cases hc
  | _ => cases hr

/-- Settles O1, by the class of the operation. -/
theorem decodeOfEncodeIsTheOperation : Obligations.DecodeOfEncodeIsTheOperation := by
  intro i rest hw
  cases hc : i.isCommand with
  | true => exact decode_encode_command hc rest
  | false =>
    cases hr : i.isReaction with
    | true => exact decode_encode_reaction hw hr rest
    | false => exact decode_encode_record hw hc hr rest

/-- Bytes that are the encoding of a well-formed operation decode to it, with none left. -/
theorem decode_of_eq_encode (hw : i.wellFormed = true) (h : encode i = bs) : decode bs = .ok (i, []) := by
  rw [← h, ← List.append_nil (encode i)]
  exact decodeOfEncodeIsTheOperation i [] hw

/-- Settles O3: each listed word is the encoding of the operation it stands for. -/
theorem listedWordsDecode : Obligations.ListedWordsDecode :=
  ⟨decode_of_eq_encode rfl rfl, decode_of_eq_encode rfl rfl, decode_of_eq_encode rfl rfl, decode_of_eq_encode rfl rfl,
    decode_of_eq_encode rfl rfl, decode_of_eq_encode rfl rfl, decode_of_eq_encode rfl rfl⟩

/-! ## O2 -/

/-- An operation read from a head and the bytes after it is encoded by that head and those of the bytes it took. The cases are the
rows of `decodeHead` in its order. -/
theorem encode_of_decodeHead {op unit : Byte} {imm : Word} (h : decodeHead op unit imm bs = .ok (i, rest)) :
    headBytes op unit imm ++ bs = encode i ++ rest := by
  unfold decodeHead at h
  split at h
  -- BWC, BWM, TICKN, BNEW, DNEW: `imm` is the operand
  case h_2 | h_3 | h_7 | h_10 | h_13 => cases h; rfl
  -- BRD, FGET, TICK, CNEW: `imm` is 0
  case h_1 | h_4 | h_6 | h_12 =>
    obtain ⟨rfl, h⟩ := mustBeZero_inv h
    cases h; rfl
  -- FSET, MBSEL, FNEW: `imm` is a byte
  case h_5 | h_9 | h_11 =>
    obtain ⟨hz, h⟩ := mustBeZero_inv h
    cases h
    rw [encode, byte_of_word hz]
  -- MXLT
  case h_8 =>
    obtain ⟨hz, h⟩ := mustBeZero_inv h
    cases h
    rw [encode, address_of_word hz]
  -- RAMNEW, ROMNEW
  case h_14 | h_15 =>
    obtain ⟨⟨last, t, contents, bs'⟩, hm, h⟩ := read_bind_inv h
    cases h
    rw [encode, takeMemory_inv hm, List.append_assoc]
  -- MAPNEW.I
  case h_16 =>
    obtain ⟨⟨last, outer, inner, mem, bs'⟩, hm, h⟩ := read_bind_inv h
    cases h
    rw [encode, takeMapper_inv hm, List.append_assoc]
  -- MAPNEW.M
  case h_17 =>
    obtain ⟨⟨last, outer, inner, mem, bs₁⟩, hm, h⟩ := read_bind_inv h
    obtain ⟨⟨mask, bs₂⟩, hmask, h⟩ := read_bind_inv h
    cases h
    rw [encode, takeMapper_inv hm, takeWord_inv hmask, List.append_assoc, List.append_assoc]
  -- MAPNEW.B
  case h_18 =>
    obtain ⟨⟨last, outer, inner, mem, bs₁⟩, hm, h⟩ := read_bind_inv h
    obtain ⟨⟨nbanks, bs₂⟩, hn, h⟩ := read_bind_inv h
    obtain ⟨⟨bases, bs₃⟩, hbases, h⟩ := read_bind_inv h
    cases h
    obtain ⟨hlen, hbytes⟩ := takeWords_inv hbases
    simp only [encode, takeMapper_inv hm, takeWord_inv hn, hbytes, len_inv _ _ hlen, List.append_assoc]
  -- FADDL, CADDL
  case h_19 | h_20 =>
    obtain ⟨hz, h⟩ := mustBeZero_inv h
    cases h
    rw [encode, listenerImm_of_word hz]
  -- CARTNEW
  case h_21 =>
    obtain ⟨hz, h⟩ := mustBeZero_inv h
    obtain ⟨⟨outer, inner, mem, map, prg, chr, bs'⟩, hcart, h⟩ := read_bind_inv h
    cases h
    rw [encode_cartnew, cartImm_of_word hz, takeCart_inv hcart, List.append_assoc]
  -- DIV.ONT, EXT.ONT, EXT.ONF: `imm` is the delivery operand
  case h_22 | h_23 | h_27 =>
    cases h
    rw [encode, deliveryImm_of]
  -- RAM, ROM, MAP: so it is in each of the rows the value selects (R99)
  case h_24 | h_25 | h_26 =>
    dsimp only at h
    split_ifs at h <;> (cases h; rw [encode, deliveryImm_of])
  -- an unassigned `op`
  case h_28 => cases h

/-- Settles O2: bytes that decode begin with a head, and a head's four bytes are those of its `imm`. -/
theorem bytesThatDecodeAreTheEncoding : Obligations.BytesThatDecodeAreTheEncoding := by
  intro bs rest i h
  rw [decode.eq_def] at h
  split at h
  next op unit a b c d bs' =>
    rw [← encode_of_decodeHead h, headBytes, bytes_word4]
    rfl
  next => cases h

end Sys2Proof
end

section
/-! SUPPORT. Records in the run phase, and O57; what an agent's word is refused for, and O5. -/

namespace Sys2Proof.Machine

variable {s : State} {i : Instr}

/-! ## O57 -/

/-- A configuration record asks first for the wiring phase (R104, R305). -/
theorem exec_record (hc : i.isCommand = false) (hr : i.isReaction = false) (s : State) :
    ∃ k, exec i s = settle (inWiring s k) := by
  cases i with
  | bnew | fnew | cnew | dnew | ramnew | romnew | mapnewI | mapnewM | mapnewB | faddl | caddl | cartnew => exact ⟨_, rfl⟩
  | brd | bwc | bwm | fget | fset | tick | tickn | mxlt | mbsel => cases hc
  | _ => cases hr

/-- Settles O57. -/
theorem recordsAreRefusedInTheRunPhase : Obligations.RecordsAreRefusedInTheRunPhase := by
  intro s i hrun hc hr
  obtain ⟨k, hk⟩ := exec_record hc hr s
  rw [hk, inWiring_run hrun, settle_refused]

/-! ## The `op` of an encoding -/

/-- The `op`s of the commands (R92). -/
def commandOps : List Byte := [0x01#8, 0x02#8, 0x03#8, 0x08#8, 0x09#8, 0x10#8, 0x11#8, 0x18#8, 0x19#8]

/-- The `op`s of the configuration records (R94). -/
def recordOps : List Byte :=
  [0x40#8, 0x41#8, 0x42#8, 0x43#8, 0x44#8, 0x45#8, 0x46#8, 0x47#8, 0x48#8, 0x49#8, 0x4A#8, 0x4B#8]

theorem commandOps_below : ∀ op ∈ commandOps, op < 0x40#8 := by decide

section Op

variable {op : Byte} {rest tail : List Byte} (h : op :: tail = encode i ++ rest)
include h

theorem command_op (hc : i.isCommand = true) : op ∈ commandOps := by
  cases i with
  | brd | bwc | bwm | fget | fset | tick | tickn | mxlt | mbsel =>
    rw [List.head_eq_of_cons_eq h]
    decide
  | _ => cases hc

theorem record_op (hc : i.isCommand = false) (hr : i.isReaction = false) : op ∈ recordOps := by
  cases i with
  | bnew | fnew | cnew | dnew | ramnew | romnew | mapnewI | mapnewM | mapnewB | faddl | caddl | cartnew =>
    rw [List.head_eq_of_cons_eq h]
    decide
  | brd | bwc | bwm | fget | fset | tick | tickn | mxlt | mbsel => cases hc
  | _ => cases hr

end Op

/-! ## O5 -/

/-- What a step makes of bytes the driver issues: they are refused, or they encode a command or a record, which is carried out (R104). -/
theorem step_driver (hp : s.delivery = none) (hd : s.driver ≠ []) :
    (∃ w, step s = .refused w) ∨
    ∃ i rest, i.isReaction = false ∧ s.driver = encode i ++ rest ∧ step s = exec i { s with driver := rest } := by
  obtain ⟨b, bs, hbs⟩ := List.exists_cons_of_ne_nil hd
  cases hdec : decode s.driver with
  | error e =>
    refine .inl ⟨.undecodable e, ?_⟩
    rw [hbs] at hdec
    simp [step, fetch, hp, fetchDriver, hbs, hdec]
  | ok p =>
    obtain ⟨i, rest⟩ := p
    cases hr : i.isReaction with
    | true =>
      refine .inl ⟨.deliveryFromAgent, ?_⟩
      rw [hbs] at hdec
      simp [step, fetch, hp, fetchDriver, hbs, hdec, hr]
    | false =>
      exact .inr ⟨i, rest, hr, bytesThatDecodeAreTheEncoding _ _ _ hdec, step_run (fetch_driver hp hdec hr)⟩

/-- Settles O5: a step that refuses nothing carries out a command, whose `op` is neither, or a record, which the run phase refuses. -/
theorem unacceptableOpsAreRefused : Obligations.UnacceptableOpsAreRefused := by
  intro s op unit a b c d rest hp hbytes hop
  rcases step_driver hp (by simp [hbytes]) with hrefused | ⟨i, rest', hr, henc, hstep⟩
  · exact hrefused
  have hhead : op :: unit :: a :: b :: c :: d :: rest = encode i ++ rest' := hbytes ▸ henc
  cases hc : i.isCommand with
  | true =>
    have hmem : op ∈ commandOps := command_op hhead hc
    rcases hop with hnot | ⟨hlow, -, -⟩
    · exact absurd (List.mem_append_left recordOps hmem) hnot
    · exact absurd (commandOps_below op hmem) (BitVec.not_lt.mpr hlow)
  | false =>
    rcases hop with hnot | ⟨-, -, hrun⟩
    · exact absurd (List.mem_append_right commandOps (record_op hhead hc hr)) hnot
    · exact ⟨.wiringInRunPhase, hstep.trans (recordsAreRefusedInTheRunPhase _ i hrun hc hr)⟩

end Sys2Proof.Machine
end

section
/-! SUPPORT. The operations of a bus, and FGET, by the case of what they find, and O6 to O9. -/

namespace Sys2Proof.Machine

variable {s : State} {b : Handle}

/-! ## BNEW (R131) -/

theorem exec_bnew_badWidth {width : Word} (hp : s.phase = .wiring) (hw : width.toInt < 1 ∨ 31 < width.toInt) :
    exec (.bnew b width) s = .next (s.withReport (.err (.invalidBusWidth width.toInt))) := by
  have hbad : width.toInt < 1 ∨ (Config.maxBusWidth : Int) < width.toInt := hw
  rw [exec, execBnew, inWiring_wiring hp, if_pos hbad, raise_eq, settle_err]

theorem exec_bnew_fresh {width : Word} (hp : s.phase = .wiring) (hb : s.bus? b = none) (hlo : 1 ≤ width.toInt)
    (hhi : width.toInt ≤ 31) :
    exec (.bnew b width) s = .next ((s.putBus b ⟨width.toNat, 0#32⟩).withReport (.ok none)) := by
  have hwidth : ¬(width.toInt < 1 ∨ (Config.maxBusWidth : Int) < width.toInt) :=
    not_or.mpr ⟨Int.not_lt.mpr hlo, Int.not_lt.mpr hhi⟩
  rw [exec, execBnew, inWiring_wiring hp, if_neg hwidth, hb, Option.isNone_none, require_true, settle_ok]

/-- The model keeps a width as the word's unsigned reading, which for a legal width is the signed one R131 checks. -/
theorem toNat_eq_toInt_toNat {w : Word} (h : 0 ≤ w.toInt) : w.toNat = w.toInt.toNat := by
  rw [toInt_of_lt ((toInt_nonneg_iff w).mp h), Int.toNat_natCast]

/-- Settles O6: the width is checked before the handle, and a legal one is its own natural number. -/
theorem bnewMakesTheBusOrRaises : Obligations.BnewMakesTheBusOrRaises := by
  intro s b width hp hb
  refine ⟨exec_bnew_badWidth hp, fun hlo hhi => ?_⟩
  rw [exec_bnew_fresh hp hb hlo hhi, toNat_eq_toInt_toNat (by omega)]

/-! ## BRD and FGET (R132, R153) -/

theorem exec_fget {f : Handle} {u : Flag} (hu : s.flag? f = some u) :
    exec (.fget f) s = .next (s.enterRun.withReport (.ok (some (u.value.setWidth 32)))) := by
  rw [exec, execFget, runFget, withFlag_some (s := s.enterRun) hu, settle_ok]

/-- Settles O7: a read finds its unit in the run phase as it stood before. -/
theorem brdAndFgetReadWithoutChange : Obligations.BrdAndFgetReadWithoutChange :=
  ⟨fun _ _ _ => exec_brd, fun _ _ _ => exec_fget⟩

/-! ## BWC (R133) -/

theorem fits_eq_false_iff {width : Nat} (hw : width ≤ 32) (v : Word) : fits width v = false ↔ 2 ^ width ≤ v.toNat := by
  rw [← Bool.not_eq_true, fits_iff hw, Nat.not_lt]

theorem exec_bwc_wide {u : Bus} {v : Word} (hu : s.bus? b = some u) (hw : u.width ≤ 31) (hv : 2 ^ u.width ≤ v.toNat) :
    exec (.bwc b v) s = .next (s.enterRun.withReport (.err (.invalidBusData b v))) := by
  have hwide : fits u.width v = false := (fits_eq_false_iff (by omega) v).mpr hv
  rw [exec, execBwc, runBwc, busWriteChecked_wide (s := s.enterRun) hu hwide, settle_err]

/-- Settles O8: the two cases of the checked write. -/
theorem bwcStoresWhatFitsOrRaises : Obligations.BwcStoresWhatFitsOrRaises :=
  fun _ _ _ _ hu hw => ⟨exec_bwc_fit hu hw, exec_bwc_wide hu hw⟩

/-! ## BWM (R134) -/

theorem exec_bwm {u : Bus} (v : Word) (hu : s.bus? b = some u) : exec (.bwm b v) s =
    .next ((s.enterRun.putBus b { u with value := v &&& maskOf u.width }).withReport
      (.ok (some (if fits u.width v then 1#32 else 0#32)))) := by
  rw [exec, execBwm, runBwm, busWriteMasked_some (s := s.enterRun) v hu, settle_ok]

/-- What a masking write stores, as a remainder (R134). -/
theorem and_maskOf {width : Nat} (hw : width ≤ 32) (v : Word) : v &&& maskOf width = BitVec.ofNat 32 (v.toNat % 2 ^ width) := by
  rw [← toNat_and_maskOf hw, BitVec.ofNat_toNat, BitVec.setWidth_eq]

/-- Settles O9: masking is the remainder by `2^width`, and no bit is dropped exactly when the value is below it. -/
theorem bwmStoresLowBitsAndReportsFit : Obligations.BwmStoresLowBitsAndReportsFit := by
  intro s b u v hu hw
  have h32 : u.width ≤ 32 := by omega
  simp only [exec_bwm v hu, and_maskOf h32, fits_iff h32]

end Sys2Proof.Machine
end

section
/-! SUPPORT. FNEW, FADDL and FSET, and deliveries to external listeners that issue nothing, by the case of what they find: O11 to O14
and O19. -/

namespace Sys2Proof.Machine

variable {s : State} {f x : Handle} {u : Flag}

/-! ## FNEW (R151) -/

theorem exec_fnew_fresh {init : Byte} (hp : s.phase = .wiring) (hv : s.definesValue init = true) (hf : s.flag? f = none) :
    exec (.fnew f init) s = .next ((s.putFlag f ⟨codeSet init, init, []⟩).withReport (.ok none)) := by
  rw [exec, execFnew, inWiring_wiring hp, hv, require_true, hf, Option.isNone_none, require_true, settle_ok]

theorem exec_fnew_undefined {init : Byte} (hp : s.phase = .wiring) (hv : s.definesValue init = false) :
    exec (.fnew f init) s = .refused (.flagValue f init) := by
  rw [exec, execFnew, inWiring_wiring hp, hv, require_false, settle_refused]

/-- Settles O11: the set is the high nibble of the value's code (R100). -/
theorem fnewMakesTheFlag : Obligations.FnewMakesTheFlag :=
  fun _ _ _ hp => ⟨exec_fnew_fresh hp, exec_fnew_undefined hp⟩

/-! ## FADDL (R152) -/

/-- In the wiring phase FADDL of an external listener appends it, if it is not yet listed. -/
theorem exec_faddl_external {l : ListenerRef} (hp : s.phase = .wiring) (hk : l.kind = 0x05#8) :
    exec (.faddl f l) s = settle (flagAppend f (.external l.index) s) := by
  rw [exec, execFaddl, inWiring_wiring hp, hk, beq_self_eq_true, require_true]

theorem exec_faddl_otherKind {l : ListenerRef} (hp : s.phase = .wiring) (hk : l.kind ≠ 0x05#8) :
    exec (.faddl f l) s = .refused .listenerKind := by
  rw [exec, execFaddl, inWiring_wiring hp, beq_false_of_ne hk, require_false, settle_refused]

/-- Settles O12: the phase, the kind and the list are checked in this order. -/
theorem faddlAppendsAnExternalListener : Obligations.FaddlAppendsAnExternalListener := by
  intro s f u l hf
  refine ⟨fun hp hk hl => ?fresh, fun hp hk hl => ?listed, exec_faddl_otherKind, fun hp => ?run⟩
  case fresh => rw [exec_faddl_external hp hk, flagAppend_fresh hf hl, settle_ok]
  case listed => rw [exec_faddl_external hp hk, flagAppend_listed hf hl, settle_refused]
  case run => exact recordsAreRefusedInTheRunPhase s (.faddl f l) hp rfl rfl

/-! ## EXT.ONF and EXT.ONT (R161, R179) -/

/-- A pulse presented on its own to listener x is its reaction to it (R179). -/
theorem exec_extOnt {dw : Delivery} (hz : dw.zero = 0#16) (hv : dw.val = 0#8) :
    exec (.extOnt x dw) s = settle (extReact (perform s.fuel) x (.onTick dw.src) s) := by
  rw [exec, execExtOnt, runExtOnt, withPulse_zero hz hv]

/-- Settles O19: with no command to carry out, the listener has moved on and that is all. -/
theorem observersChangeNothingElse : Obligations.ObserversChangeNothingElse := by
  intro s x dw own hz
  refine ⟨fun hr => ?flagChange, fun hv hr => ?pulse⟩
  case flagChange =>
    rw [← moveOn_eq hr]
    exact exec_extOnf_ok hz hr (runCommands_nil _ _)
  case pulse =>
    rw [exec_extOnt hz hv, extReact_ok hr (runCommands_nil _ _) rfl, moveOn_eq hr, settle_ok]

/-! ## FSET (R160) -/

/-- FSET of a member of the flag's set stores it and dispatches it, whatever the flag held (R154, R160). -/
theorem exec_fset_member {val : Byte} {ls : List Listener} (hf : s.flag? f = some u) (hv : s.memberOf u.set val = true)
    (hls : u.listeners = ls) :
    exec (.fset f val) s = settle (dispatch (perform s.fuel) (flagReaction f val) (fun i => .flag f i val) ls
      (s.enterRun.putFlag f { u with value := val })) := by
  rw [← hls, exec, execFset, runFset, withFlag_some (s := s.enterRun) hf, State.enterRun_memberOf, hv, require_true]

theorem observedBy_stack (ev : Event) (xs : List Handle) (s : State) : (s.observedBy ev xs).stack = s.stack := by
  obtain ⟨es, h⟩ := observedBy_eq ev xs s
  rw [h]

/-- A flag change dispatched to observers leaves the stack as it was (R35). -/
theorem dispatch_flag_observers {n : Nat} (hn : 1 ≤ n) (f : Handle) (val : Byte) (frame : Nat → Frame) {xs : List Handle}
    (hxs : ∀ x ∈ xs, s.observes x) :
    dispatch (perform n) (flagReaction f val) frame (xs.map .external) s = .ok (s.observedBy (.onFlagChange val f) xs) none := by
  obtain ⟨k, rfl⟩ := Nat.exists_eq_add_of_le' hn
  obtain ⟨fs, h⟩ := deliverAll_flag_observers k f val frame s.stack xs 0 s hxs
  rw [dispatch, h, unwound_ok, State.withStack_withStack, ← observedBy_stack (.onFlagChange val f) xs s, State.withStack_self]

/-- Settles O13: the dispatch does not ask what the flag held, and each observer's turn leaves the next one an observer. -/
theorem fsetDeliversOnceWhetherOrNotTheValueChanges : Obligations.FsetDeliversOnceWhetherOrNotTheValueChanges := by
  intro s f u val xs hf hv hls hxs hfuel
  rw [exec_fset_member hf hv hls, dispatch_flag_observers (s := s.enterRun.putFlag f _) hfuel f val _ hxs, settle_ok]

/-- A dispatch ends at the first listener that fails, with its error wrapped once, whoever comes after (R157, R175). -/
theorem dispatch_failing {nested : Instr → State → Res} {react : State → Listener → Except Refusal Instr} {frame : Nat → Frame}
    {before after : List Listener} {l : Listener} {r : Instr} {s₁ s₂ : State} {v : Option Word} {e : FabricError}
    (hbefore : deliverAll nested react frame s.stack 0 before s = .ok s₁ v) (hr : react s₁ l = .ok r)
    (hn : nested r (s₁.withStack (frame before.length :: s.stack)) = .err s₂ e) :
    dispatch nested react frame (before ++ l :: after) s = .err (s₂.withStack s.stack) (.signalPropagation e) := by
  rw [dispatch, deliverAll_append, hbefore, andThen_ok, Nat.zero_add, deliverAll_cons_err hr hn, unwound_err]

/-- Settles O14. -/
theorem fsetStopsAtTheFirstFailingListener : Obligations.FsetStopsAtTheFirstFailingListener := by
  intro s s₁ s₂ f u val before after l r v e hf hv hls hbefore hr hn
  rw [exec_fset_member hf hv hls, dispatch_failing (s := s.enterRun.putFlag f _) hbefore hr hn, settle_err]
  rfl

end Sys2Proof.Machine
end

section
/-! SUPPORT. A rule for the dispatch loop, what a value of each class makes of a memory, and O16: FSET over memories. -/

namespace Sys2Proof.Machine

variable {s t : State}

/-! ## A rule for the dispatch loop (R155 to R157) -/

/-- The operation is not refused, an `ok` has no result and leaves a state with `p`, and an `err` leaves one with `q`. -/
def Res.ends (r : Res) (p q : State → Prop) : Prop :=
  match r with
  | .ok s result => result = none ∧ p s
  | .err s _ => q s
  | .refused _ => False

/-- A property the stack has no part in stands after the dispatch is unwound. -/
theorem ends_unwound {r : Res} {p q : State → Prop} {fs : List Frame} (h : r.ends p q) (hp : ∀ t, p t → p (t.withStack fs))
    (hq : ∀ t, q t → q (t.withStack fs)) : (r.unwound fs).ends p q := by
  cases r with
  | ok t v => exact ⟨h.1, hp t h.2⟩
  | err t e => exact hq t h
  | refused w => exact h.elim

/-- The outcome of an operation that is not refused, as its issuer gets it. -/
theorem settle_of_ends {r : Res} {p q : State → Prop} (h : r.ends p q) :
    (∃ t, settle r = .next (t.withReport (.ok none)) ∧ p t) ∨ ∃ t e, settle r = .next (t.withReport (.err e)) ∧ q t := by
  cases r with
  | ok t v => obtain ⟨rfl, ht⟩ := h; exact .inl ⟨t, rfl, ht⟩
  | err t e => exact .inr ⟨t, e, rfl, h⟩
  | refused w => exact h.elim

section Loop

variable {nested : Instr → State → Res} {react : State → Listener → Except Refusal Instr} {frame : Nat → Frame} {outer : List Frame}
  {ls : List Listener} {inv : List Listener → State → Prop} {fail : State → Prop}
  (one : ∀ done l rest t, ls = done ++ l :: rest → inv done t →
    ∃ r, react t l = .ok r ∧ ∀ fs, (nested r (t.withStack fs)).ends (inv (done ++ [l])) fail)
include one

theorem deliverAll_ends_from (done rest : List Listener) (hls : ls = done ++ rest) (i : Nat) (h : inv done t) :
    (deliverAll nested react frame outer i rest t).ends (inv ls) fail := by
  induction rest generalizing done i t with
  | nil => rw [hls, List.append_nil]; exact ⟨rfl, h⟩
  | cons l rest ih =>
    obtain ⟨r, hr, hn⟩ := one done l rest t hls h
    have hstep := hn (frame i :: outer)
    cases hres : nested r (t.withStack (frame i :: outer)) with
    | ok t' v =>
      rw [hres] at hstep
      rw [deliverAll_cons_ok hr hres]
      exact ih (done ++ [l]) (by rw [hls, List.append_assoc]; rfl) (i + 1) hstep.2
    | err t' e =>
      rw [hres] at hstep
      rw [deliverAll_cons_err hr hres]
      exact hstep
    | refused w => rw [hres] at hstep; exact hstep.elim

/-- What each delivery carries on from the listeners before it to those up to it, the loop establishes of the whole list. -/
theorem deliverAll_ends (i : Nat) (h : inv [] s) : (deliverAll nested react frame outer i ls s).ends (inv ls) fail :=
  deliverAll_ends_from one [] ls rfl i h

end Loop

/-! ## What a WRITE-type value makes of a memory (R197, R200) -/

/-- Memory `u` after a WRITE-type value on its flag, with `a` on its address bus and `d` on its data bus. -/
def Mem.afterWrite (u : Mem) (a d : Word) : Mem :=
  if u.kind = .ram ∧ u.start ≤ a.toNat ∧ a.toNat ≤ u.last then u.stored a d else u

theorem afterWrite_rom {u : Mem} (hk : u.kind = .rom) (a d : Word) : u.afterWrite a d = u := by
  rw [Mem.afterWrite, hk, if_neg (fun h => nomatch h.1)]

theorem afterWrite_answered {u : Mem} {a : Word} (hk : u.kind = .ram) (h : u.start ≤ a.toNat ∧ a.toNat ≤ u.last) (d : Word) :
    u.afterWrite a d = u.stored a d := if_pos ⟨hk, h⟩

theorem afterWrite_outside {u : Mem} {a : Word} (h : a.toNat < u.start ∨ u.last < a.toNat) (d : Word) : u.afterWrite a d = u :=
  if_neg fun ⟨_, hlo, hhi⟩ => by omega

/-- In a RAM only the cell at the address changes, and only if the RAM answers. -/
theorem afterWrite_ram {u : Mem} (hk : u.kind = .ram) (a d : Word) :
    ∃ cells, u.afterWrite a d = { u with contents := cells } ∧
      ∀ j, Memory.read cells j =
        if u.start ≤ a.toNat ∧ a.toNat ≤ u.last ∧ j = a.toNat - u.start then d.setWidth 8 else Memory.read u.contents j := by
  by_cases h : u.start ≤ a.toNat ∧ a.toNat ≤ u.last
  · refine ⟨_, afterWrite_answered hk h d, fun j => ?_⟩
    simp only [Memory.read_write, h.1, h.2, true_and, eq_comm]
  · exact ⟨u.contents, afterWrite_outside (by omega) d, fun j => (if_neg fun hj => h ⟨hj.1, hj.2.1⟩).symm⟩

/-! ## The reaction of a memory to a value of each class (R99, R195 to R201) -/

section Reaction

variable {m f : Handle} {val : Byte} {cls : ValueClass} {u : Mem} {n : Nat} (hm : s.mem? m = some u) (hn : 1 ≤ n)
include hm hn

theorem perform_ram (hc : s.classOf val = some cls) (hk : u.kind = .ram) :
    perform n (memoryReaction u.kind cls m ⟨0#16, f, val⟩) s = ramEffect m u ⟨0#16, f, val⟩ s cls := by
  obtain ⟨k, rfl⟩ := Nat.exists_eq_add_of_le' hn
  have h := withMemReaction_some (dw := ⟨0#16, f, val⟩) rfl hm hk hc fun u => ramEffect m u ⟨0#16, f, val⟩ s
  rw [perform_succ, hk, ← h]
  cases cls <;> rfl

theorem perform_rom (hc : s.classOf val = some cls) (hk : u.kind = .rom) :
    perform n (memoryReaction u.kind cls m ⟨0#16, f, val⟩) s = romEffect u ⟨0#16, f, val⟩ s cls := by
  obtain ⟨k, rfl⟩ := Nat.exists_eq_add_of_le' hn
  have h := withMemReaction_some (dw := ⟨0#16, f, val⟩) rfl hm hk hc fun u => romEffect u ⟨0#16, f, val⟩ s
  rw [perform_succ, hk, ← h]
  cases cls <;> rfl

/-- Both kinds read alike (R196, R199). -/
theorem perform_memory_read (hc : s.classOf val = some .read) :
    perform n (memoryReaction u.kind .read m ⟨0#16, f, val⟩) s = memRead u ⟨0#16, f, val⟩ s := by
  cases hk : u.kind with
  | ram => exact hk ▸ perform_ram hm hn hc hk
  | rom => exact hk ▸ perform_rom hm hn hc hk

/-- Neither kind reacts to a value of class OTHER (R198, R201). -/
theorem perform_memory_other (hc : s.classOf val = some .other) :
    perform n (memoryReaction u.kind .other m ⟨0#16, f, val⟩) s = .ok s none := by
  cases hk : u.kind with
  | ram => exact hk ▸ perform_ram hm hn hc hk
  | rom => exact hk ▸ perform_rom hm hn hc hk

end Reaction

/-- Memory `m`, which is `w`, hears flag `f`; its address bus is `a` and its data bus `d`, of which a RAM can store the value
(R38 items 7 and 8). -/
structure State.MemoryOn (s : State) (f m : Handle) (w : Mem) (a d : Bus) : Prop where
  mem : s.mem? m = some w
  flag : w.flag = f
  address : s.bus? w.abus = some a
  data : s.bus? w.dbus = some d
  narrow : w.kind = .ram → d.value.toNat < 256

section MemoryOn

variable {f m : Handle} {w : Mem} {a d : Bus} {val : Byte} {n : Nat}

/-- A well-formed wiring lists on a flag only memories that hear it (R38). -/
theorem memoryOn_of_listed {u : Flag} (hw : s.wellWired) (hf : s.flag? f = some u) (hl : .memory m ∈ u.listeners) :
    ∃ w a d, s.MemoryOn f m w a d := by
  obtain ⟨-, hbuses, -, -, -, hflags, -, hmems, -⟩ := hw
  have hhears := (hflags _ (Table.look_mem hf)).2 _ hl
  rw [BitVec.ofNat_toNat, BitVec.setWidth_eq] at hhears
  obtain ⟨w, hm, hflag⟩ := (Option.any_eq_true _ _).mp hhears
  obtain ⟨htriple, -, hram⟩ := hmems _ (Table.look_mem hm)
  obtain ⟨a, d, -, ha, hd, -⟩ := hasTriple_iff.mp htriple
  obtain ⟨-, -, hmasked⟩ := hbuses _ (Table.look_mem hd)
  refine ⟨w, a, d, hm, eq_of_beq hflag, ha, hd, fun hk => ?_⟩
  have hwidth := hram hk
  rw [hd, Option.all_some] at hwidth
  exact narrow_of_fits (of_decide_eq_true hwidth) hmasked

/-- A READ-type value: nothing, or a new value on the data bus, or an error that changes nothing (R195, R196, R199). -/
theorem memRead_ends {dw : Delivery} {p q : State → Prop} (hf : dw.src = w.flag) (ha : s.bus? w.abus = some a)
    (hd : s.bus? w.dbus = some d) (hs : p s) (hput : ∀ v, p (s.putBus w.dbus { d with value := v })) (he : q s) :
    (memRead w dw s).ends p q := by
  by_cases hrange : w.start ≤ a.value.toNat ∧ a.value.toNat ≤ w.last
  · rw [memRead, memAnswer_inside hf ha hrange]
    cases hfit : fits d.width (cellWord w (a.value.toNat - w.start)) with
    | true => rw [busWriteChecked_fit hd hfit]; exact ⟨rfl, hput _⟩
    | false => rw [busWriteChecked_wide hd hfit]; exact he
  · rw [memRead, memAnswer_outside ha (by omega)]
    exact ⟨rfl, hs⟩

/-- A WRITE-type value: the memory is made what it is after the write, or already is that (R195, R197, R200). -/
theorem perform_memory_write (h : s.MemoryOn f m w a d) (hn : 1 ≤ n) (hc : s.classOf val = some .write) :
    perform n (memoryReaction w.kind .write m ⟨0#16, f, val⟩) s = .ok (s.putMem m (w.afterWrite a.value d.value)) none ∨
    perform n (memoryReaction w.kind .write m ⟨0#16, f, val⟩) s = .ok s none ∧ w.afterWrite a.value d.value = w := by
  cases hk : w.kind with
  | rom => exact .inr ⟨hk ▸ perform_rom h.mem hn hc hk, afterWrite_rom hk _ _⟩
  | ram =>
    rw [← hk, perform_ram h.mem hn hc hk, ramEffect, memWrite]
    by_cases hrange : w.start ≤ a.value.toNat ∧ a.value.toNat ≤ w.last
    · refine .inl ?_
      rw [memAnswer_inside h.flag.symm h.address hrange, withBus_some h.data, cellStore_narrow (h.narrow hk),
        afterWrite_answered hk hrange]
      rfl
    · have hout : a.value.toNat < w.start ∨ w.last < a.value.toNat := by omega
      exact .inr ⟨memAnswer_outside h.address hout _, afterWrite_outside hout _⟩

end MemoryOn

/-! ## What the memories of a list have changed -/

/-- State `t` is `s` after a value of class `cls` was delivered to the memories `done`, out of a list `ls`. -/
structure State.Delivered (s : State) (cls : ValueClass) (ls done : List Listener) (t : State) : Prop where
  frame : t = { s with buses := t.buses, mems := t.mems, stack := t.stack }
  buses : cls ≠ .read → t.buses = s.buses
  mems : cls ≠ .write → t.mems = s.mems
  bus : ∀ b d, s.bus? b = some d → ∃ v, t.bus? b = some { d with value := v }
  undriven : ∀ b, (∀ m w, .memory m ∈ ls → s.mem? m = some w → w.dbus ≠ b) → t.bus? b = s.bus? b
  unreached : ∀ m, .memory m ∉ done → t.mem? m = s.mem? m
  written : cls = .write → ∀ m w a d, .memory m ∈ done → s.mem? m = some w → s.bus? w.abus = some a → s.bus? w.dbus = some d →
    t.mem? m = some (w.afterWrite a.value d.value)

section Delivered

variable {cls : ValueClass} {ls done : List Listener}

theorem delivered_nil (s : State) (cls : ValueClass) (ls : List Listener) : s.Delivered cls ls [] s where
  frame := rfl
  buses _ := rfl
  mems _ := rfl
  bus _ _ hd := ⟨_, hd⟩
  undriven _ _ := rfl
  unreached _ _ := rfl
  written := nofun

theorem delivered_withStack (h : s.Delivered cls ls done t) (fs : List Frame) : s.Delivered cls ls done (t.withStack fs) :=
  { h with frame := by rw [h.frame]; rfl }

/-- A class that writes no cell leaves no trace of which memories it has reached. -/
theorem delivered_notWrite (h : s.Delivered cls ls done t) (hc : cls ≠ .write) (done' : List Listener) : s.Delivered cls ls done' t :=
  { h with
    unreached := fun _ _ => congrArg (Table.look · _) (h.mems hc)
    written := fun hw => absurd hw hc }

/-- A memory of the list has put a value on its data bus. -/
theorem delivered_putBus {m : Handle} {w : Mem} {d : Bus} (h : s.Delivered .read ls done t) (hl : .memory m ∈ ls)
    (hm : s.mem? m = some w) (hd : s.bus? w.dbus = some d) (v : Word) :
    s.Delivered .read ls done (t.putBus w.dbus { d with value := v }) where
  frame := by rw [h.frame]; rfl
  buses hc := absurd rfl hc
  mems := h.mems
  unreached := h.unreached
  written := nofun
  undriven b hb := (State.putBus_bus_ne t _ _ (hb m w hl hm)).trans (h.undriven b hb)
  bus b d' hd' := by
    by_cases hbus : w.dbus = b
    · subst hbus
      cases hd.symm.trans hd'
      exact ⟨v, State.putBus_bus_self ..⟩
    · rw [State.putBus_bus_ne t _ _ hbus]
      exact h.bus b d' hd'

/-- A memory not reached before has taken in the write. -/
theorem delivered_write {m : Handle} {w : Mem} {a d : Bus} {t' : State} (h : s.Delivered .write ls done t) (hm : s.mem? m = some w)
    (ha : s.bus? w.abus = some a) (hd : s.bus? w.dbus = some d)
    (ht : t' = { t with mems := t'.mems }) (hself : t'.mem? m = some (w.afterWrite a.value d.value))
    (hother : ∀ m', m ≠ m' → t'.mem? m' = t.mem? m') : s.Delivered .write ls (done ++ [.memory m]) t' := by
  have hbuses : t'.buses = s.buses := by rw [ht]; exact h.buses nofun
  have hbus (b : Handle) : t'.bus? b = s.bus? b := congrArg (Table.look · b.toNat) hbuses
  refine ⟨?frame, fun _ => hbuses, fun hc => absurd rfl hc, fun b d' hd' => ⟨d'.value, (hbus b).trans hd'⟩, fun b _ => hbus b,
    ?unreached, ?written⟩
  case frame => rw [ht, h.frame]
  case unreached =>
    intro m' hm'
    have hne : m ≠ m' := by rintro rfl; simp at hm'
    rw [hother m' hne, h.unreached m' fun hin => hm' (List.mem_append_left _ hin)]
  case written =>
    intro _ m' w' a' d' hin hm' ha' hd'
    by_cases hne : m = m'
    · subst hne
      cases hm.symm.trans hm'
      cases ha.symm.trans ha'
      cases hd.symm.trans hd'
      exact hself
    · have hdone : .memory m' ∈ done := by simpa [Ne.symm hne] using hin
      rw [hother m' hne, h.written rfl m' w' a' d' hdone hm' ha' hd']

/-- One memory more is reached: it is not refused, and only a read may fail. -/
theorem delivered_one {f m : Handle} {w : Mem} {a d : Bus} {val : Byte} {n : Nat} (h : s.Delivered cls ls done t)
    (hm : s.MemoryOn f m w a d) (hl : .memory m ∈ ls) (hnew : .memory m ∉ done) (hc : s.classOf val = some cls) (hn : 1 ≤ n) :
    ∃ r, flagReaction f val t (.memory m) = .ok r ∧ ∀ fs, (perform n r (t.withStack fs)).ends
      (s.Delivered cls ls (done ++ [.memory m])) fun e => cls = .read ∧ s.Delivered cls ls ls e := by
  have hclass : t.classOf val = some cls := by rw [h.frame]; exact hc
  have hmem : t.mem? m = some w := (h.unreached m hnew).trans hm.mem
  refine ⟨_, flagReaction_memory hmem hclass, fun fs => ?_⟩
  have hfs := delivered_withStack h fs
  cases cls with
  | read =>
    obtain ⟨v, ha⟩ := h.bus _ _ hm.address
    obtain ⟨v', hd⟩ := h.bus _ _ hm.data
    rw [perform_memory_read (s := t.withStack fs) hmem hn hclass]
    exact memRead_ends hm.flag.symm ha hd (delivered_notWrite hfs nofun _)
      (fun v => delivered_notWrite (delivered_putBus hfs hl hm.mem hm.data v) nofun _) ⟨rfl, delivered_notWrite hfs nofun _⟩
  | write =>
    have hbus (b : Handle) : t.bus? b = s.bus? b := congrArg (Table.look · b.toNat) (h.buses nofun)
    have hon : (t.withStack fs).MemoryOn f m w a d :=
      ⟨hmem, hm.flag, (hbus _).trans hm.address, (hbus _).trans hm.data, hm.narrow⟩
    rcases perform_memory_write hon hn hclass with hput | ⟨hkept, hafter⟩
    · rw [hput]
      exact ⟨rfl, delivered_write hfs hm.mem hm.address hm.data rfl (State.putMem_mem_self ..)
        fun m' hne => State.putMem_mem_ne _ m _ hne⟩
    · rw [hkept]
      exact ⟨rfl, delivered_write hfs hm.mem hm.address hm.data rfl (hafter.symm ▸ hmem) fun _ _ => rfl⟩
  | other =>
    rw [perform_memory_other (s := t.withStack fs) hmem hn hclass]
    exact ⟨rfl, delivered_notWrite hfs nofun _⟩

/-- A value dispatched to memories that hear the flag, none listed twice, reaches them all, unless a read fails before. -/
theorem dispatch_memories {f : Handle} {val : Byte} {n : Nat} (frame : Nat → Frame) (hnodup : ls.Nodup)
    (hls : ∀ l ∈ ls, ∃ m w a d, l = .memory m ∧ s.MemoryOn f m w a d) (hc : s.classOf val = some cls) (hn : 1 ≤ n) :
    (dispatch (perform n) (flagReaction f val) frame ls s).ends (s.Delivered cls ls ls)
      fun e => cls = .read ∧ s.Delivered cls ls ls e := by
  refine ends_unwound (deliverAll_ends (fun done l rest t hsplit h => ?_) 0 (delivered_nil s cls ls))
    (fun _ h => delivered_withStack h _) fun _ h => ⟨h.1, delivered_withStack h.2 _⟩
  have hl : l ∈ ls := by simp [hsplit]
  obtain ⟨m, w, a, d, rfl, hon⟩ := hls l hl
  have hnew : .memory m ∉ done := by
    rw [hsplit] at hnodup
    obtain ⟨-, -, happart⟩ := List.nodup_append.mp hnodup
    exact fun hin => happart _ hin _ List.mem_cons_self rfl
  exact delivered_one h hon hl hnew hc hn

end Delivered

/-! ## O16 -/

/-- FSET on a flag that only memories hear reaches them all, and ends with an error only if it reads. -/
theorem exec_fset_memories {f : Handle} {u : Flag} {val : Byte} {cls : ValueClass} (hw : s.wellWired) (hf : s.flag? f = some u)
    (hv : s.memberOf u.set val = true) (hls : ∀ l ∈ u.listeners, ∃ m, l = .memory m) (hfuel : 1 ≤ s.fuel)
    (hc : s.classOf val = some cls) :
    ∃ t r, exec (.fset f val) s = .next (t.withReport r) ∧ (cls ≠ .read → r = .ok none) ∧
      (s.enterRun.putFlag f { u with value := val }).Delivered cls u.listeners u.listeners t := by
  have hnodup : u.listeners.Nodup := by
    obtain ⟨-, -, -, -, -, hflags, -⟩ := hw
    exact (hflags _ (Table.look_mem hf)).1
  have hrun := dispatch_memories (s := s.enterRun.putFlag f { u with value := val }) (fun i => .flag f i val) hnodup
    (fun l hl => by
      obtain ⟨m, rfl⟩ := hls l hl
      obtain ⟨w, a, d, hon⟩ := memoryOn_of_listed hw hf hl
      exact ⟨m, w, a, d, rfl, { hon with mem := hon.mem }⟩) hc hfuel
  rw [exec_fset_member hf hv rfl]
  rcases settle_of_ends hrun with ⟨t, hsettle, h⟩ | ⟨t, e, hsettle, hread, h⟩
  · exact ⟨t, _, hsettle, fun _ => rfl, h⟩
  · exact ⟨t, _, hsettle, fun hc => absurd hread hc, h⟩

/-- Settles O16: each clause is read off what the memories of the list have changed. -/
theorem fsetOverMemoriesCompletes : Obligations.FsetOverMemoriesCompletes := by
  intro s f u val hw hf hv hls hfuel
  obtain ⟨cls, hc⟩ := memberOf_class hv
  obtain ⟨t, r, hexec, hreport, h⟩ := exec_fset_memories hw hf hv hls hfuel hc
  obtain ⟨bs, ms, fs, rfl⟩ : ∃ bs ms fs, t = { s.enterRun.putFlag f { u with value := val } with
    buses := bs, mems := ms, stack := fs } := ⟨_, _, _, h.frame⟩
  rw [hc]
  refine ⟨_, hexec, State.putFlag_flag_self .., fun g hg => State.putFlag_flag_ne _ f _ hg.symm, rfl, rfl, rfl, rfl,
    exec_stack hexec, h.undriven, h.bus, fun hne => ?notRead, fun hne => ?notWrite, fun m w hm hor => ?unanswered,
    fun hwrite m w a d hl hm hk ha hd => ?ram⟩
  case notRead =>
    have hcls : cls ≠ .read := fun he => hne (congrArg some he)
    exact ⟨h.buses hcls, congrArg some (hreport hcls)⟩
  case notWrite => exact h.mems fun he => hne (congrArg some he)
  case unanswered =>
    rcases hor with hrom | hl
    · exact changes_keep (p := fun s => s.mem? m = some w) (fun _ _ => change_rom hrom) (exec_changes hexec) hm
    · exact (h.unreached m hl).trans hm
  case ram =>
    obtain ⟨cells, hcells, hread⟩ := afterWrite_ram hk a.value d.value
    exact ⟨cells, (h.written (Option.some.inj hwrite) m w a d hl hm ha hd).trans (congrArg some hcells), hread⟩

end Sys2Proof.Machine
end

section
/-! SUPPORT. What CNEW, DNEW and CADDL make, that the search CADDL makes finds the clocks a divider reaches, and O21 and O22. -/

namespace Sys2Proof.Machine

variable {s : State} {c : Handle}

/-! ## CNEW and DNEW (R171, R172) -/

theorem exec_cnew_fresh (hp : s.phase = .wiring) (hc : s.clock? c = none) :
    exec (.cnew c) s = .next ((s.putClock c ⟨none, []⟩).withReport (.ok none)) := by
  rw [exec, execCnew, inWiring_wiring hp, hc, Option.isNone_none, require_true, settle_ok]

theorem exec_dnew_fresh {period : Word} (hp : s.phase = .wiring) (hper : 1 ≤ period.toInt) (hc : s.clock? c = none) :
    exec (.dnew c period) s = .next ((s.putClock c ⟨some ⟨period.toNat, 0⟩, []⟩).withReport (.ok none)) := by
  rw [exec, execDnew, inWiring_wiring hp, decide_eq_true hper, require_true, hc, Option.isNone_none, require_true, settle_ok]

theorem exec_dnew_badPeriod {period : Word} (hp : s.phase = .wiring) (hper : period.toInt < 1) :
    exec (.dnew c period) s = .refused .badPeriod := by
  rw [exec, execDnew, inWiring_wiring hp, decide_eq_false (Int.not_le.mpr hper), require_false, settle_refused]

/-- Settles O21: a legal period is its own natural number. -/
theorem cnewAndDnewMakeTheClock : Obligations.CnewAndDnewMakeTheClock := by
  intro s c hp
  refine ⟨exec_cnew_fresh hp, fun period hper hc => ?_, fun period => exec_dnew_badPeriod hp⟩
  rw [exec_dnew_fresh hp hper hc, toNat_eq_toInt_toNat (by omega)]

/-! ## Which clocks a divider reaches (R173, R183) -/

theorem mem_childDividers {d : Handle} : d ∈ s.childDividers c ↔ s.feeds c d := by
  unfold State.childDividers State.feeds
  cases hc : s.clock? c with
  | none => simp
  | some u =>
    simp only [List.mem_filterMap, Option.some.injEq, exists_eq_left']
    constructor
    · rintro ⟨l, hl, hd⟩
      cases l with
      | divider e => cases hd; exact hl
      | memory | mapper | external => cases hd
    · exact fun hl => ⟨_, hl, rfl⟩

/-- The clocks one round of steps adds to a list (R173). -/
def State.frontier (s : State) (cs : List Handle) : List Handle :=
  ((cs.flatMap s.childDividers).filter fun d => !cs.contains d).dedup

theorem mem_frontier {cs : List Handle} {d : Handle} : d ∈ s.frontier cs ↔ d ∉ cs ∧ ∃ e ∈ cs, s.feeds e d := by
  simp [State.frontier, mem_childDividers, and_comm]

/-- No divider fed from a list is missing from it. -/
def State.closed (s : State) (cs : List Handle) : Prop := ∀ e ∈ cs, ∀ d, s.feeds e d → d ∈ cs

theorem frontier_eq_nil {cs : List Handle} : s.frontier cs = [] ↔ s.closed cs := by
  rw [List.eq_nil_iff_forall_not_mem]
  constructor
  · intro h e he d hd
    by_contra hnew
    exact h d (mem_frontier.mpr ⟨hnew, e, he, hd⟩)
  · intro h d hd
    obtain ⟨hnew, e, he, hfeeds⟩ := mem_frontier.mp hd
    exact hnew (h e he d hfeeds)

theorem reachedBy_closed {cs : List Handle} (h : s.closed cs) (n : Nat) : s.reachedBy n cs = cs := by
  cases n with
  | zero => rfl
  | succ n => rw [State.reachedBy, ← State.frontier, frontier_eq_nil.mpr h]

/-- A round adds the frontier, also where that is empty. -/
theorem reachedBy_succ (n : Nat) (cs : List Handle) : s.reachedBy (n + 1) cs = s.reachedBy n (cs ++ s.frontier cs) := by
  cases hf : s.frontier cs with
  | nil =>
    have hclosed := frontier_eq_nil.mp hf
    rw [List.append_nil, reachedBy_closed hclosed, reachedBy_closed hclosed]
  | cons d ds => rw [State.reachedBy, ← State.frontier, hf]

theorem nodup_append_frontier {cs : List Handle} (h : cs.Nodup) : (cs ++ s.frontier cs).Nodup :=
  List.nodup_append.mpr ⟨h, List.nodup_dedup _, fun _ he _ hd heq => (mem_frontier.mp hd).1 (heq ▸ he)⟩

/-- What a search finds is reached from where it began. -/
theorem reaches_of_mem_reachedBy {a d : Handle} {n : Nat} {cs : List Handle} (hcs : ∀ e ∈ cs, s.Reaches a e)
    (hd : d ∈ s.reachedBy n cs) : s.Reaches a d := by
  induction n generalizing cs with
  | zero => exact hcs d hd
  | succ n ih =>
    rw [reachedBy_succ] at hd
    refine ih (fun e he => ?_) hd
    rcases List.mem_append.mp he with he | he
    · exact hcs e he
    · obtain ⟨-, e', he', hfeeds⟩ := mem_frontier.mp he
      exact .further (hcs e' he') hfeeds

theorem subset_reachedBy (n : Nat) (cs : List Handle) : cs ⊆ s.reachedBy n cs := by
  induction n generalizing cs with
  | zero => exact List.Subset.refl _
  | succ n ih => rw [reachedBy_succ]; exact List.Subset.trans (List.subset_append_left _ _) (ih _)

/-- A list of handles without repetition, as long as there are handles, holds every one of them. -/
theorem mem_of_handleCount_le {cs : List Handle} (h : cs.Nodup) (hlen : handleCount ≤ cs.length) (d : Handle) : d ∈ cs := by
  by_contra hd
  have hcard := (List.nodup_cons.mpr ⟨hd, h⟩).length_le_card
  rw [List.length_cons, ← FinEnum.card_eq_fintypeCard, FinEnum.card_bitVec] at hcard
  exact absurd (hlen.trans_lt hcard) (by decide)

/-- Each round that does not close the list adds a handle, so as many rounds as there are handles left close it. -/
theorem closed_reachedBy {n : Nat} {cs : List Handle} (h : cs.Nodup) (hlen : handleCount ≤ cs.length + n) :
    s.closed (s.reachedBy n cs) := by
  induction n generalizing cs with
  | zero => exact fun _ _ d _ => mem_of_handleCount_le h hlen d
  | succ n ih =>
    by_cases hclosed : s.closed cs
    · rwa [reachedBy_closed hclosed]
    · have hpos := List.length_pos_iff.mpr fun hnil => hclosed (frontier_eq_nil.mp hnil)
      rw [reachedBy_succ]
      exact ih (nodup_append_frontier h) (by rw [List.length_append]; omega)

theorem mem_of_reaches {a d : Handle} {cs : List Handle} (hcs : s.closed cs) (ha : a ∈ cs) (h : s.Reaches a d) : d ∈ cs := by
  induction h with
  | here => exact ha
  | further _ hfeeds ih => exact hcs _ ih _ hfeeds

/-- CADDL's check finds a cycle exactly when there would be one (R173). -/
theorem wouldCycle_iff {d : Handle} : s.wouldCycle c d = true ↔ s.Reaches d c := by
  rw [State.wouldCycle, List.contains_iff_mem]
  constructor
  · exact reaches_of_mem_reachedBy fun e he => by rw [List.mem_singleton.mp he]; exact .here d
  · have hclosed : s.closed (s.reachedBy handleCount [d]) := closed_reachedBy (List.nodup_singleton d) (Nat.le_add_left ..)
    exact mem_of_reaches hclosed (subset_reachedBy _ _ List.mem_cons_self)

theorem wouldCycle_eq_false_iff {d : Handle} : s.wouldCycle c d = false ↔ ¬s.Reaches d c := by
  rw [← Bool.not_eq_true, wouldCycle_iff]

/-! ## CADDL (R173) -/

section Caddl

variable {l : ListenerRef} (hp : s.phase = .wiring)
include hp

theorem exec_caddl_external (hk : l.kind = 0x05#8) : exec (.caddl c l) s = settle (clockAppend c (.external l.index) s) := by
  rw [exec, execCaddl, inWiring_wiring hp, hk, if_neg (by decide), beq_self_eq_true, require_true]

theorem exec_caddl_divider {d : Clock} (hk : l.kind = 0x02#8) (hd : s.clock? l.index = some d) (hdiv : d.divider.isSome = true) :
    exec (.caddl c l) s =
      settle (require (!s.wouldCycle c l.index) .dividerCycle (clockAppend c (.divider l.index) s)) := by
  rw [exec, execCaddl, inWiring_wiring hp, if_pos hk, withDivider, withClock_some hd, hdiv, require_true]

theorem exec_caddl_otherKind (hdivider : l.kind ≠ 0x02#8) (hexternal : l.kind ≠ 0x05#8) :
    exec (.caddl c l) s = .refused .listenerKind := by
  rw [exec, execCaddl, inWiring_wiring hp, if_neg hdivider, beq_false_of_ne hexternal, require_false, settle_refused]

end Caddl

/-- Settles O22: CADDL's search of the divider's own dividers answers whether one of them is the clock. -/
theorem caddlAppendsUnlessACycleArises : Obligations.CaddlAppendsUnlessACycleArises := by
  intro s c u l hp hc
  refine ⟨fun hk => ?external, fun d hk hd hdiv => ?divider, exec_caddl_otherKind hp⟩
  case external =>
    rw [exec_caddl_external hp hk]
    refine ⟨fun hl => ?_, fun hl => ?_⟩
    · rw [clockAppend_fresh hc hl, settle_ok]
    · rw [clockAppend_listed hc hl, settle_refused]
  case divider =>
    rw [exec_caddl_divider hp hk hd hdiv]
    refine ⟨fun hreach => ?_, fun hreach hl => ?_, fun hreach hl => ?_⟩
    · rw [wouldCycle_iff.mpr hreach, Bool.not_true, require_false, settle_refused]
    · rw [wouldCycle_eq_false_iff.mpr hreach, Bool.not_false, require_true, clockAppend_fresh hc hl, settle_ok]
    · rw [wouldCycle_eq_false_iff.mpr hreach, Bool.not_false, require_true, clockAppend_listed hc hl, settle_refused]

end Sys2Proof.Machine
end

section
/-! SUPPORT. One pulse of a clock (TICK) by what its listeners do, one pulse of a divider (DIV.ONT) by its counter; O23, O24, O26, O28. -/

namespace Sys2Proof.Machine

variable {s t : State} {c d x : Handle} {u : Clock}

/-! ## TICK (R176) -/

theorem runTick_dispatch (nested : Instr → State → Res) {ls : List Listener} (hc : s.clock? c = some u)
    (hm : s.midPulse c = false) (hls : u.listeners = ls) :
    runTick nested c s = dispatch nested (fun _ => tickReaction c) (fun i => .clock c i) ls s := by
  rw [← hls, runTick, withClock_some hc, hm, Bool.not_false, require_true]

/-- A clock in mid-pulse refuses another pulse (R183). -/
theorem runTick_busy (nested : Instr → State → Res) (hc : s.clock? c = some u) (hm : s.midPulse c = true) :
    runTick nested c s = .refused (.clockBusy c) := by
  rw [runTick, withClock_some hc, hm, Bool.not_true, require_false]

theorem perform_tick (n : Nat) (c : Handle) (s : State) : perform (n + 1) (.tick c) s = runTick (perform n) c s := rfl

/-- A pulse dispatched to observers leaves the stack as it was (R35). -/
theorem dispatch_clock_observers {n : Nat} (hn : 1 ≤ n) (c : Handle) (frame : Nat → Frame) {xs : List Handle}
    (hxs : ∀ x ∈ xs, s.observes x) :
    dispatch (perform n) (fun _ => tickReaction c) frame (xs.map .external) s = .ok (s.observedBy (.onTick c) xs) none := by
  obtain ⟨k, rfl⟩ := Nat.exists_eq_add_of_le' hn
  obtain ⟨fs, h⟩ := deliverAll_clock_observers k c frame s.stack xs 0 s hxs
  rw [dispatch, h, unwound_ok, State.withStack_withStack, ← observedBy_stack (.onTick c) xs s, State.withStack_self]

theorem runTick_observers {n : Nat} {xs : List Handle} (hn : 1 ≤ n) (hc : s.clock? c = some u) (hm : s.midPulse c = false)
    (hls : u.listeners = xs.map .external) (hxs : ∀ x ∈ xs, s.observes x) :
    runTick (perform n) c s = .ok (s.observedBy (.onTick c) xs) none := by
  rw [runTick_dispatch _ hc hm hls, dispatch_clock_observers hn c _ hxs]

/-- Settles O23: the phase has begun before the pulse, and an observer is one in either phase. -/
theorem tickPulsesEveryListenerOnce : Obligations.TickPulsesEveryListenerOnce := by
  intro s c u xs hc hm hls hxs hfuel
  rw [exec, execTick, runTick_observers (s := s.enterRun) hfuel hc hm hls hxs, settle_ok]

/-! ## A clock in mid-pulse (R183) -/

/-- While a listener of clock c runs, a pulse of c is in progress, and one of any other clock is if it was before. -/
theorem midPulse_withStack_clock (s : State) (c d : Handle) (i : Nat) :
    (s.withStack (.clock c i :: s.stack)).midPulse d = (c == d || s.midPulse d) := rfl

theorem perform_extOnt (n : Nat) (s : State) (x c : Handle) :
    perform (n + 1) (.extOnt x ⟨0#16, c, 0#8⟩) s = extReact (perform n) x (.onTick c) s := by
  rw [perform_succ, act, runExtOnt, withPulse_zero rfl rfl]

/-- A listener whose first command is refused: the whole operation is (R15, R301). -/
theorem extReact_refused {nested : Instr → State → Res} {ev : Event} {i : Instr} {h : FabricError → Bool} {cs : List ExtCommand}
    {failure : Option Nat} {own : List Nat} {w : Refusal} (hr : s.reaction x ev = ⟨⟨i, h⟩ :: cs, failure, own⟩)
    (hi : i.isCommand = true) (hn : nested i (s.moveOn x ev) = .refused w) : extReact nested x ev s = .refused w := by
  rw [extReact, hr, runCommands, if_pos hi, hn, andThen_refused]

theorem dispatch_refused {nested : Instr → State → Res} {react : State → Listener → Except Refusal Instr} {frame : Nat → Frame}
    {l : Listener} {r : Instr} {w : Refusal} (ls : List Listener) (hr : react s l = .ok r)
    (hn : nested r (s.withStack (frame 0 :: s.stack)) = .refused w) : dispatch nested react frame (l :: ls) s = .refused w := by
  simp [dispatch, deliverAll, hr, hn]

/-- Settles O24: the dispatch puts the clock's own frame on the stack before its first listener runs. -/
theorem tickInsideItsOwnPulseIsRefused : Obligations.TickInsideItsOwnPulseIsRefused := by
  refine ⟨fun s c u hc hm => ?busy, fun s c x u h cs failure own ls hc hm hls hr hfuel => ?nested⟩
  case busy => rw [exec, execTick, runTick_busy (s := s.enterRun) _ hc hm, settle_refused]
  case nested =>
    obtain ⟨n, hn⟩ := Nat.exists_eq_add_of_le' hfuel
    have hbusy : ((s.enterRun.withStack (.clock c 0 :: s.stack)).moveOn x (.onTick c)).midPulse c = true := by
      rw [State.moveOn_midPulse]
      exact (midPulse_withStack_clock s.enterRun c c 0).trans (by rw [beq_self_eq_true, Bool.true_or])
    have hpulse : perform s.fuel (.extOnt x ⟨0#16, c, 0#8⟩) (s.enterRun.withStack (.clock c 0 :: s.stack)) =
        .refused (.clockBusy c) := by
      rw [hn, perform_extOnt]
      refine extReact_refused (s := s.enterRun.withStack _) hr rfl ?_
      exact runTick_busy (perform n) (s := (s.enterRun.withStack _).moveOn x _) hc hbusy
    rw [exec, execTick, runTick_dispatch (s := s.enterRun) _ hc hm hls, dispatch_refused (s := s.enterRun) ls rfl hpulse,
      settle_refused]

/-- A pulse whose one listener only fails: the error is wrapped once, and the listener has moved on (R175, R289). -/
theorem runTick_failing {n code : Nat} {own : List Nat} (hn : 1 ≤ n) (hc : s.clock? c = some u) (hm : s.midPulse c = false)
    (hls : u.listeners = [.external x]) (hr : s.reaction x (.onTick c) = ⟨[], some code, own⟩) :
    runTick (perform n) c s = .err (s.moveOn x (.onTick c)) (.signalPropagation (.ofListener x code)) := by
  obtain ⟨k, rfl⟩ := Nat.exists_eq_add_of_le' hn
  have hfail (fs : List Frame) : perform (k + 1) (.extOnt x ⟨0#16, c, 0#8⟩) (s.withStack fs) =
      .err ((s.moveOn x (.onTick c)).withStack fs) (.ofListener x code) := by
    rw [perform_extOnt, extReact_ownError (s := s.withStack fs) hr (runCommands_nil _ _) rfl, State.moveOn_withStack]
  rw [runTick_dispatch _ hc hm hls, dispatch_one_err rfl (hfail _)]
  rfl

/-! ## DIV.ONT (R178) -/

/-- Divider u, which stands at `v`, with its counter at `k`. -/
abbrev Clock.atCount (u : Clock) (v : Divider) (k : Nat) : Clock := { u with divider := some { v with counter := k } }

section DivOnt

variable {nested : Instr → State → Res} {dw : Delivery} {v : Divider} (hd : s.clock? d = some u) (hv : u.divider = some v)
  (hz : dw.zero = 0#16) (hval : dw.val = 0#8)
include hd hv hz hval

theorem runDivOnt_count (h : v.counter + 1 ≠ v.period) : runDivOnt nested d dw s =
    .ok (s.putClock d (u.atCount v (v.counter + 1))) none := by
  rw [runDivOnt, withPulse_zero hz hval, withClock_some hd, hv]
  exact if_neg h

/-- The counter is 0 before the divider's own pulse begins. -/
theorem runDivOnt_fire (h : v.counter + 1 = v.period) : runDivOnt nested d dw s =
    (nested (.tick d) (s.putClock d (u.atCount v 0))).andThen fun t => .ok t none := by
  rw [runDivOnt, withPulse_zero hz hval, withClock_some hd, hv]
  exact if_pos h

theorem runDivOnt_observers {n : Nat} {xs : List Handle} (hn : 2 ≤ n) (h : v.counter + 1 = v.period)
    (hm : s.midPulse d = false) (hls : u.listeners = xs.map .external) (hxs : ∀ x ∈ xs, s.observes x) :
    runDivOnt (perform n) d dw s = .ok ((s.putClock d (u.atCount v 0)).observedBy (.onTick d) xs) none := by
  obtain ⟨k, rfl⟩ := Nat.exists_eq_add_of_le' hn
  have hd' := State.putClock_clock_self s d (u.atCount v 0)
  rw [runDivOnt_fire hd hv hz hval h, perform_tick, runTick_observers (Nat.le_add_left 1 k) hd' hm hls hxs, andThen_ok]

end DivOnt

/-- Settles O26: the two cases of the counter. -/
theorem divOntCountsAndFires : Obligations.DivOntCountsAndFires := by
  intro s d u v dw xs hd hv hz hval
  refine ⟨fun h => ?count, fun h hm hls hxs hfuel => ?fire⟩
  case count => rw [exec, execDivOnt, runDivOnt_count hd hv hz hval h, settle_ok]
  case fire => rw [exec, execDivOnt, runDivOnt_observers hd hv hz hval hfuel h hm hls hxs, settle_ok]

/-! ## A pulse that reaches a divider (R176, R178) -/

/-- A dispatch of one listener is its reaction, with an error wrapped once and the stack put back (R157, R164). -/
theorem dispatch_one {nested : Instr → State → Res} {react : State → Listener → Except Refusal Instr} {frame : Nat → Frame}
    {l : Listener} {r : Instr} (hr : react s l = .ok r) : dispatch nested react frame [l] s =
      ((nested r (s.withStack (frame 0 :: s.stack))).andThen fun t => .ok t none).wrapped.unwound s.stack := by
  cases hn : nested r (s.withStack (frame 0 :: s.stack)) with
  | ok t v => rw [dispatch_one_ok hr hn, andThen_ok, wrapped_ok, unwound_ok]
  | err t e => rw [dispatch_one_err hr hn, andThen_err, wrapped_err, unwound_err]
  | refused w => rw [dispatch_refused [] hr hn, andThen_refused, wrapped_refused, unwound_refused]

/-- Dropping the result twice is dropping it once. -/
theorem andThen_none_twice (r : Res) :
    ((r.andThen fun t => .ok t none).andThen fun t => .ok t none) = r.andThen fun t => .ok t none := by
  cases r <;> rfl

/-- Clock c, not in mid-pulse, has one listener, another clock d; d is a divider, not in mid-pulse either, which stands at `v` and has one
listener, external listener x. -/
structure State.Divides (s : State) (c d x : Handle) (u : Clock) (v : Divider) : Prop where
  parent : ∃ uc, s.clock? c = some uc ∧ uc.listeners = [.divider d]
  divider : s.clock? d = some u
  counter : u.divider = some v
  listener : u.listeners = [.external x]
  distinct : c ≠ d
  idle : s.midPulse c = false
  dividerIdle : s.midPulse d = false

section Divides

variable {v : Divider} {n : Nat} (h : s.Divides c d x u v)
include h

theorem runTick_reaches_divider (nested : Instr → State → Res) : runTick nested c s =
    ((nested (.divOnt d ⟨0#16, c, 0#8⟩) (s.withStack (.clock c 0 :: s.stack))).andThen fun t => .ok t none).wrapped.unwound
      s.stack := by
  obtain ⟨uc, hc, hls⟩ := h.parent
  rw [runTick_dispatch nested hc h.idle hls]
  exact dispatch_one rfl

/-- A pulse that is not the last of a period is counted, and that is all (R178). -/
theorem runTick_divider_counts (hv : v.counter + 1 ≠ v.period) : runTick (perform (n + 1)) c s =
    .ok (s.putClock d (u.atCount v (v.counter + 1))) none := by
  have hcount := runDivOnt_count (s := s.withStack (.clock c 0 :: s.stack)) (nested := perform n) (dw := ⟨0#16, c, 0#8⟩) h.divider
    h.counter rfl rfl hv
  rw [runTick_reaches_divider h, perform_succ, act, hcount]
  rfl

/-- The last pulse of a period resets the counter and is then a pulse of the divider, inside that of the clock (R178). -/
theorem runTick_divider_fires (hv : v.counter + 1 = v.period) : runTick (perform (n + 2)) c s =
    ((runTick (perform n) d ((s.withStack (.clock c 0 :: s.stack)).putClock d (u.atCount v 0))).andThen fun t =>
      .ok t none).wrapped.unwound s.stack := by
  have hfire := runDivOnt_fire (s := s.withStack (.clock c 0 :: s.stack)) (nested := perform (n + 1)) (dw := ⟨0#16, c, 0#8⟩)
    h.divider h.counter rfl rfl hv
  rw [runTick_reaches_divider h, perform_succ, act, hfire, perform_tick, andThen_none_twice]

/-- The clock's own frame does not put the divider in mid-pulse (R183). -/
theorem divider_idle_inside (w : Clock) : ((s.withStack (.clock c 0 :: s.stack)).putClock d w).midPulse d = false := by
  rw [State.putClock_midPulse, midPulse_withStack_clock, beq_false_of_ne h.distinct, Bool.false_or, h.dividerIdle]

theorem runTick_divider_observed (hn : 3 ≤ n) (hv : v.counter + 1 = v.period) (hx : s.observes x) : runTick (perform n) c s =
    .ok ((s.putClock d (u.atCount v 0)).moveOn x (.onTick d)) none := by
  obtain ⟨k, rfl⟩ := Nat.exists_eq_add_of_le' hn
  rw [runTick_divider_fires h hv, runTick_observers (u := u.atCount v 0) (xs := [x]) (Nat.le_add_left 1 k)
    (State.putClock_clock_self ..) (divider_idle_inside h _) h.listener (by simpa using hx)]
  rfl

/-- A failure of the divider's listener is wrapped by the divider's pulse and by the clock's; the counter stays reset (R289, R292). -/
theorem runTick_divider_fails {code : Nat} {own : List Nat} (hn : 3 ≤ n) (hv : v.counter + 1 = v.period)
    (hr : (s.putClock d (u.atCount v 0)).reaction x (.onTick d) = ⟨[], some code, own⟩) :
    runTick (perform n) c s = .err ((s.putClock d (u.atCount v 0)).moveOn x (.onTick d))
      (.signalPropagation (.signalPropagation (.ofListener x code))) := by
  obtain ⟨k, rfl⟩ := Nat.exists_eq_add_of_le' hn
  rw [runTick_divider_fires h hv, runTick_failing (u := u.atCount v 0) (Nat.le_add_left 1 k) (State.putClock_clock_self ..)
    (divider_idle_inside h _) h.listener hr]
  rfl

end Divides

/-- Settles O28: each of the two dispatches wraps the error, and neither touches the state reached. -/
theorem failureInADividedPulseKeepsTheCounterReset : Obligations.FailureInADividedPulseKeepsTheCounterReset := by
  intro s s1 c d x uc ud v code own hc hd hcd huc hv hlast hud hs1 hr hmc hmd hfuel
  have hdivides : s.enterRun.Divides c d x ud v := ⟨⟨uc, hc, huc⟩, hd, hv, hud, hcd, hmc, hmd⟩
  subst hs1
  rw [exec, execTick, runTick_divider_fails hdivides hfuel hlast hr, settle_err, moveOn_eq hr]
  rfl

end Sys2Proof.Machine
end

section
/-! SUPPORT. A run of pulses of a clock that one divider hears, by induction on their number; O27. -/

namespace Sys2Proof.Machine

variable {s t t' : State} {c d x : Handle} {u : Clock} {v : Divider}

/-! ## What pulses of the clock leave -/

/-- `t` is `s` but for the counter of divider d, at `k` in `t`, and the state of listener x, which has seen d fire `fired` times. -/
structure State.Counted (s t : State) (d x : Handle) (u : Clock) (v : Divider) (k fired : Nat) : Prop where
  frame : t = { s with clocks := t.clocks, exts := t.exts }
  divider : t.clock? d = some (u.atCount v k)
  others : ∀ e, e ≠ d → t.clock? e = s.clock? e
  seen : (t.ext x).seen = (s.ext x).seen ++ List.replicate fired (.onTick d)

theorem counted_refl {k : Nat} (hd : s.clock? d = some (u.atCount v k)) : s.Counted s d x u v k 0 :=
  ⟨rfl, hd, fun _ _ => rfl, (List.append_nil _).symm⟩

theorem counted_trans {k k' m m' : Nat} (h : s.Counted t d x u v k m) (h' : t.Counted t' d x u v k' m') :
    s.Counted t' d x u v k' (m + m') where
  frame := by rw [h'.frame, h.frame]
  divider := h'.divider
  others e he := (h'.others e he).trans (h.others e he)
  seen := by rw [h'.seen, h.seen, List.append_assoc, List.replicate_append_replicate]

theorem counted_putClock (s : State) (k : Nat) : s.Counted (s.putClock d (u.atCount v k)) d x u v k 0 :=
  ⟨rfl, State.putClock_clock_self .., fun _ he => State.putClock_clock_ne s d _ he.symm, (List.append_nil _).symm⟩

theorem counted_moveOn {k : Nat} (hd : s.clock? d = some (u.atCount v k)) :
    s.Counted (s.moveOn x (.onTick d)) d x u v k 1 :=
  ⟨rfl, hd, fun _ _ => rfl, moveOn_seen_self s x (.onTick d)⟩

/-! ## One pulse, and n of them (R178, R180) -/

/-- After pulses that were counted the clock still drives the divider. -/
theorem divides_counted {k k' m : Nat} (h : s.Divides c d x (u.atCount v k) { v with counter := k })
    (ht : s.Counted t d x u v k' m) : t.Divides c d x (u.atCount v k') { v with counter := k' } where
  parent := by rw [ht.others c h.distinct]; exact h.parent
  divider := ht.divider
  counter := rfl
  listener := h.listener
  distinct := h.distinct
  idle := by rw [ht.frame]; exact h.idle
  dividerIdle := by rw [ht.frame]; exact h.dividerIdle

section Divides

variable {n k : Nat} (hn : 3 ≤ n) (hx : s.observes x) (hk : k < v.period)
  (h : s.Divides c d x (u.atCount v k) { v with counter := k })
include hn hx hk h

/-- One pulse adds 1 to the counter, and the divider fires when that makes a whole period. -/
theorem runTick_counted :
    ∃ t, runTick (perform n) c s = .ok t none ∧ s.Counted t d x u v ((k + 1) % v.period) ((k + 1) / v.period) := by
  by_cases hlast : k + 1 = v.period
  · rw [hlast, Nat.mod_self, Nat.div_self (by omega)]
    have hput := counted_putClock (d := d) (x := x) (u := u) (v := v) s 0
    exact ⟨_, runTick_divider_observed h hn hlast hx, by simpa using counted_trans hput (counted_moveOn hput.divider)⟩
  · rw [Nat.mod_eq_of_lt (by omega), Nat.div_eq_of_lt (by omega)]
    obtain ⟨m, rfl⟩ := Nat.exists_eq_add_of_le' hn
    exact ⟨_, runTick_divider_counts h hlast, counted_putClock (u := u) (v := v) s (k + 1)⟩

end Divides

/-- Whole periods counted on the way are all there is between counting one pulse and then `m`, and counting `m + 1`. -/
theorem count_succ {period : Nat} (hp : 0 < period) (k m : Nat) : ((k + 1) % period + m) % period = (k + (m + 1)) % period ∧
    (k + 1) / period + ((k + 1) % period + m) / period = (k + (m + 1)) / period := by
  have hsum : k + (m + 1) = (k + 1) % period + m + period * ((k + 1) / period) := by
    have := Nat.mod_add_div (k + 1) period
    omega
  rw [hsum, Nat.add_mul_mod_self_left, Nat.add_mul_div_left _ _ hp, Nat.add_comm ((k + 1) / period)]
  exact ⟨rfl, rfl⟩

/-- The count of O27: from k, `m` pulses leave the counter at the remainder of `k + m` and fire its quotient by the period. -/
theorem pulses_counted {n : Nat} (hn : 3 ≤ n) (m k : Nat) (hx : s.observes x) (hk : k < v.period)
    (h : s.Divides c d x (u.atCount v k) { v with counter := k }) :
    ∃ t, pulses (perform n) c m s = .ok t none ∧ s.Counted t d x u v ((k + m) % v.period) ((k + m) / v.period) := by
  induction m generalizing s k with
  | zero =>
    rw [Nat.add_zero, Nat.mod_eq_of_lt hk, Nat.div_eq_of_lt hk]
    exact ⟨s, rfl, counted_refl h.divider⟩
  | succ m ih =>
    obtain ⟨t, ht, hcount⟩ := runTick_counted hn hx hk h
    have hxt : t.observes x := by rw [hcount.frame]; exact hx
    obtain ⟨t', ht', hcount'⟩ := ih _ hxt (Nat.mod_lt _ (Nat.zero_lt_of_lt hk)) (divides_counted h hcount)
    obtain ⟨hmod, hdiv⟩ := count_succ (Nat.zero_lt_of_lt hk) k m
    rw [← hmod, ← hdiv]
    exact ⟨t', by rw [pulses, ht, andThen_ok, ht'], counted_trans hcount hcount'⟩

/-- Settles O27. -/
theorem dividerFiresOnEveryPeriodthPulse : Obligations.DividerFiresOnEveryPeriodthPulse := by
  intro s c d x uc ud v n hc hd hcd huc hv hud hx hperiod hk hmc hmd hfuel hnonneg
  have hself : ud.atCount v v.counter = ud := by rw [Clock.atCount, ← hv]
  have hdivides : s.enterRun.Divides c d x (ud.atCount v v.counter) v := by
    rw [hself]
    exact ⟨⟨uc, hc, huc⟩, hd, hv, hud, hcd, hmc, hmd⟩
  obtain ⟨t, ht, hcount⟩ := pulses_counted (s := s.enterRun) hfuel n.toInt.toNat v.counter hx hk hdivides
  refine ⟨t.withReport (.ok none), ?_, rfl, hcount.divider, hcount.seen, ?_⟩
  · rw [exec, execTickn, runTickn, withClock_some (s := s.enterRun) hc, ht, settle_ok]
  · rw [hcount.frame]
    exact ⟨rfl, rfl, rfl, rfl, rfl, rfl⟩

end Sys2Proof.Machine
end

section
/-! SUPPORT. No operation looks at the report of the step before (`perform_ignoresReport`), what a step leaves to the next one, and
O25. -/

namespace Sys2Proof.Machine

variable {s t : State}

/-- The outcome with `q` as the report in the state it reaches. -/
def Res.reported (r : Res) (q : Report) : Res :=
  match r with
  | .ok s v => .ok (s.withReport q) v
  | .err s e => .err (s.withReport q) e
  | .refused w => .refused w

/-- The end of a step puts its own report in. -/
theorem settle_reported (r : Res) (q : Report) : settle (r.reported q) = settle r := by cases r <;> rfl

/-- An operation does the same whatever report stands in the state, and leaves it there (log 4). -/
def IgnoresReport (f : State → Res) : Prop := ∀ (q : Report) (s : State), f (s.withReport q) = (f s).reported q

/-! ## Ways of putting operations together -/

section Together

variable {f g : State → Res}

theorem ignoresReport_ok (v : Option Word) : IgnoresReport fun s => .ok s v := fun _ _ => rfl

theorem ignoresReport_refused (w : Refusal) : IgnoresReport fun _ => .refused w := fun _ _ => rfl

theorem ignoresReport_andThen (hf : IgnoresReport f) (hg : IgnoresReport g) : IgnoresReport fun s => (f s).andThen g := by
  intro q s
  simp only [hf q s]
  cases f s with
  | ok t v => exact hg q t
  | err t e => rfl
  | refused w => rfl

theorem ignoresReport_wrapped (hf : IgnoresReport f) : IgnoresReport fun s => (f s).wrapped := by
  intro q s
  simp only [hf q s]
  cases f s <;> rfl

theorem ignoresReport_ite (p : Prop) [Decidable p] (hf : IgnoresReport f) (hg : IgnoresReport g) :
    IgnoresReport fun s => if p then f s else g s := by
  by_cases hp : p
  · simpa only [if_pos hp] using hf
  · simpa only [if_neg hp] using hg

theorem ignoresReport_require {c : State → Bool} (hc : ∀ q s, c (s.withReport q) = c s) (w : Refusal) (hf : IgnoresReport f) :
    IgnoresReport fun s => require (c s) w (f s) := by
  intro q s
  simp only [hc q s, hf q s]
  cases c s <;> rfl

/-- An operation that takes up the unit `look` finds, and is refused where there is none (R102). -/
theorem ignoresReport_unit {α : Type} {look : State → Option α} {withUnit : State → (α → Res) → Res} {w : Refusal}
    {k : α → State → Res} (hlook : ∀ q s, look (s.withReport q) = look s)
    (hnone : ∀ {s}, look s = none → ∀ k, withUnit s k = .refused w) (hsome : ∀ {s u}, look s = some u → ∀ k, withUnit s k = k u)
    (hk : ∀ u, IgnoresReport (k u)) : IgnoresReport fun s => withUnit s fun u => k u s := by
  intro q s
  cases hu : look s with
  | none => simp only [hnone hu, hnone ((hlook q s).trans hu)]; rfl
  | some u => simp only [hsome hu, hsome ((hlook q s).trans hu)]; exact hk u q s

theorem ignoresReport_withBus (b : Handle) {k : Bus → State → Res} (hk : ∀ u, IgnoresReport (k u)) :
    IgnoresReport fun s => withBus s b fun u => k u s :=
  ignoresReport_unit (look := (State.bus? · b)) (fun _ _ => rfl) withBus_none withBus_some hk

theorem ignoresReport_withFlag (f : Handle) {k : Flag → State → Res} (hk : ∀ u, IgnoresReport (k u)) :
    IgnoresReport fun s => withFlag s f fun u => k u s :=
  ignoresReport_unit (look := (State.flag? · f)) (fun _ _ => rfl) withFlag_none withFlag_some hk

theorem ignoresReport_withClock (c : Handle) {k : Clock → State → Res} (hk : ∀ u, IgnoresReport (k u)) :
    IgnoresReport fun s => withClock s c fun u => k u s :=
  ignoresReport_unit (look := (State.clock? · c)) (fun _ _ => rfl) withClock_none withClock_some hk

theorem ignoresReport_withMem (m : Handle) {k : Mem → State → Res} (hk : ∀ u, IgnoresReport (k u)) :
    IgnoresReport fun s => withMem s m fun u => k u s :=
  ignoresReport_unit (look := (State.mem? · m)) (fun _ _ => rfl) withMem_none withMem_some hk

theorem ignoresReport_withMap (m : Handle) {k : Mapper → State → Res} (hk : ∀ u, IgnoresReport (k u)) :
    IgnoresReport fun s => withMap s m fun u => k u s :=
  ignoresReport_unit (look := (State.map? · m)) (fun _ _ => rfl) withMap_none withMap_some hk

theorem ignoresReport_withFormed (dw : Delivery) (hf : IgnoresReport f) : IgnoresReport fun s => withFormed dw (f s) :=
  ignoresReport_ite _ hf (ignoresReport_refused _)

theorem ignoresReport_withPulse (dw : Delivery) (hf : IgnoresReport f) : IgnoresReport fun s => withPulse dw (f s) :=
  ignoresReport_withFormed dw (ignoresReport_ite _ hf (ignoresReport_refused _))

theorem ignoresReport_withClass (dw : Delivery) {k : ValueClass → State → Res} (hk : ∀ cls, IgnoresReport (k cls)) :
    IgnoresReport fun s => withClass dw s fun cls => k cls s := by
  intro q s
  simp only [withClass, State.withReport_classOf]
  cases s.classOf dw.val with
  | none => rfl
  | some cls => exact hk cls q s

end Together

/-! ## Operations that carry out no other -/

theorem busWriteChecked_ignoresReport (b : Handle) (v : Word) : IgnoresReport (busWriteChecked b v) :=
  ignoresReport_withBus b fun _ => ignoresReport_ite _ (fun _ _ => rfl) fun _ _ => rfl

theorem busWriteMasked_ignoresReport (b : Handle) (v : Word) : IgnoresReport (busWriteMasked b v) :=
  ignoresReport_withBus b fun _ _ _ => rfl

theorem relayWrite_ignoresReport (b : Handle) (v : Word) : IgnoresReport (relayWrite b v) :=
  ignoresReport_wrapped (busWriteChecked_ignoresReport b v)

theorem relayCopy_ignoresReport (dst src : Handle) : IgnoresReport (relayCopy dst src) :=
  ignoresReport_withBus src fun u => relayWrite_ignoresReport dst u.value

theorem memAnswer_ignoresReport (u : Mem) (dw : Delivery) {k : Nat → State → Res} (hk : ∀ a, IgnoresReport (k a)) :
    IgnoresReport fun s => memAnswer u dw s fun a => k a s :=
  ignoresReport_ite _ (ignoresReport_ok none) <| ignoresReport_withBus u.abus fun _ =>
    ignoresReport_ite _ (ignoresReport_ok none) (hk _)

theorem mapAnswer_ignoresReport (u : Mapper) (dw : Delivery) {k : Word → State → Res} (hk : ∀ w, IgnoresReport (k w)) :
    IgnoresReport fun s => mapAnswer u dw s fun w => k w s := by
  refine ignoresReport_ite _ (ignoresReport_ok none) <| ignoresReport_withBus u.outer.abus fun a =>
    ignoresReport_ite _ (ignoresReport_ok none) ?_
  cases translateAddress u a.value.toNat with
  | error w => exact ignoresReport_refused w
  | ok t => exact hk _

theorem cellStore_ignoresReport (m : Handle) (u : Mem) (offset : Nat) (v : Word) : IgnoresReport (cellStore m u offset v) :=
  ignoresReport_ite _ (fun _ _ => rfl) (ignoresReport_refused _)

theorem memRead_ignoresReport (u : Mem) (dw : Delivery) : IgnoresReport (memRead u dw) :=
  memAnswer_ignoresReport u dw fun _ => busWriteChecked_ignoresReport _ _

theorem ramEffect_ignoresReport (m : Handle) (u : Mem) (dw : Delivery) (cls : ValueClass) :
    IgnoresReport fun s => ramEffect m u dw s cls := by
  cases cls with
  | read => exact memRead_ignoresReport u dw
  | write => exact memAnswer_ignoresReport u dw fun a => ignoresReport_withBus u.dbus fun d => cellStore_ignoresReport m u a d.value
  | other => exact ignoresReport_ok none

theorem romEffect_ignoresReport (u : Mem) (dw : Delivery) (cls : ValueClass) : IgnoresReport fun s => romEffect u dw s cls := by
  cases cls with
  | read => exact memRead_ignoresReport u dw
  | write => exact ignoresReport_ok none
  | other => exact ignoresReport_ok none

theorem withMemReaction_ignoresReport (kind : MemKind) (m : Handle) (dw : Delivery) {k : Mem → ValueClass → State → Res}
    (hk : ∀ u cls, IgnoresReport (k u cls)) : IgnoresReport fun s => withMemReaction kind m dw s fun u cls => k u cls s :=
  ignoresReport_withFormed dw <| ignoresReport_withMem m fun u =>
    ignoresReport_ite _ (ignoresReport_refused _) (ignoresReport_withClass dw (hk u))

theorem withMapReaction_ignoresReport (m : Handle) (dw : Delivery) {k : Mapper → ValueClass → State → Res}
    (hk : ∀ u cls, IgnoresReport (k u cls)) : IgnoresReport fun s => withMapReaction m dw s fun u cls => k u cls s :=
  ignoresReport_withFormed dw <| ignoresReport_withMap m fun u => ignoresReport_withClass dw (hk u)

theorem runMxlt_ignoresReport (k : Handle) (a : BitVec 31) : IgnoresReport (runMxlt k a) := by
  refine ignoresReport_withMap k fun u => ?_
  cases translateAddress u a.toNat with
  | error w => exact ignoresReport_refused w
  | ok t => exact ignoresReport_ok _

theorem runMbsel_ignoresReport (k : Handle) (bank : Byte) : IgnoresReport (runMbsel k bank) := by
  refine ignoresReport_withMap k fun u => ?_
  cases u.kind with
  | identity => exact ignoresReport_refused _
  | mirrored mask => exact ignoresReport_refused _
  | banked bases sel => exact ignoresReport_require (fun _ _ => rfl) _ fun _ _ => rfl

/-! ## Operations that carry out others -/

section Nested

variable {nested : Instr → State → Res} (hn : ∀ i, IgnoresReport (nested i))
include hn

theorem deliverAll_ignoresReport {react : State → Listener → Except Refusal Instr}
    (hr : ∀ q s l, react (s.withReport q) l = react s l) (frame : Nat → Frame) (outer : List Frame) (i : Nat) (ls : List Listener) :
    IgnoresReport (deliverAll nested react frame outer i ls) := by
  induction ls generalizing i with
  | nil => exact ignoresReport_ok none
  | cons l ls ih =>
    intro q s
    rw [deliverAll, deliverAll, hr]
    cases react s l with
    | error w => rfl
    | ok r =>
      have hreact : nested r ((s.withReport q).withStack (frame i :: outer)) = _ := hn r q (s.withStack (frame i :: outer))
      simp only [hreact]
      cases nested r (s.withStack (frame i :: outer)) with
      | ok t v => exact ih (i + 1) q t
      | err t e => rfl
      | refused w => rfl

theorem dispatch_ignoresReport {react : State → Listener → Except Refusal Instr}
    (hr : ∀ q s l, react (s.withReport q) l = react s l) (frame : Nat → Frame) (ls : List Listener) :
    IgnoresReport (dispatch nested react frame ls) := by
  intro q s
  rw [dispatch, dispatch, State.withReport_stack, deliverAll_ignoresReport hn hr]
  cases deliverAll nested react frame s.stack 0 ls s <;> rfl

theorem runFset_ignoresReport (f : Handle) (val : Byte) : IgnoresReport (runFset nested f val) :=
  ignoresReport_withFlag f fun u => ignoresReport_require (fun _ _ => rfl) _ fun q s =>
    dispatch_ignoresReport hn (fun _ _ l => by cases l <;> rfl) _ _ q (s.putFlag f { u with value := val })

theorem runTick_ignoresReport (c : Handle) : IgnoresReport (runTick nested c) :=
  ignoresReport_withClock c fun _ => ignoresReport_require (fun _ _ => rfl) _ (dispatch_ignoresReport hn (fun _ _ _ => rfl) _ _)

theorem pulses_ignoresReport (c : Handle) (n : Nat) : IgnoresReport (pulses nested c n) := by
  induction n with
  | zero => exact ignoresReport_ok none
  | succ n ih => exact ignoresReport_andThen (runTick_ignoresReport hn c) ih

theorem runDivOnt_ignoresReport (d : Handle) (dw : Delivery) : IgnoresReport (runDivOnt nested d dw) := by
  refine ignoresReport_withPulse dw <| ignoresReport_withClock d fun u => ?_
  cases u.divider with
  | none => exact ignoresReport_refused _
  | some v =>
    have hfire : IgnoresReport fun s => nested (.tick d) (s.putClock d (u.atCount v 0)) := fun q s => hn (.tick d) q (s.putClock d _)
    have hcount : IgnoresReport fun s => .ok (s.putClock d (u.atCount v (v.counter + 1))) none := fun _ _ => rfl
    exact ignoresReport_ite (v.counter + 1 = v.period) (ignoresReport_andThen hfire (ignoresReport_ok none)) hcount

theorem runCommands_ignoresReport (cs : List ExtCommand) : IgnoresReport (runCommands nested cs) := by
  induction cs with
  | nil => exact ignoresReport_ok none
  | cons c cs ih =>
    refine ignoresReport_ite _ (fun q s => ?_) (ignoresReport_refused _)
    simp only [hn c.command q s]
    cases nested c.command s with
    | ok t v => exact ih q t
    | err t e =>
      cases hh : c.handles e with
      | true => simpa only [Res.reported, hh, if_true] using ih q t
      | false => simp only [Res.reported, hh, Bool.false_eq_true, if_false]
    | refused w => rfl

theorem extReact_ignoresReport (x : Handle) (ev : Event) : IgnoresReport (extReact nested x ev) := by
  intro q s
  have hcommands := runCommands_ignoresReport hn (s.reaction x ev).commands
  have hend : IgnoresReport fun t => match (s.reaction x ev).failure with
      | none => .ok t none
      | some code => raise (.ofListener x code) t := by
    cases (s.reaction x ev).failure <;> exact fun _ _ => rfl
  exact ignoresReport_andThen hcommands hend q (s.moveOn x ev)

theorem mapEffect_ignoresReport (u : Mapper) (dw : Delivery) (cls : ValueClass) :
    IgnoresReport fun s => mapEffect nested u dw s cls := by
  cases cls with
  | read =>
    exact mapAnswer_ignoresReport u dw fun t => ignoresReport_andThen (relayWrite_ignoresReport _ t) <|
      ignoresReport_andThen (hn _) (relayCopy_ignoresReport _ _)
  | write =>
    exact mapAnswer_ignoresReport u dw fun t => ignoresReport_andThen (relayWrite_ignoresReport _ t) <|
      ignoresReport_andThen (relayCopy_ignoresReport _ _) <| ignoresReport_andThen (hn _) (ignoresReport_ok none)
  | other =>
    exact mapAnswer_ignoresReport u dw fun t => ignoresReport_andThen (relayWrite_ignoresReport _ t) <|
      ignoresReport_andThen (hn _) (ignoresReport_ok none)

/-- One operation of a cascade ignores the report, if those it carries out do. -/
theorem act_ignoresReport (i : Instr) : IgnoresReport (act nested i) := by
  cases i with
  | brd b => exact ignoresReport_withBus b fun u => ignoresReport_ok _
  | bwc b v => exact busWriteChecked_ignoresReport b v
  | bwm b v => exact busWriteMasked_ignoresReport b v
  | fget f => exact ignoresReport_withFlag f fun u => ignoresReport_ok _
  | fset f val => exact runFset_ignoresReport hn f val
  | tick c => exact runTick_ignoresReport hn c
  | tickn c n => exact ignoresReport_withClock c fun _ => pulses_ignoresReport hn c _
  | mxlt k a => exact runMxlt_ignoresReport k a
  | mbsel k bank => exact runMbsel_ignoresReport k bank
  | divOnt d dw => exact runDivOnt_ignoresReport hn d dw
  | extOnt x dw => exact ignoresReport_withPulse dw (extReact_ignoresReport hn x _)
  | extOnf x dw => exact ignoresReport_withFormed dw (extReact_ignoresReport hn x _)
  | ramRd m dw | ramWr m dw | ramOth m dw => exact withMemReaction_ignoresReport .ram m dw fun u => ramEffect_ignoresReport m u dw
  | romRd m dw | romWr m dw | romOth m dw => exact withMemReaction_ignoresReport .rom m dw fun u => romEffect_ignoresReport u dw
  | mapRd k dw | mapWr k dw | mapOth k dw => exact withMapReaction_ignoresReport k dw fun u => mapEffect_ignoresReport hn u dw
  | _ => exact ignoresReport_refused _

end Nested

theorem perform_ignoresReport (n : Nat) (i : Instr) : IgnoresReport (perform n i) := by
  induction n generalizing i with
  | zero => exact ignoresReport_refused _
  | succ n ih => exact act_ignoresReport ih i

/-! ## What a step leaves to the next one -/

theorem change_fuel_and_run (h : s.Change t) : t.fuel = s.fuel ∧ (s.phase = .run → t.phase = .run) := by
  cases h with
  | enterRun => exact ⟨rfl, fun _ => rfl⟩
  | _ => exact ⟨rfl, id⟩

theorem change_clock {c : Handle} (h : s.Change t) (hc : ∃ u, s.clock? c = some u) : ∃ u, t.clock? c = some u := by
  obtain ⟨u, hu⟩ := hc
  obtain ⟨v, hv, -⟩ := (change_extends h).clock hu
  exact ⟨v, hv⟩

/-! ## TICKN (R177) -/

theorem exec_tick (s : State) (c : Handle) : exec (.tick c) s = settle (runTick (perform s.fuel) c s.enterRun) := rfl

section Tickn

variable {c : Handle} {n : Word}

theorem exec_tickn {u : Clock} {m : Nat} (hc : s.clock? c = some u) (hn : n.toInt.toNat = m) :
    exec (.tickn c n) s = settle (pulses (perform s.fuel) c m s.enterRun) := by
  rw [← hn, exec, execTickn, runTickn, withClock_some (s := s.enterRun) hc]

/-- The state a pulse leaves is one the next step starts from as it is: in the run phase, with the clock and the fuel there were. -/
theorem runTick_leaves {u : Clock} {k : Nat} {r : Option Word} (hc : s.clock? c = some u)
    (h : runTick (perform k) c s.enterRun = .ok t r) :
    (∃ w, t.clock? c = some w) ∧ t.fuel = s.fuel ∧ t.phase = .run := by
  have hchanges : s.enterRun.Changes t := by
    have hleaves := runTick_kept changes_kept (perform_kept changes_kept k) c s.enterRun
    rwa [h] at hleaves
  refine changes_keep (p := fun t => (∃ w, t.clock? c = some w) ∧ t.fuel = s.fuel ∧ t.phase = .run) ?_ hchanges ⟨⟨u, hc⟩, rfl, rfl⟩
  rintro t t' hchange ⟨hclock, hfuel, hrun⟩
  obtain ⟨hfuel', hrun'⟩ := change_fuel_and_run hchange
  exact ⟨change_clock hchange hclock, hfuel'.trans hfuel, hrun' hrun⟩

/-- A pulse that succeeds, and then the rest of the sequence as a step of its own. -/
theorem exec_tickn_after {u : Clock} {m : Nat} {r : Option Word} (q : Report) (hc : s.clock? c = some u) (hn : n.toInt.toNat = m)
    (h : runTick (perform s.fuel) c s.enterRun = .ok t r) :
    exec (.tickn c n) (t.withReport q) = settle (pulses (perform s.fuel) c m t) := by
  obtain ⟨⟨w, hw⟩, hfuel, hrun⟩ := runTick_leaves hc h
  rw [exec_tickn (s := t.withReport q) hw hn, State.eq_enterRun (t.withReport q) hrun, State.withReport_fuel, hfuel,
    pulses_ignoresReport (perform_ignoresReport _), settle_reported]

/-- One less than a positive count. -/
theorem toInt_toNat_pred (hn : 0 < n.toInt) : n.toInt.toNat = (n - 1#32).toInt.toNat + 1 := by
  have hlt := (toInt_nonneg_iff n).mp hn.le
  rw [toInt_of_lt hlt] at hn ⊢
  have hpred : (n - 1#32).toNat = n.toNat - 1 := by
    rw [BitVec.toNat_sub_of_le (by rw [BitVec.le_def]; exact Int.natCast_pos.mp hn)]
    rfl
  rw [toInt_of_lt (by omega), hpred]
  omega

end Tickn

/-- Settles O25: the first pulse ends as TICK does, and the rest do not look at its report. -/
theorem ticknIsThatManyTicks : Obligations.TicknIsThatManyTicks := by
  intro s c u n hc
  refine ⟨fun hn => ?none, fun hn => ?more⟩
  case none => rw [exec_tickn hc (Int.toNat_of_nonpos hn), pulses, settle_ok]
  case more =>
    rw [exec_tick, exec_tickn hc (toInt_toNat_pred hn), pulses]
    cases hr : runTick (perform s.fuel) c s.enterRun with
    | ok t r =>
      refine ⟨fun t' ht _ => ?_, fun t' e ht he => ?_, nofun⟩
      · cases ht
        rw [exec_tickn_after _ hc rfl hr, andThen_ok]
      · cases ht
        cases he
    | err t e =>
      refine ⟨fun t' ht hok => ?_, fun t' e ht _ => ht, nofun⟩
      cases ht
      cases hok
    | refused w => exact ⟨nofun, nofun, fun w' hw => hw⟩

end Sys2Proof.Machine
end

section
/-! SUPPORT. Ranges and sizes the constructors raise for, the rows of a memory's reactions by the class of the delivered value, and O30
and O32 to O35. -/

namespace Sys2Proof.Machine

variable {s : State}

/-! ## Illegal ranges and wrong sizes (R193, R219) -/

theorem badRange_eq_true {lo hi : Word} : badRange lo hi = true ↔ lo.toInt < 0 ∨ hi.toInt < 0 ∨ hi.toInt ≤ lo.toInt := by
  simp only [badRange, Bool.or_eq_true, decide_eq_true_eq, or_assoc]

theorem withSize_differs {lo hi : Word} {cells : List Byte} (h : cells.length ≠ rangeSize lo hi) (k : Res) :
    withSize lo hi (some cells) s k = .err s (.sizeMismatch [rangeSize lo hi] cells.length) := if_neg h

section Illegal

variable {lo hi : Word} (hr : badRange lo hi = true)
include hr

theorem buildMem_badRange (kind : MemKind) (m : Handle) (t : Triple) (contents : Option (List Byte)) :
    buildMem kind m lo hi t contents s = .err s (.invalidAddressRange lo.toInt hi.toInt) := by
  rw [buildMem, withRange_bad hr]

/-- The range comes before the operands of the mapper's kind (log 9). -/
theorem buildMap_badRange (kind : MapKind) (operands : Res → Res) (k : Handle) (outer inner : Triple) (mem : Handle) :
    buildMap kind operands k lo hi outer inner mem s = .err s (.invalidAddressRange lo.toInt hi.toInt) := by
  rw [buildMap, withRange_bad hr]

end Illegal

theorem buildMem_wrongSize {lo hi : Word} {cells : List Byte} (hr : badRange lo hi = false) (h : cells.length ≠ rangeSize lo hi)
    (kind : MemKind) (m : Handle) (t : Triple) :
    buildMem kind m lo hi t (some cells) s = .err s (.sizeMismatch [rangeSize lo hi] cells.length) := by
  rw [buildMem, withRange_good hr, withSize_differs h]

/-- Settles O30: the range is checked first and the size second, before every operand that could be refused. -/
theorem rangeAndSizeErrorsMakeNothing : Obligations.RangeAndSizeErrorsMakeNothing := by
  intro s h lo hi hp
  refine ⟨fun hbad i hmade => ?range, fun t cells hlo hlt hlen => ?size⟩
  case range =>
    have hr := badRange_eq_true.mpr hbad
    rcases hmade with ⟨t, contents, rfl | rfl⟩ | ⟨outer, inner, mem, rfl | ⟨mask, rfl⟩ | ⟨bases, rfl⟩⟩
    · rw [exec_ramnew hp, buildMem_badRange hr, settle_err]
    · rw [exec_romnew hp, buildMem_badRange hr, settle_err]
    · rw [exec, execMapnewI, inWiring_wiring hp, buildMap_badRange hr, settle_err]
    · rw [exec, execMapnewM, inWiring_wiring hp, buildMirrored, buildMap_badRange hr, settle_err]
    · rw [exec, execMapnewB, inWiring_wiring hp, buildMap_badRange hr, settle_err]
  case size =>
    have hr := legal_range hlo hlt
    have hrange := rangeSize_eq hlo hlt
    have hdiffers : cells.length ≠ rangeSize lo hi := by omega
    rw [exec_ramnew hp, exec_romnew hp, buildMem_wrongSize hr hdiffers, buildMem_wrongSize hr hdiffers, settle_err, ← hrange,
      Int.toNat_natCast]
    exact ⟨rfl, rfl⟩

/-! ## The rows of a memory's reactions (R98, R99) -/

section Rows

variable {m : Handle} {u : Mem} {dw : Delivery} {cls : ValueClass} {i : Instr} (hm : s.mem? m = some u) (hz : dw.zero = 0#16)
  (hc : s.classOf dw.val = some cls)
include hm hz hc

/-- Whichever of its rows a RAM's reaction is, the class of the value selects the effect. -/
theorem exec_ramRow (hk : u.kind = .ram) (hi : i = .ramRd m dw ∨ i = .ramWr m dw ∨ i = .ramOth m dw) :
    exec i s = settle (ramEffect m u dw s cls) := by
  have heffect := withMemReaction_some hz hm hk hc fun u => ramEffect m u dw s
  rcases hi with rfl | rfl | rfl <;> exact congrArg settle heffect

theorem exec_romRow (hk : u.kind = .rom) (hi : i = .romRd m dw ∨ i = .romWr m dw ∨ i = .romOth m dw) :
    exec i s = settle (romEffect u dw s cls) := by
  have heffect := withMemReaction_some hz hm hk hc fun u => romEffect u dw s
  rcases hi with rfl | rfl | rfl <;> exact congrArg settle heffect

end Rows

/-- Both kinds read alike (R196, R199). -/
theorem exec_memoryRead {m : Handle} {u : Mem} {dw : Delivery} {i : Instr} (hm : s.mem? m = some u) (hz : dw.zero = 0#16)
    (hc : s.classOf dw.val = some .read)
    (hi : u.kind = .ram ∧ (i = .ramRd m dw ∨ i = .ramOth m dw) ∨ u.kind = .rom ∧ (i = .romRd m dw ∨ i = .romOth m dw)) :
    exec i s = settle (memRead u dw s) := by
  rcases hi with ⟨hk, hi⟩ | ⟨hk, hi⟩
  · exact exec_ramRow hm hz hc hk (hi.imp_right .inr)
  · exact exec_romRow hm hz hc hk (hi.imp_right .inr)

/-! ## The effect inside the range (R195 to R197, R199) -/

section Answers

variable {u : Mem} {dw : Delivery} {a d : Bus} (hf : dw.src = u.flag) (ha : s.bus? u.abus = some a)
  (hrange : u.start ≤ a.value.toNat ∧ a.value.toNat ≤ u.last)
  (hd : s.bus? u.dbus = some d)
include hf ha hrange hd

theorem memRead_fit (hfit : fits d.width (cellWord u (a.value.toNat - u.start)) = true) :
    memRead u dw s = .ok (s.putBus u.dbus { d with value := cellWord u (a.value.toNat - u.start) }) none := by
  rw [memRead, memAnswer_inside hf ha hrange, busWriteChecked_fit hd hfit]

theorem memRead_wide (hwide : fits d.width (cellWord u (a.value.toNat - u.start)) = false) :
    memRead u dw s = .err s (.invalidBusData u.dbus (cellWord u (a.value.toNat - u.start))) := by
  rw [memRead, memAnswer_inside hf ha hrange, busWriteChecked_wide hd hwide]

theorem memWrite_narrow (m : Handle) (hv : d.value.toNat < 256) :
    memWrite m u dw s = .ok (s.putMem m (u.stored a.value d.value)) none := by
  rw [memWrite, memAnswer_inside hf ha hrange, withBus_some hd, cellStore_narrow hv, Mem.stored]

end Answers

/-- Settles O32: the two cases of the checked write of the cell to the data bus. -/
theorem memoryReadPutsTheCellOnTheDataBus : Obligations.MemoryReadPutsTheCellOnTheDataBus := by
  intro s m u a d dw i hm hz hc hf ha hstart hlast hd hw hi
  have hcell := cellWord_toNat u (a.value.toNat - u.start)
  rw [exec_memoryRead hm hz hc hi]
  refine ⟨fun hlt => ?fit, fun hle => ?wide⟩
  case fit =>
    have hfit : fits d.width (cellWord u (a.value.toNat - u.start)) = true := (fits_iff (by omega) _).mpr (hcell.trans_lt hlt)
    rw [memRead_fit hf ha ⟨hstart, hlast⟩ hd hfit, settle_ok, cellWord]
  case wide =>
    have hwide : fits d.width (cellWord u (a.value.toNat - u.start)) = false :=
      (fits_eq_false_iff (by omega) _).mpr (hle.trans_eq hcell.symm)
    rw [memRead_wide hf ha ⟨hstart, hlast⟩ hd hwide, settle_err, cellWord]

/-- Settles O33: the RAM becomes the one with the data bus's value stored at the address. -/
theorem ramWriteStoresTheDataBus : Obligations.RamWriteStoresTheDataBus := by
  intro s m u a d dw hm hk hz hc hf ha hstart hlast hd hv
  refine ⟨(u.stored a.value d.value).contents, fun j => ?cells, fun i hi => ?write⟩
  case cells => simp only [Mem.stored, Memory.read_write, eq_comm]
  case write =>
    rw [exec_ramRow hm hz hc hk (.inr hi), ramEffect, memWrite_narrow hf ha ⟨hstart, hlast⟩ hd m hv, settle_ok]
    rfl

/-- Settles O34: the effect of each of these classes is none, before any look at the address bus. -/
theorem silentReactionsChangeNothing : Obligations.SilentReactionsChangeNothing := by
  intro s m u dw hm hz
  refine ⟨fun hk hc => ?ramOther, fun hk hc => ?romOther, fun hk hc => ⟨?romWr, ?romWriteInOth⟩⟩
  case ramOther => rw [exec_ramRow hm hz hc hk (.inr (.inr rfl)), ramEffect, settle_ok]
  case romOther => rw [exec_romRow hm hz hc hk (.inr (.inr rfl)), romEffect, settle_ok]
  case romWr => rw [exec_romRow hm hz hc hk (.inr (.inl rfl)), romEffect, settle_ok]
  case romWriteInOth => rw [exec_romRow hm hz hc hk (.inr (.inr rfl)), romEffect, settle_ok]

/-! ## No effect outside the range and for other flags (R195, R202) -/

section Silent

variable {u : Mem} {dw : Delivery} {a : Bus} (ha : s.bus? u.abus = some a)
  (hout : dw.src ≠ u.flag ∨ a.value.toNat < u.start ∨ u.last < a.value.toNat)
include ha hout

/-- A memory's decoder lets through neither another flag nor an address outside the range (R195, R202). -/
theorem memAnswer_silent (k : Nat → Res) : memAnswer u dw s k = .ok s none :=
  hout.elim (memAnswer_other · k) (memAnswer_outside ha · k)

theorem ramEffect_silent (m : Handle) (cls : ValueClass) : ramEffect m u dw s cls = .ok s none := by
  cases cls with
  | read => rw [ramEffect, memRead, memAnswer_silent ha hout]
  | write => rw [ramEffect, memWrite, memAnswer_silent ha hout]
  | other => rfl

theorem romEffect_silent (cls : ValueClass) : romEffect u dw s cls = .ok s none := by
  cases cls with
  | read => rw [romEffect, memRead, memAnswer_silent ha hout]
  | write | other => rfl

end Silent

/-- Settles O35: the decoder is silent, and a class that does not ask it does nothing anyway. -/
theorem memoryOutsideItsRangeIsSilent : Obligations.MemoryOutsideItsRangeIsSilent := by
  intro s m u a dw cls i hm hz ha hout hc hi
  rcases hi with ⟨hk, hi⟩ | ⟨hk, hi⟩
  · rw [exec_ramRow hm hz hc hk hi, ramEffect_silent ha hout, settle_ok]
  · rw [exec_romRow hm hz hc hk hi, romEffect_silent ha hout, settle_ok]

end Sys2Proof.Machine
end

section
/-! SUPPORT. The mapper constructors when their checks pass, MBSEL, and which reactions of a mapper there are and when it makes none: O40,
O42 and O47. -/

namespace Sys2Proof.Machine

variable {s : State} {k : Handle}

/-! ## Construction (R216 to R218, R220) -/

theorem onTriple_iff {w : Mem} {t : Triple} : onTriple w t = true ↔ w.abus = t.abus ∧ w.dbus = t.dbus ∧ w.flag = t.flag := by
  simp only [onTriple, Bool.and_eq_true, beq_iff_eq, and_assoc]

/-- The state with a new mapper k, which is `u`, put on the list of its outer flag, `fl`. -/
abbrev State.withMapper (s : State) (k : Handle) (u : Mapper) (fl : Flag) : State :=
  (s.putMap k u).putFlag u.outer.flag { fl with listeners := fl.listeners ++ [.mapper k] }

/-- With every check passed the mapper is made and put on its outer flag's list. -/
theorem buildMap_makes {kind : MapKind} {operands : Res → Res} {first last : Word} {outer inner : Triple} {mem : Handle} {w : Mem}
    {fl : Flag} (hr : badRange first last = false) (hop : ∀ r, operands r = r) (hk : s.map? k = none)
    (ho : s.hasTriple outer = true) (hi : s.hasTriple inner = true) (hne : outer.flag ≠ inner.flag) (hm : s.mem? mem = some w)
    (hon : onTriple w inner = true) (hf : s.flag? outer.flag = some fl) (hl : .mapper k ∉ fl.listeners) :
    buildMap kind operands k first last outer inner mem s =
      .ok (s.withMapper k ⟨kind, first.toNat, last.toNat, outer, inner, mem⟩ fl) none := by
  rw [buildMap_fresh hr hop hk ho hi hne, withMem_some hm, hon, require_true,
    flagAppend_fresh ((State.putMap_flag' s k _ outer.flag).trans hf) hl]

/-- Settles O40: what each kind asks of its own operands holds, and the rest of the construction is the same for the three. -/
theorem mapnewMakesTheMapper : Obligations.MapnewMakesTheMapper := by
  intro s k first last outer inner mem w fl hp hlo hlt hk ho hi hne hm habus hdbus hflag hf hl
  have made {kind : MapKind} {operands : Res → Res} (hop : ∀ r, operands r = r) :
      settle (buildMap kind operands k first last outer inner mem s) =
        .next ((s.withMapper k ⟨kind, first.toNat, last.toNat, outer, inner, mem⟩ fl).withReport (.ok none)) := by
    rw [buildMap_makes (legal_range hlo hlt) hop hk ho hi hne hm (onTriple_iff.mpr ⟨habus, hdbus, hflag⟩) hf hl, settle_ok]
  refine ⟨?identity, fun mask hmask => ?mirrored, fun bases hsome hbases => ?banked⟩
  case identity =>
    rw [exec, execMapnewI, inWiring_wiring hp]
    exact made fun _ => rfl
  case mirrored =>
    have hlim : inLimit mask = true := decide_eq_true hmask
    rw [exec, execMapnewM, inWiring_wiring hp, buildMirrored]
    exact made fun _ => by rw [hlim, require_true]
  case banked =>
    have hsome' : (!bases.isEmpty) = true := by simpa using hsome
    have hlim : bases.all inLimit = true := List.all_eq_true.mpr fun b hb => decide_eq_true (hbases b hb)
    rw [exec, execMapnewB, inWiring_wiring hp]
    exact made fun _ => by rw [hsome', hlim, require_true, require_true]

/-! ## MBSEL (R225) -/

section Mbsel

variable {u : Mapper} (hu : s.map? k = some u)
include hu

theorem exec_mbsel_banked {bases : List Word} {sel : Byte} (hk : u.kind = .banked bases sel) (bank : Byte) :
    exec (.mbsel k bank) s = settle (require (decide (bank.toNat < bases.length)) .bankIndex
      (.ok (s.enterRun.putMap k { u with kind := .banked bases bank }) none)) := by
  rw [exec, execMbsel, runMbsel, withMap_some (s := s.enterRun) hu, hk]

theorem exec_mbsel_notBanked (hk : u.kind = .identity ∨ ∃ mask, u.kind = .mirrored mask) (bank : Byte) :
    exec (.mbsel k bank) s = .refused .notBanked := by
  rw [exec, execMbsel, runMbsel, withMap_some (s := s.enterRun) hu]
  rcases hk with hk | ⟨mask, hk⟩
  · rw [hk, settle_refused]
  · rw [hk, settle_refused]

end Mbsel

/-- Settles O42: kind B by the size of its bank table, then the two other kinds. -/
theorem mbselSelectsTheBank : Obligations.MbselSelectsTheBank := by
  intro s k u bank hu
  refine ⟨fun bases sel hk => ⟨fun hin => ?selected, fun hout => ?outside⟩, fun hk => exec_mbsel_notBanked hu hk bank⟩
  case selected => rw [exec_mbsel_banked hu hk, decide_eq_true hin, require_true, settle_ok]
  case outside => rw [exec_mbsel_banked hu hk, decide_eq_false (Nat.not_lt.mpr hout), require_false, settle_refused]

/-! ## The rows of a mapper's reactions (R98, R99) -/

section Rows

variable {u : Mapper} {dw : Delivery} {cls : ValueClass} (hk : s.map? k = some u) (hz : dw.zero = 0#16)
  (hc : s.classOf dw.val = some cls)
include hk hz hc

/-- Whichever row a mapper's reaction is, the class of the value selects the effect. -/
theorem exec_mapRow {i : Instr} (hi : i = .mapRd k dw ∨ i = .mapWr k dw ∨ i = .mapOth k dw) :
    exec i s = settle (mapEffect (perform s.fuel) u dw s cls) := by
  have heffect := withMapReaction_some hz hk hc fun u => mapEffect (perform s.fuel) u dw s
  rcases hi with rfl | rfl | rfl <;> exact congrArg settle heffect

/-- The reaction a dispatch chooses for a mapper, inside a cascade. -/
theorem perform_mapperReaction (n : Nat) : perform (n + 1) (mapperReaction cls k dw) s = mapEffect (perform n) u dw s cls := by
  have heffect := withMapReaction_some hz hk hc fun u => mapEffect (perform n) u dw s
  cases cls <;> exact heffect

end Rows

/-! ## The effect by its steps (R226 to R229) -/

/-- What a mapper does about a value of each class once the translated address is on its inner address bus. -/
def relayOn (nested : Instr → State → Res) (u : Mapper) (dw : Delivery) : ValueClass → State → Res
  | .read, s => (nested (.fset u.inner.flag dw.val) s).andThen (relayCopy u.outer.dbus u.inner.dbus)
  | .write, s =>
    (relayCopy u.inner.dbus u.outer.dbus s).andThen fun t => (nested (.fset u.inner.flag dw.val) t).andThen fun e => .ok e none
  | .other, s => (nested (.fset u.inner.flag dw.val) s).andThen fun e => .ok e none

/-- Whatever the class, the decoder and the address write come first. -/
theorem mapEffect_steps (nested : Instr → State → Res) (u : Mapper) (dw : Delivery) (s : State) (cls : ValueClass) :
    mapEffect nested u dw s cls = mapAnswer u dw s fun t => (relayWrite u.inner.abus t s).andThen (relayOn nested u dw cls) := by
  cases cls <;> rfl

/-- Settles O47: for another flag and outside the range the decoder lets no class through (R226, R231). -/
theorem mapperOutsideItsRangeIsSilent : Obligations.MapperOutsideItsRangeIsSilent := by
  intro s k u a dw cls i hk hz ha hout hc hi
  rw [exec_mapRow hk hz hc hi, mapEffect_steps, hout.elim (mapAnswer_other · _) (mapAnswer_outside ha · _), settle_ok]

end Sys2Proof.Machine
end

section
/-! SUPPORT. The relay of a mapper: its bus writes, the inner FSET when one memory hears it, and O43 to O46 and O48. -/

namespace Sys2Proof.Machine

variable {s : State} {u : Mapper} {ia : Bus} {dw : Delivery} {t : Nat}

/-! ## The address write (R226, R230) -/

/-- Mapper `u` has put address `t` on its inner address bus, `ia`. -/
abbrev State.addressed (s : State) (u : Mapper) (ia : Bus) (t : Nat) : State :=
  s.putBus u.inner.abus { ia with value := BitVec.ofNat 32 t }

theorem toNat_address {width : Nat} (hw : width ≤ 31) (ht : t < 2 ^ width) : (BitVec.ofNat 32 t).toNat = t := by
  have hlimit : 2 ^ width ≤ 2 ^ 31 := Nat.pow_le_pow_right (by omega) hw
  rw [BitVec.toNat_ofNat, Nat.mod_eq_of_lt (by omega)]

section AddressWrite

variable {k : Handle} {cls : ValueClass} (hrel : s.relays k u dw t)
  (hia : s.bus? u.inner.abus = some ia) (hw : ia.width ≤ 31)
include hrel hia hw

/-- Whichever row the reaction is, a translated address that fits is put on the inner address bus, and the mapper goes on from there. -/
theorem exec_mapRow_relays {i : Instr} (hc : s.classOf dw.val = some cls) (hi : i = .mapRd k dw ∨ i = .mapWr k dw ∨ i = .mapOth k dw)
    (ht : t < 2 ^ ia.width) : exec i s = settle (relayOn (perform s.fuel) u dw cls (s.addressed u ia t)) := by
  obtain ⟨hk, hz, hsrc, a, ha, hlo, hhi, htrans⟩ := hrel
  have hfit : fits ia.width (BitVec.ofNat 32 t) = true := (fits_iff (by omega) _).mpr (by rwa [toNat_address hw ht])
  rw [exec_mapRow hk hz hc hi, mapEffect_steps, mapAnswer_inside hsrc ha ⟨hlo, hhi⟩ htrans, relayWrite_fit hia hfit, andThen_ok]

/-- One that does not ends the reaction before anything has changed (R230). -/
theorem mapEffect_addressWide (nested : Instr → State → Res) (ht32 : t < 2 ^ 32) (ht : 2 ^ ia.width ≤ t) :
    mapEffect nested u dw s cls = .err s (.signalPropagation (.invalidBusData u.inner.abus (BitVec.ofNat 32 t))) := by
  obtain ⟨-, -, hsrc, a, ha, hlo, hhi, htrans⟩ := hrel
  have hwide : fits ia.width (BitVec.ofNat 32 t) = false :=
    (fits_eq_false_iff (by omega) _).mpr (by rwa [BitVec.toNat_ofNat, Nat.mod_eq_of_lt ht32])
  rw [mapEffect_steps, mapAnswer_inside hsrc ha ⟨hlo, hhi⟩ htrans, relayWrite_wide hia hwide, andThen_err]

end AddressWrite

/-! ## The data copies (R227, R228) -/

section DataCopy

variable {src dst : Handle} {u d : Bus} (hsrc : s.bus? src = some u) (hdst : s.bus? dst = some d) (hw : d.width ≤ 31)
include hsrc hdst hw

theorem relayCopy_fit (hv : u.value.toNat < 2 ^ d.width) :
    relayCopy dst src s = .ok (s.putBus dst { d with value := u.value }) none := by
  rw [relayCopy_some hsrc, relayWrite_fit hdst ((fits_iff (by omega) _).mpr hv)]

theorem relayCopy_wide (hv : 2 ^ d.width ≤ u.value.toNat) :
    relayCopy dst src s = .err s (.signalPropagation (.invalidBusData dst u.value)) := by
  rw [relayCopy_some hsrc, relayWrite_wide hdst ((fits_eq_false_iff (by omega) _).mpr hv)]

end DataCopy

/-- A write of a bus's value leaves a bus, the same or another, what it was but for the value. -/
theorem bus_after_value {b c : Handle} {u d : Bus} (hb : s.bus? b = some u) (hc : s.bus? c = some d) (v : Word) :
    ∃ x, (s.putBus b { u with value := v }).bus? c = some { d with value := x } := by
  have hsame (w : Bus) (hw : s.bus? b = some w) : u.width = w.width := congrArg Bus.width (Option.some.inj (hb.symm.trans hw))
  obtain ⟨d', hd', hwidth⟩ := (extends_putBus (v := { u with value := v }) hsame).bus hc
  exact ⟨d'.value, by rw [hd', ← hwidth]⟩

/-! ## The inner FSET (R160) -/

/-- Flag `r.flag` is `fl`, can be set to `val`, and has one listener, memory `m`, which is `w`. -/
structure State.HeardByMemory (s : State) (r : Triple) (val : Byte) (m : Handle) (w : Mem) (fl : Flag) : Prop where
  flag : s.flag? r.flag = some fl
  member : s.memberOf fl.set val = true
  listeners : fl.listeners = [.memory m]
  mem : s.mem? m = some w

section InnerFset

variable {r : Triple} {val : Byte} {m : Handle} {w : Mem} {fl : Flag} {cls : ValueClass} {a d : Bus} {n : Nat}
  (h : s.HeardByMemory r val m w fl)
include h

/-- A write of a bus changes nothing of it. -/
theorem heardByMemory_putBus (b : Handle) (v : Bus) : (s.putBus b v).HeardByMemory r val m w fl := { h with flag := h.flag }

/-- The flag is set, and the memory's reaction is the rest. -/
theorem perform_fset_memory (hc : s.classOf val = some cls) {e : State} (he : e.stack = s.stack)
    (hreact : ∀ fs, perform (n + 1) (memoryReaction w.kind cls m ⟨0#16, r.flag, val⟩)
      ((s.putFlag r.flag { fl with value := val }).withStack fs) = .ok (e.withStack fs) none) :
    perform (n + 2) (.fset r.flag val) s = .ok e none := by
  have hone := dispatch_one_ok (frame := fun i => .flag r.flag i val) (flagReaction_memory (s := s.putFlag _ _) h.mem hc) (hreact _)
  rw [← h.listeners, State.putFlag_stack, ← he, State.withStack_withStack, State.withStack_self] at hone
  rw [perform_succ, act, runFset, withFlag_some h.flag, h.member, require_true, hone]

/-- On a value of class OTHER the memory does nothing (R198, R201). -/
theorem perform_fset_other (hc : s.classOf val = some .other) :
    perform (n + 2) (.fset r.flag val) s = .ok (s.putFlag r.flag { fl with value := val }) none :=
  perform_fset_memory h hc rfl fun _ => perform_memory_other (s := (s.putFlag _ _).withStack _) h.mem (by omega) hc

/-- A ROM ignores a WRITE-type value (R200). -/
theorem perform_fset_writeRom (hc : s.classOf val = some .write) (hk : w.kind = .rom) :
    perform (n + 2) (.fset r.flag val) s = .ok (s.putFlag r.flag { fl with value := val }) none :=
  perform_fset_memory h hc rfl fun _ => perform_rom (s := (s.putFlag _ _).withStack _) h.mem (by omega) hc hk

variable (hon : onTriple w r = true) (ha : s.bus? r.abus = some a)
include hon ha

/-- Outside its range the memory does not answer a READ-type value (R195). -/
theorem perform_fset_readMiss (hc : s.classOf val = some .read) (hout : a.value.toNat < w.start ∨ w.last < a.value.toNat) :
    perform (n + 2) (.fset r.flag val) s = .ok (s.putFlag r.flag { fl with value := val }) none := by
  obtain ⟨habus, -, -⟩ := onTriple_iff.mp hon
  refine perform_fset_memory h hc rfl fun fs => ?_
  rw [perform_memory_read (s := (s.putFlag _ _).withStack _) h.mem (by omega) hc, memRead,
    memAnswer_outside (s := (s.putFlag _ _).withStack _) (habus ▸ ha) hout]

variable (hrange : w.start ≤ a.value.toNat ∧ a.value.toNat ≤ w.last) (hd : s.bus? r.dbus = some d)
include hrange hd

/-- Inside it the memory puts the cell on the data bus (R196, R199). -/
theorem perform_fset_readHit (hc : s.classOf val = some .read)
    (hfit : fits d.width (cellWord w (a.value.toNat - w.start)) = true) : perform (n + 2) (.fset r.flag val) s =
      .ok ((s.putFlag r.flag { fl with value := val }).putBus r.dbus
        { d with value := cellWord w (a.value.toNat - w.start) }) none := by
  obtain ⟨habus, hdbus, hflag⟩ := onTriple_iff.mp hon
  refine perform_fset_memory h hc rfl fun fs => ?_
  rw [perform_memory_read (s := (s.putFlag _ _).withStack _) h.mem (by omega) hc,
    memRead_fit (s := (s.putFlag _ _).withStack _) hflag.symm (habus ▸ ha) hrange (hdbus ▸ hd) hfit, hdbus]
  rfl

/-- Inside it a RAM stores the data bus (R197). -/
theorem perform_fset_writeRam (hc : s.classOf val = some .write) (hk : w.kind = .ram) (hv : d.value.toNat < 256) :
    perform (n + 2) (.fset r.flag val) s =
      .ok ((s.putFlag r.flag { fl with value := val }).putMem m (w.stored a.value d.value)) none := by
  obtain ⟨habus, hdbus, hflag⟩ := onTriple_iff.mp hon
  refine perform_fset_memory h hc rfl fun fs => ?_
  rw [perform_ram (s := (s.putFlag _ _).withStack _) h.mem (by omega) hc hk, ramEffect,
    memWrite_narrow (s := (s.putFlag _ _).withStack _) hflag.symm (habus ▸ ha) hrange (hdbus ▸ hd) m hv]
  rfl

end InnerFset

/-! ## O43 to O46 -/

/-- Settles O43: buses may coincide, so of a bus written before only the width is known; the two copies need no more. -/
theorem mapRdRelaysARead : Obligations.MapRdRelaysARead := by
  intro s k m u w a ia id od fl dw t i hi hk hz hc hsrc ha hlo hhi ht hia hiaw htw hf hv hls hm hon hstart hlast hid hod hidw hodw
    hcell hcell' hfuel
  have hrel : s.relays k u dw t := ⟨hk, hz, hsrc, a, ha, hlo, hhi, ht⟩
  have hheard : (s.addressed u ia t).HeardByMemory u.inner dw.val m w fl := ⟨hf, hv, hls, hm⟩
  have hat := toNat_address hiaw htw
  have hword := cellWord_toNat w (t - w.start)
  have hfit : fits id.width (cellWord w (t - w.start)) = true := (fits_iff (by omega) _).mpr (hword.trans_lt hcell)
  obtain ⟨n, hn⟩ := Nat.exists_eq_add_of_le' hfuel
  obtain ⟨x, hid₁⟩ := bus_after_value hia hid (BitVec.ofNat 32 t)
  have hinner := perform_fset_readHit (n := n) hheard hon (State.putBus_bus_self ..) (by rw [hat]; exact ⟨hstart, hlast⟩) hid₁ hc
    (by rwa [hat])
  rw [hat] at hinner
  obtain ⟨y, hod₁⟩ := bus_after_value hia hod (BitVec.ofNat 32 t)
  obtain ⟨z, hod₂⟩ := bus_after_value (s := (s.addressed u ia t).putFlag _ _) hid₁ hod₁ (cellWord w (t - w.start))
  rw [exec_mapRow_relays hrel hia hiaw hc (hi.imp_right .inr) htw, relayOn, hn, hinner, andThen_ok,
    relayCopy_fit (State.putBus_bus_self ..) hod₂ hodw (hword.trans_lt hcell'), settle_ok]
  rfl

/-- Settles O44: the inner data bus is still what it was before the relay. -/
theorem mapRdInnerMissCopiesTheStaleBus : Obligations.MapRdInnerMissCopiesTheStaleBus := by
  intro s k m u w a ia id od fl dw t i hi hk hz hc hsrc ha hlo hhi ht hia hiaw htw hf hv hls hm hon hmiss hid hne hod hodw hstale hne'
    hfuel
  have hrel : s.relays k u dw t := ⟨hk, hz, hsrc, a, ha, hlo, hhi, ht⟩
  have hheard : (s.addressed u ia t).HeardByMemory u.inner dw.val m w fl := ⟨hf, hv, hls, hm⟩
  obtain ⟨n, hn⟩ := Nat.exists_eq_add_of_le' hfuel
  have hinner := perform_fset_readMiss (n := n) hheard hon (State.putBus_bus_self ..) hc (by rwa [toNat_address hiaw htw])
  have hid₁ : ((s.addressed u ia t).putFlag u.inner.flag { fl with value := dw.val }).bus? u.inner.dbus = some id :=
    (State.putBus_bus_ne _ _ _ hne.symm).trans hid
  have hod₁ : ((s.addressed u ia t).putFlag u.inner.flag { fl with value := dw.val }).bus? u.outer.dbus = some od :=
    (State.putBus_bus_ne _ _ _ hne'.symm).trans hod
  rw [exec_mapRow_relays hrel hia hiaw hc (hi.imp_right .inr) htw, relayOn, hn, hinner, andThen_ok,
    relayCopy_fit hid₁ hod₁ hodw hstale, settle_ok]

/-- Settles O45: the data is on the inner bus before the inner flag is set, and the memory's kind decides what becomes of it. -/
theorem mapWrRelaysAWrite : Obligations.MapWrRelaysAWrite := by
  intro s k m u w a ia id od fl dw t i hi hk hz hc hsrc ha hlo hhi ht hia hiaw htw hf hv hls hm hon hstart hlast hid hod hidw hne hne'
    hdata hfuel
  have hrel : s.relays k u dw t := ⟨hk, hz, hsrc, a, ha, hlo, hhi, ht⟩
  have hat := toNat_address hiaw htw
  obtain ⟨n, hn⟩ := Nat.exists_eq_add_of_le' hfuel
  have hid₁ : (s.addressed u ia t).bus? u.inner.dbus = some id := (State.putBus_bus_ne _ _ _ hne).trans hid
  have hod₁ : (s.addressed u ia t).bus? u.outer.dbus = some od := (State.putBus_bus_ne _ _ _ hne').trans hod
  have hheard : ((s.addressed u ia t).putBus u.inner.dbus { id with value := od.value }).HeardByMemory u.inner dw.val m w fl :=
    ⟨hf, hv, hls, hm⟩
  rw [exec_mapRow_relays hrel hia hiaw hc (.inr hi) htw, relayOn, relayCopy_fit hod₁ hid₁ hidw hdata, andThen_ok, hn]
  refine ⟨fun hrom => ?rom, fun hram hnarrow => ⟨(w.stored (BitVec.ofNat 32 t) od.value).contents, fun j => ?cells, ?ram⟩⟩
  case rom => rw [perform_fset_writeRom hheard hc hrom, andThen_ok, settle_ok]
  case cells => simp only [Mem.stored, Memory.read_write, hat, eq_comm]
  case ram =>
    have haddress := (State.putBus_bus_ne (s.addressed u ia t) u.inner.dbus { id with value := od.value } hne.symm).trans
      (State.putBus_bus_self ..)
    rw [perform_fset_writeRam hheard hon haddress (by rw [hat]; exact ⟨hstart, hlast⟩) (State.putBus_bus_self ..) hc hram hnarrow,
      andThen_ok, settle_ok]
    rfl

/-- Settles O46. -/
theorem mapOthRelaysWithoutData : Obligations.MapOthRelaysWithoutData := by
  intro s k m u w a ia fl dw t hk hz hc hsrc ha hlo hhi ht hia hiaw htw hf hv hls hm hfuel
  have hheard : (s.addressed u ia t).HeardByMemory u.inner dw.val m w fl := ⟨hf, hv, hls, hm⟩
  obtain ⟨n, hn⟩ := Nat.exists_eq_add_of_le' hfuel
  rw [exec_mapRow_relays ⟨hk, hz, hsrc, a, ha, hlo, hhi, ht⟩ hia hiaw hc (.inr (.inr rfl)) htw, relayOn, hn,
    perform_fset_other hheard hc, andThen_ok, settle_ok]

/-! ## O48 -/

theorem change_platform {s t : State} (h : s.Change t) : t.platform = s.platform := by cases h <;> rfl

/-- No delivery changes the class of a value (R101, log 8). -/
theorem deliverAll_classOf {n : Nat} {react : State → Listener → Except Refusal Instr} {frame : Nat → Frame} {outer : List Frame}
    {i : Nat} {ls : List Listener} {e : State} {v : Option Word} (h : deliverAll (perform n) react frame outer i ls s = .ok e v)
    (val : Byte) : e.classOf val = s.classOf val := by
  have hchanges : s.Changes e := by
    have hleaves := deliverAll_kept changes_kept (perform_kept changes_kept n) react frame outer i ls s
    rwa [h] at hleaves
  have hplatform : e.platform = s.platform :=
    changes_keep (p := fun t => t.platform = s.platform) (fun _ _ hc ih => (change_platform hc).trans ih) hchanges rfl
  rw [State.classOf, State.classOf, hplatform]

/-- Settles O48: a mapper's reaction by its bus writes in order, then the outer FSET in the mapper's turn. -/
theorem relayErrorsAreWrappedOnce : Obligations.RelayErrorsAreWrappedOnce := by
  refine ⟨fun s s₁ k u ia dw t hrel hia hw ht32 hs₁ => ?reaction, ?outerFset⟩
  case reaction =>
    subst hs₁
    refine ⟨fun hwide i hi => ?address, fun htw => ⟨?dataIn, ?dataOut, ?nested, ?nestedWrite⟩⟩
    case address =>
      have ⟨hk, hz, _⟩ := hrel
      have failing {cls : ValueClass} (hc : s.classOf dw.val = some cls) (hi : i = .mapRd k dw ∨ i = .mapWr k dw ∨ i = .mapOth k dw) :
          exec i s = .next (s.withReport (.err (.signalPropagation (.invalidBusData u.inner.abus (BitVec.ofNat 32 t))))) := by
        rw [exec_mapRow hk hz hc hi, mapEffect_addressWide hrel hia hw _ ht32 hwide, settle_err]
      rcases hi with ⟨hc, hi⟩ | ⟨hc, hi⟩ | ⟨hc, hi⟩
      · exact failing hc (.inl hi)
      · exact failing hc (.inr (.inl hi))
      · exact failing hc (.inr (.inr hi))
    case dataIn =>
      intro id od hc hid hod hidw hwide
      rw [exec_mapRow_relays hrel hia hw hc (.inr (.inl rfl)) htw, relayOn, relayCopy_wide hod hid hidw hwide,
        andThen_err, settle_err]
    case dataOut =>
      intro s₂ v id od hc hnested hid hod hodw hwide
      rw [exec_mapRow_relays hrel hia hw hc (.inl rfl) htw, relayOn, hnested, andThen_ok,
        relayCopy_wide hid hod hodw hwide, settle_err]
    case nested =>
      rintro s₂ e i (⟨hc, rfl⟩ | ⟨hc, rfl⟩) hnested
      · rw [exec_mapRow_relays hrel hia hw hc (.inl rfl) htw, relayOn, hnested, andThen_err, settle_err]
      · rw [exec_mapRow_relays hrel hia hw hc (.inr (.inr rfl)) htw, relayOn, hnested, andThen_err, settle_err]
    case nestedWrite =>
      intro s₂ e id od hc hid hod hidw hdata hnested
      rw [exec_mapRow_relays hrel hia hw hc (.inr (.inl rfl)) htw, relayOn, relayCopy_fit hod hid hidw hdata,
        andThen_ok, hnested, andThen_err, settle_err]
  case outerFset =>
    intro s s₁ k u ia val t fl before after v hf hv hls hbefore hrel hia hw ht32 hwide hfuel
    obtain ⟨cls, hc⟩ := memberOf_class hv
    obtain ⟨n, hn⟩ := Nat.exists_eq_add_of_le' hfuel
    have hc₁ : s₁.classOf val = some cls := (deliverAll_classOf hbefore val).trans hc
    have hfail (fs : List Frame) : perform s.fuel (mapperReaction cls k ⟨0#16, u.outer.flag, val⟩) (s₁.withStack fs) =
        .err (s₁.withStack fs) (.signalPropagation (.invalidBusData u.inner.abus (BitVec.ofNat 32 t))) := by
      rw [hn, perform_mapperReaction (s := s₁.withStack fs) (dw := ⟨0#16, u.outer.flag, val⟩) hrel.1 rfl hc₁]
      exact mapEffect_addressWide (s := s₁.withStack fs) hrel hia hw _ ht32 hwide
    rw [exec_fset_member hf hv hls, dispatch_failing (s := s.enterRun.putFlag _ _) hbefore (flagReaction_mapper hc₁) (hfail _),
      settle_err]
    rfl

end Sys2Proof.Machine
end

section
/-! SUPPORT. The cartridge constructor: its errors, and the ROM and the mapper of variant 0; O50 and O51. -/

namespace Sys2Proof.Machine

variable {s : State} {q : Handle} {mapperId : Byte} {mirroring : Bool} {outer inner : Triple} {mem map : Handle} {prg chr : List Byte}

/-! ## Errors (R256, R257) -/

section Errors

variable (hp : s.phase = .wiring)
include hp

theorem exec_cartnew_unsupported (hid : mapperId ≠ 0#8) :
    exec (.cartnew q mapperId mirroring outer inner mem map prg chr) s = .next (s.withReport (.err (.unsupportedMapper mapperId))) := by
  rw [exec, execCartnew, inWiring_wiring hp, if_pos (show mapperId ≠ Config.supportedMapper from hid), raise_eq, settle_err]

theorem exec_cartnew_wrongSize (hsize : prg.length ∉ prgSizes) :
    exec (.cartnew q 0#8 mirroring outer inner mem map prg chr) s =
      .next (s.withReport (.err (.sizeMismatch prgSizes prg.length))) := by
  rw [exec, execCartnew, inWiring_wiring hp, if_neg (show ¬(0#8 ≠ Config.supportedMapper) from not_not_intro rfl), if_pos hsize,
    raise_eq, settle_err]

end Errors

/-- Settles O50: the mapper number is checked first and the PRG size second, both before any handle. -/
theorem cartnewRaises : Obligations.CartnewRaises := by
  intro s q mapperId mirroring outer inner mem map prg chr hp
  refine ⟨exec_cartnew_unsupported hp, fun hid h16 h32 => ?size⟩
  have hsize : prg.length ∉ prgSizes := by simp [prgSizes, h16, h32]
  rw [hid]
  exact exec_cartnew_wrongSize hp hsize

/-! ## The two PRG sizes (R254, R255) -/

section Sizes

variable {n : Nat} (hn : n = 16384 ∨ n = 32768)
include hn

theorem toNat_prgLast : (BitVec.ofNat 32 (n - 1)).toNat = n - 1 := by
  rcases hn with rfl | rfl <;> rfl

theorem badRange_prg : badRange 0#32 (BitVec.ofNat 32 (n - 1)) = false :=
  badRange_eq_false_nat.mpr (by rw [toNat_prgLast hn, BitVec.toNat_zero]; omega)

theorem rangeSize_prg : rangeSize 0#32 (BitVec.ofNat 32 (n - 1)) = n := by
  rw [rangeSize, toNat_prgLast hn, BitVec.toNat_zero]
  omega

/-- The mask takes an offset of the window to its remainder by the size, both sizes being powers of two that divide 0x8000 (R223). -/
theorem window_and_prgMask (i : Nat) : (0x8000 + i) &&& (BitVec.ofNat 32 (n - 1)).toNat = i % n := by
  rw [toNat_prgLast hn]
  rcases hn with rfl | rfl
  · exact (Nat.and_two_pow_sub_one_eq_mod _ 14).trans (by omega)
  · exact (Nat.and_two_pow_sub_one_eq_mod _ 15).trans (by omega)

end Sizes

/-! ## The units of variant 0 (R254, R255) -/

/-- The ROM of variant 0: the PRG array at inner addresses from 0. -/
def cartRom (prg : List Byte) (inner : Triple) : Mem :=
  ⟨.rom, 0, prg.length - 1, inner.abus, inner.dbus, inner.flag, Memory.ofArray 0 prg⟩

/-- The mapper of variant 0 for a PRG array of `n` bytes: the cartridge window, mirrored to `n` bytes. -/
def cartMapper (n : Nat) (outer inner : Triple) (mem : Handle) : Mapper :=
  ⟨.mirrored (BitVec.ofNat 32 (n - 1)), 0x8000, 0xFFFF, outer, inner, mem⟩

/-- The state with a new memory m, which is `u`, put on the list of its flag, `fl`. -/
abbrev State.withMemory (s : State) (m : Handle) (u : Mem) (fl : Flag) : State :=
  (s.putMem m u).putFlag u.flag { fl with listeners := fl.listeners ++ [.memory m] }

/-- The state CARTNEW of variant 0 leaves, but for its report: the ROM, then the mapper, then the cartridge with its four inputs. -/
def State.withCartridge (s : State) (q : Handle) (mirroring : Bool) (outer inner : Triple) (mem map : Handle) (prg chr : List Byte)
    (fo fi : Flag) : State :=
  ((s.withMemory mem (cartRom prg inner) fi).withMapper map (cartMapper prg.length outer inner mem) fo).putCart q
    ⟨prg, chr, mirroring, 0#8⟩

section Makes

variable {fo fi : Flag} (hprg : prg.length = 16384 ∨ prg.length = 32768) (hm : s.mem? mem = none) (hi : s.hasTriple inner = true)
  (hfi : s.flag? inner.flag = some fi) (hli : .memory mem ∉ fi.listeners)
include hprg hm hi hfi hli

theorem buildMem_cartRom : buildMem .rom mem 0#32 (BitVec.ofNat 32 (prg.length - 1)) inner (some prg) s =
    .ok (s.withMemory mem (cartRom prg inner) fi) none := by
  have hsize := rangeSize_prg hprg
  rw [buildMem_fresh (badRange_prg hprg) (fun cells hc => Option.some.inj hc ▸ hsize.symm) (by omega) hm hi, withRamBus,
    flagAppend_fresh ((State.putMem_flag' ..).trans hfi) hli, toNat_prgLast hprg]
  rfl

variable (hk : s.map? map = none) (ho : s.hasTriple outer = true) (hne : outer.flag ≠ inner.flag)
  (hfo : s.flag? outer.flag = some fo) (hlo : .mapper map ∉ fo.listeners)
include hk ho hne hfo hlo

theorem buildVariant0_makes : buildVariant0 prg.length outer inner mem map prg s = .ok
    ((s.withMemory mem (cartRom prg inner) fi).withMapper map (cartMapper prg.length outer inner mem) fo) none := by
  have hext : s.Extends (s.withMemory mem (cartRom prg inner) fi) :=
    { extends_putMem (by simp [hm]) with flag := (extends_append hfi _).flag }
  have hlim : inLimit (BitVec.ofNat 32 (prg.length - 1)) = true := by
    rw [inLimit, toNat_prgLast hprg, decide_eq_true_eq, Config.addressLimit]
    omega
  rw [buildVariant0, buildMem_cartRom hprg hm hi hfi hli, andThen_ok, buildMirrored]
  exact buildMap_makes (by decide) (fun r => by rw [hlim, require_true]) hk (hasTriple_of_extends hext ho)
    (hasTriple_of_extends hext hi) hne (State.putMem_mem_self ..) (onTriple_iff.mpr ⟨rfl, rfl, rfl⟩)
    ((State.putFlag_flag_ne _ _ _ hne.symm).trans hfo) hlo

variable (hp : s.phase = .wiring) (hq : s.cart? q = none)
include hp hq

theorem exec_cartnew_makes : exec (.cartnew q 0#8 mirroring outer inner mem map prg chr) s =
    .next ((s.withCartridge q mirroring outer inner mem map prg chr fo fi).withReport (.ok none)) := by
  rw [exec_cartnew_variant0 hp hprg, hq, Option.isNone_none, require_true,
    buildVariant0_makes hprg hm hi hfi hli hk ho hne hfo hlo, andThen_ok, settle_ok, State.withCartridge]

end Makes

/-- Settles O51: the ROM's cells are the PRG array's canonical form. -/
theorem cartnewBuildsVariantZero : Obligations.CartnewBuildsVariantZero := by
  intro s q mirroring outer inner mem map prg chr fo fi hp hprg hq hm hk ho hi hne hfo hfi hlo hli
  exact ⟨Memory.ofArray 0 prg, fun i => Memory.read_ofArray i prg, Memory.wf_ofArray prg,
    exec_cartnew_makes hprg hm hi hfi hli hk ho hne hfo hlo hp hq⟩

end Sys2Proof.Machine
end

section
/-! SUPPORT. The iNES parse of a file with the magic, and O53. -/

namespace Sys2Proof.Machine

/-! ## The mapper number (R117) -/

theorem and_highNibble : ∀ b : Byte, b &&& 0xF0#8 = (b >>> 4) <<< 4 := by decide

theorem toNat_shiftRight_nibble (b : Byte) : (b >>> 4).toNat = b.toNat / 16 := by
  rw [BitVec.toNat_ushiftRight, Nat.shiftRight_eq_div_pow]

/-- The two nibbles do not overlap, so joining them is adding them. -/
theorem inesMapperId_eq (flags6 flags7 : Byte) :
    inesMapperId flags6 flags7 = BitVec.ofNat 8 (flags6.toNat / 16 + flags7.toNat / 16 * 16) := by
  have hlow : flags6.toNat / 16 < 2 ^ 4 := by omega
  have hhigh : (flags7.toNat / 16) <<< 4 % 2 ^ 8 = (flags7.toNat / 16) <<< 4 := by rw [Nat.shiftLeft_eq]; omega
  apply BitVec.eq_of_toNat_eq
  calc (inesMapperId flags6 flags7).toNat
      = flags6.toNat / 16 ||| (flags7.toNat / 16) <<< 4 := by
        rw [inesMapperId, and_highNibble, BitVec.toNat_or, BitVec.toNat_shiftLeft, toNat_shiftRight_nibble, toNat_shiftRight_nibble,
          hhigh]
    _ = flags6.toNat / 16 + flags7.toNat / 16 * 16 := by
        rw [Nat.or_comm, ← Nat.shiftLeft_add_eq_or_of_lt hlow, Nat.add_comm, Nat.shiftLeft_eq]
    _ = (BitVec.ofNat 8 (flags6.toNat / 16 + flags7.toNat / 16 * 16)).toNat := by
        rw [BitVec.toNat_ofNat, Nat.mod_eq_of_lt (by omega)]

/-! ## The arrays (R112, R116, R118) -/

theorem inesParse_wrongMagic {file : List Byte} (h : file.take 4 ≠ inesMagic) : inesParse file = none := by
  rw [inesParse, if_neg h]

/-- A file with the magic and the four bytes after it. -/
abbrev inesFile (prgUnits chrUnits flags6 flags7 : Byte) (tail : List Byte) : List Byte :=
  [0x4E#8, 0x45#8, 0x53#8, 0x1A#8, prgUnits, chrUnits, flags6, flags7] ++ tail

/-- The rest of such a file is as long as the arrays ask, or there is no cartridge. -/
theorem inesParse_inesFile (prgUnits chrUnits flags6 flags7 : Byte) (tail : List Byte) :
    inesParse (inesFile prgUnits chrUnits flags6 flags7 tail) =
      if 16 + inesTrainer flags6 + prgUnits.toNat * 16384 + chrUnits.toNat * 8192 ≤ tail.length + 8 then
        some ⟨(tail.drop (8 + inesTrainer flags6)).take (prgUnits.toNat * 16384),
          (tail.drop (8 + inesTrainer flags6 + prgUnits.toNat * 16384)).take (chrUnits.toNat * 8192), flags6.getLsbD 0,
          inesMapperId flags6 flags7⟩
      else none := by
  have hdrop (n : Nat) : (inesFile prgUnits chrUnits flags6 flags7 tail).drop (8 + n) = tail.drop n := by
    rw [Nat.add_comm]
    rfl
  rw [← hdrop, ← hdrop, ← Nat.add_assoc, ← Nat.add_assoc, ← Nat.add_assoc]
  rfl

/-- A file that gives a cartridge has at least the sixteen bytes of the header. -/
theorem length_of_inesParse {file : List Byte} {u : Cart} (h : inesParse file = some u) : 16 ≤ file.length := by
  simp only [inesParse] at h
  split at h
  next =>
    split at h
    next =>
      split at h
      next hlen => omega
      next => cases h
    next => cases h
  next => cases h

/-- The arrays are what stands past the header and the trainer, whatever follows them. -/
theorem inesParse_arrays (flags7 : Byte) {prgUnits chrUnits flags6 : Byte} {front prg chr : List Byte}
    (hfront : front.length = 8 + inesTrainer flags6) (hprg : prg.length = prgUnits.toNat * 16384)
    (hchr : chr.length = chrUnits.toNat * 8192) (rest : List Byte) :
    inesParse (inesFile prgUnits chrUnits flags6 flags7 (front ++ prg ++ (chr ++ rest))) =
      some ⟨prg, chr, flags6.getLsbD 0, inesMapperId flags6 flags7⟩ := by
  have hlen : (front ++ prg).length = 8 + inesTrainer flags6 + prgUnits.toNat * 16384 := by rw [List.length_append, hfront, hprg]
  have hfits : 16 + inesTrainer flags6 + prgUnits.toNat * 16384 + chrUnits.toNat * 8192 ≤
      (front ++ prg ++ (chr ++ rest)).length + 8 := by
    rw [List.length_append, hlen, List.length_append, hchr]
    omega
  rw [inesParse_inesFile, if_pos hfits, List.drop_left' hlen, List.take_left' hchr, List.append_assoc, List.drop_left' hfront,
    List.take_left' hprg]

/-- Settles O53: a file with the magic by its arrays, then the files without it or without a whole header, then one without its arrays. -/
theorem inesParseGivesTheFourInputs : Obligations.InesParseGivesTheFourInputs := by
  refine ⟨fun prgUnits chrUnits flags6 flags7 reserved trainer prg chr rest hreserved htrainer hprg hchr => ?parsed,
    fun file => inesParse_wrongMagic, fun file hlen => ?header, fun prgUnits chrUnits flags6 flags7 tail hlen => ?arrays⟩
  case parsed =>
    have hfront : (reserved ++ trainer).length = 8 + inesTrainer flags6 := by
      rw [List.length_append, hreserved, htrainer, inesTrainer]
    rw [← inesMapperId_eq, ← inesParse_arrays flags7 hfront hprg hchr rest]
    simp only [inesFile, List.append_assoc]
  case header =>
    refine Option.eq_none_iff_forall_ne_some.mpr fun u hu => ?_
    have := length_of_inesParse hu
    omega
  case arrays => exact (inesParse_inesFile ..).trans (if_neg (Nat.not_le.mpr hlen))

end Sys2Proof.Machine
end

section
/-! SUPPORT. A LOAD through a mapper whose memory alone hears the inner flag, and O52. -/

namespace Sys2Proof.Machine

variable {s : State}

/-! ## Buses wide enough (R23, R133) -/

/-- Bus b, of a legal width (R23), takes every value of `n` bits. -/
def State.Carries (s : State) (b : Handle) (n : Nat) : Prop := ∃ u, s.bus? b = some u ∧ n ≤ u.width ∧ u.width ≤ 31

theorem carries_bus {b : Handle} {n v : Nat} (hb : s.Carries b n) (hv : v < 2 ^ n) :
    ∃ u, s.bus? b = some u ∧ u.width ≤ 31 ∧ v < 2 ^ u.width := by
  obtain ⟨u, hu, hlo, hhi⟩ := hb
  exact ⟨u, hu, hhi, hv.trans_le (Nat.pow_le_pow_right (by omega) hlo)⟩

/-- A write of a bus's value leaves every bus as wide as it was. -/
theorem carries_putBus {b c : Handle} {u : Bus} {n : Nat} (hc : s.Carries c n) (hb : s.bus? b = some u) (v : Word) :
    (s.putBus b { u with value := v }).Carries c n := by
  obtain ⟨d, hd, hlo, hhi⟩ := hc
  obtain ⟨x, hx⟩ := bus_after_value hb hd v
  exact ⟨_, hx, hlo, hhi⟩

theorem cellWord_lt (w : Mem) (i : Nat) : (cellWord w i).toNat < 2 ^ 8 := (cellWord_toNat w i).trans_lt (BitVec.isLt _)

/-! ## One mapper with one memory behind it -/

/-- Mapper k, which is `u`, is all that hears its outer flag, and memory m, which is `w` and on its inner triple, all that hears its
inner flag. The buses carry 16-bit addresses outside, 15-bit ones inside, and bytes. -/
structure State.OneMapper (s : State) (k : Handle) (u : Mapper) (m : Handle) (w : Mem) : Prop where
  mapper : s.map? k = some u
  memory : s.mem? m = some w
  placed : onTriple w u.inner = true
  apart : u.outer.flag ≠ u.inner.flag
  heard : ∃ fl, s.flag? u.outer.flag = some fl ∧ fl.set = 0#4 ∧ fl.listeners = [.mapper k]
  innerHeard : ∃ fl, s.flag? u.inner.flag = some fl ∧ fl.set = 0#4 ∧ fl.listeners = [.memory m]
  address : s.Carries u.outer.abus 16
  data : s.Carries u.outer.dbus 8
  innerAddress : s.Carries u.inner.abus 15
  innerData : s.Carries u.inner.dbus 8
  fuel : 3 ≤ s.fuel

section OneMapper

variable {k m : Handle} {u : Mapper} {w : Mem} (h : s.OneMapper k u m w)
include h

theorem oneMapper_putBus {b : Handle} {d : Bus} (hb : s.bus? b = some d) (v : Word) :
    (s.putBus b { d with value := v }).OneMapper k u m w :=
  { h with
    address := carries_putBus h.address hb v
    data := carries_putBus h.data hb v
    innerAddress := carries_putBus h.innerAddress hb v
    innerData := carries_putBus h.innerData hb v }

/-- The outer flag may take any value. -/
theorem oneMapper_putFlag {fl : Flag} (hf : s.flag? u.outer.flag = some fl) (val : Byte) :
    (s.putFlag u.outer.flag { fl with value := val }).OneMapper k u m w := by
  obtain ⟨fo, hfo, hset, hls⟩ := h.heard
  obtain ⟨fi, hfi, hseti, hlsi⟩ := h.innerHeard
  cases hf.symm.trans hfo
  exact { h with
    heard := ⟨_, State.putFlag_flag_self .., hset, hls⟩
    innerHeard := ⟨fi, (State.putFlag_flag_ne _ _ _ h.apart).trans hfi, hseti, hlsi⟩ }

/-! ## LOAD through the mapper (R79, R227) -/

theorem oneMapper_bwc {x : Word} (hx : x.toNat < 2 ^ 16) :
    ∃ e a, exec (.bwc u.outer.abus x) s = .next e ∧ e.OneMapper k u m w ∧ e.bus? u.outer.abus = some a ∧ a.value = x := by
  obtain ⟨a, ha, haw, hxw⟩ := carries_bus h.address hx
  exact ⟨_, _, exec_bwc_fit ha haw hxw, { oneMapper_putBus h ha x with mapper := h.mapper }, State.putBus_bus_self .., rfl⟩

/-- READ on the inner flag leaves the cell the inner address bus selects on the inner data bus. -/
theorem oneMapper_innerRead {a : Bus} (ha : s.bus? u.inner.abus = some a)
    (hcell : w.start ≤ a.value.toNat ∧ a.value.toNat ≤ w.last) (n : Nat) :
    ∃ e d, perform (n + 2) (.fset u.inner.flag valRead) s = .ok e none ∧ e.bus? u.inner.dbus = some d ∧
      d.value = cellWord w (a.value.toNat - w.start) ∧ e.Carries u.outer.dbus 8 := by
  obtain ⟨fl, hf, hset, hls⟩ := h.innerHeard
  have hheard : s.HeardByMemory u.inner valRead m w fl := ⟨hf, hset ▸ memberOf_read s, hls, h.memory⟩
  obtain ⟨d, hd, hdw, hbyte⟩ := carries_bus h.innerData (cellWord_lt w (a.value.toNat - w.start))
  exact ⟨_, _, perform_fset_readHit hheard h.placed ha hcell hd (classOf_read s) ((fits_iff (by omega) _).mpr hbyte),
    State.putBus_bus_self .., rfl, carries_putBus (s := s.putFlag _ { fl with value := valRead }) h.data hd _⟩

section Answered

variable {a : Bus} {t : Nat} (ha : s.bus? u.outer.abus = some a) (hwindow : u.first ≤ a.value.toNat ∧ a.value.toNat ≤ u.last)
  (htrans : translateAddress u a.value.toNat = .ok t) (ht : t < 2 ^ 15) (hcell : w.start ≤ t ∧ t ≤ w.last)
include ha hwindow htrans ht hcell

/-- The mapper's reaction leaves the cell at the translated address on the outer data bus, whichever of the buses coincide. -/
theorem oneMapper_mapRd (n : Nat) : ∃ e d, perform (n + 3) (.mapRd k ⟨0#16, u.outer.flag, valRead⟩) s = .ok e none ∧
    e.bus? u.outer.dbus = some d ∧ d.value = cellWord w (t - w.start) := by
  obtain ⟨ia, hia, hiaw, htw⟩ := carries_bus h.innerAddress ht
  have hword : (BitVec.ofNat 32 t).toNat = t := toNat_address hiaw htw
  have haddress : fits ia.width (BitVec.ofNat 32 t) = true := (fits_iff (by omega) _).mpr (hword.symm ▸ htw)
  obtain ⟨e, id, hinner, hid, hvalue, hdata⟩ := oneMapper_innerRead (oneMapper_putBus h hia (BitVec.ofNat 32 t))
    (State.putBus_bus_self ..) (hword.symm ▸ hcell) n
  obtain ⟨od, hod, hodw, hbyte⟩ := carries_bus hdata (hvalue ▸ cellWord_lt w _ : id.value.toNat < 2 ^ 8)
  have heffect := perform_mapperReaction (dw := ⟨0#16, u.outer.flag, valRead⟩) h.mapper rfl (classOf_read s) (n + 2)
  rw [mapEffect_steps, mapAnswer_inside rfl ha hwindow htrans, relayWrite_fit hia haddress, andThen_ok, relayOn, hinner, andThen_ok,
    relayCopy_fit hid hod hodw hbyte] at heffect
  exact ⟨_, _, heffect, State.putBus_bus_self .., hvalue.trans (by rw [hword])⟩

theorem oneMapper_fsetRead : ∃ e d, exec (.fset u.outer.flag valRead) s = .next e ∧ e.bus? u.outer.dbus = some d ∧
    d.value = cellWord w (t - w.start) := by
  obtain ⟨fl, hf, hset, hls⟩ := h.heard
  obtain ⟨n, hn⟩ := Nat.exists_eq_add_of_le' h.fuel
  have h₁ : ((s.enterRun.putFlag u.outer.flag { fl with value := valRead }).withStack
      (.flag u.outer.flag 0 valRead :: s.stack)).OneMapper k u m w :=
    { oneMapper_putFlag h hf valRead with mapper := h.mapper }
  obtain ⟨e, d, hrun, hd, hvalue⟩ := oneMapper_mapRd h₁ ha hwindow htrans ht hcell n
  rw [← hn] at hrun
  exact ⟨_, d, exec_fset_ok hf (hset ▸ memberOf_read s) hls (dispatch_one_ok (flagReaction_mapper (classOf_read _)) hrun), hd, hvalue⟩

end Answered

theorem oneMapper_load {x : Word} {t : Nat} (hx : x.toNat < 2 ^ 16) (hwindow : u.first ≤ x.toNat ∧ x.toNat ≤ u.last)
    (htrans : translateAddress u x.toNat = .ok t) (ht : t < 2 ^ 15) (hcell : w.start ≤ t ∧ t ≤ w.last) :
    ∃ e, runAll (loadAccess u.outer x) s = .next e ∧ e.report = some (.ok (some (cellWord w (t - w.start)))) := by
  obtain ⟨s₁, a, hs₁, h₁, ha, rfl⟩ := oneMapper_bwc h hx
  obtain ⟨s₂, d, hs₂, hd, hvalue⟩ := oneMapper_fsetRead h₁ ha hwindow htrans ht hcell
  exact ⟨_, runAll_three hs₁ hs₂ (exec_brd hd), hvalue ▸ rfl⟩

end OneMapper

/-! ## The cartridge (R254, R255, R260) -/

/-- Address 0x8000 + i of the window is inner address i, mirrored when the PRG array is 16 KiB (R223). -/
theorem translateAddress_cartMapper {n i : Nat} (hn : n = 16384 ∨ n = 32768) (hi : i < 0x8000) (outer inner : Triple) (mem : Handle) :
    translateAddress (cartMapper n outer inner mem) (0x8000 + i) = .ok (i % n) := by
  have hwindow : (cartMapper n outer inner mem).first ≤ 0x8000 + i ∧ 0x8000 + i ≤ (cartMapper n outer inner mem).last := by
    simp only [cartMapper]
    omega
  rw [translate_inside hwindow, translateInside_mirrored rfl, window_and_prgMask hn]

/-- Settles O52: CARTNEW leaves one mapper with one memory behind it, whose cells are the PRG array's bytes. -/
theorem cartridgeWindowReadsThePrgArray : Obligations.CartridgeWindowReadsThePrgArray := by
  intro s q mirroring outer inner mem map prg chr fo fi oa od ia id i hp hprg hq hm hk hne hfo hfi hseto hseti hlo hli hoa hod hia hid
    hoalo hoahi hodlo hodhi hialo hiahi hidlo hidhi hfuel hi
  have hmake := exec_cartnew_makes (mirroring := mirroring) (chr := chr) hprg hm (hasTriple_iff.mpr ⟨ia, id, fi, hia, hid, hfi⟩) hfi
    (by simp [hli]) hk (hasTriple_iff.mpr ⟨oa, od, fo, hoa, hod, hfo⟩) hne hfo (by simp [hlo]) hp hq
  have hone : ((s.withCartridge q mirroring outer inner mem map prg chr fo fi).withReport (.ok none)).OneMapper map
      (cartMapper prg.length outer inner mem) mem (cartRom prg inner) :=
    { mapper := State.putMap_map_self ..
      memory := State.putMem_mem_self ..
      placed := onTriple_iff.mpr ⟨rfl, rfl, rfl⟩
      apart := hne
      heard := ⟨_, State.putFlag_flag_self .., hseto, by rw [hlo]; rfl⟩
      innerHeard := ⟨_, (State.putFlag_flag_ne _ _ _ hne).trans (State.putFlag_flag_self ..), hseti, by rw [hli]; rfl⟩
      address := ⟨oa, hoa, hoalo, hoahi⟩
      data := ⟨od, hod, hodlo, hodhi⟩
      innerAddress := ⟨ia, hia, hialo, hiahi⟩
      innerData := ⟨id, hid, hidlo, hidhi⟩
      fuel := hfuel }
  have hx : (BitVec.ofNat 32 (0x8000 + i)).toNat = 0x8000 + i := toNat_address (width := 16) (by omega) (by omega)
  have hmod : i % prg.length < prg.length := Nat.mod_lt _ (by omega)
  have hcell : (cartRom prg inner).start ≤ i % prg.length ∧ i % prg.length ≤ (cartRom prg inner).last := by
    simp only [cartRom]
    omega
  obtain ⟨e, hload, hreport⟩ := oneMapper_load hone (x := BitVec.ofNat 32 (0x8000 + i)) (by omega)
    (by simp only [cartMapper]; omega) (by rw [hx]; exact translateAddress_cartMapper hprg hi outer inner mem) (by omega) hcell
  refine ⟨e, (runAll_cons hmake _).trans hload, ?_⟩
  rw [hreport, cellWord, cartRom, Nat.sub_zero, Memory.read_ofArray]
  rfl

end Sys2Proof.Machine
end

section
/-! SUPPORT. Relations between the outcomes of two runs of one cascade, over two ways of carrying out its nested operations: the induction
over an operation said once for them (`act_related`). -/

namespace Sys2Proof.Machine

/-! ## How a cascade puts outcomes together -/

/-- What a listener that chooses which errors it handles makes of a command's outcome: it goes on from an `ok` and from an error it
handles (R9, R298). -/
def Res.handledThen (r : Res) (handles : FabricError → Bool) (k : State → Res) : Res :=
  match r with
  | .ok s _ => k s
  | .err s e => if handles e then k s else .err s e
  | .refused w => .refused w

theorem runCommands_cons {nested : Instr → State → Res} {c : ExtCommand} (hc : c.command.isCommand = true) (cs : List ExtCommand)
    (s : State) :
    runCommands nested (c :: cs) s = (nested c.command s).handledThen c.handles (runCommands nested cs) := by
  rw [runCommands, if_pos hc]
  cases nested c.command s <;> rfl

/-- One listener of the dispatch loop: its reaction, an error of it wrapped, then the rest (R155 to R157, R286). -/
theorem deliverAll_cons {nested : Instr → State → Res} {react : State → Listener → Except Refusal Instr} {frame : Nat → Frame}
    {outer : List Frame} {i : Nat} {l : Listener} {ls : List Listener} {s : State} {r : Instr} (hr : react s l = .ok r) :
    deliverAll nested react frame outer i (l :: ls) s =
      (nested r (s.withStack (frame i :: outer))).wrapped.andThen (deliverAll nested react frame outer (i + 1) ls) := by
  rw [deliverAll, hr]
  dsimp only
  cases nested r (s.withStack (frame i :: outer)) <;> rfl

/-- A relation between outcomes that holds of each outcome an operation answers by itself and its own copy, and that every way an
operation puts the outcomes of others together carries over. -/
structure Related (Q : Res → Res → Prop) : Prop where
  ok : ∀ s v, Q (.ok s v) (.ok s v)
  refused : ∀ w, Q (.refused w) (.refused w)
  /-- A checked write raises (R133). -/
  busData : ∀ s b v, Q (.err s (.invalidBusData b v)) (.err s (.invalidBusData b v))
  /-- An external listener fails with an error of its own (R287). -/
  ofListener : ∀ s x code, Q (.err s (.ofListener x code)) (.err s (.ofListener x code))
  /-- An operation goes on from an `ok` (R290). -/
  andThen : ∀ {r r' k k'}, Q r r' → (∀ s, Q (k s) (k' s)) → Q (r.andThen k) (r'.andThen k')
  /-- An external listener goes on from an `ok` or an error it handles (R298). -/
  handledThen : ∀ {r r' h k k'}, Q r r' → (∀ s, Q (k s) (k' s)) → Q (r.handledThen h k) (r'.handledThen h k')
  /-- The dispatch loop or the relay wraps an error (R286). -/
  wrapped : ∀ {r r'}, Q r r' → Q r.wrapped r'.wrapped
  /-- A dispatch ends (R35). -/
  unwound : ∀ {r r'} fs, Q r r' → Q (r.unwound fs) (r'.unwound fs)

section Relating

variable {Q : Res → Res → Prop} (hQ : Related Q) {s : State}
include hQ

/-! ## Units by handle and checks -/

theorem withBus_related {b : Handle} {k k' : Bus → Res} (hk : ∀ u, Q (k u) (k' u)) : Q (withBus s b k) (withBus s b k') := by
  cases hu : s.bus? b with
  | none => rw [withBus_none hu, withBus_none hu]; exact hQ.refused _
  | some u => rw [withBus_some hu, withBus_some hu]; exact hk u

theorem withFlag_related {f : Handle} {k k' : Flag → Res} (hk : ∀ u, Q (k u) (k' u)) : Q (withFlag s f k) (withFlag s f k') := by
  cases hu : s.flag? f with
  | none => rw [withFlag_none hu, withFlag_none hu]; exact hQ.refused _
  | some u => rw [withFlag_some hu, withFlag_some hu]; exact hk u

theorem withClock_related {c : Handle} {k k' : Clock → Res} (hk : ∀ u, Q (k u) (k' u)) :
    Q (withClock s c k) (withClock s c k') := by
  cases hu : s.clock? c with
  | none => rw [withClock_none hu, withClock_none hu]; exact hQ.refused _
  | some u => rw [withClock_some hu, withClock_some hu]; exact hk u

theorem withMap_related {k : Handle} {c c' : Mapper → Res} (hc : ∀ u, Q (c u) (c' u)) : Q (withMap s k c) (withMap s k c') := by
  cases hu : s.map? k with
  | none => rw [withMap_none hu, withMap_none hu]; exact hQ.refused _
  | some u => rw [withMap_some hu, withMap_some hu]; exact hc u

theorem require_related {c : Bool} {w : Refusal} {k k' : Res} (hk : Q k k') : Q (require c w k) (require c w k') := by
  cases c with
  | true => exact hk
  | false => exact hQ.refused w

theorem withFormed_related {dw : Delivery} {k k' : Res} (hk : Q k k') : Q (withFormed dw k) (withFormed dw k') := by
  unfold withFormed
  split
  · exact hk
  · exact hQ.refused _

theorem withPulse_related {dw : Delivery} {k k' : Res} (hk : Q k k') : Q (withPulse dw k) (withPulse dw k') := by
  refine withFormed_related hQ ?_
  split
  · exact hk
  · exact hQ.refused _

theorem withMapReaction_related {k : Handle} {dw : Delivery} {c c' : Mapper → ValueClass → Res}
    (hc : ∀ u cls, Q (c u cls) (c' u cls)) : Q (withMapReaction k dw s c) (withMapReaction k dw s c') := by
  refine withFormed_related hQ (withMap_related hQ fun u => ?_)
  unfold withClass
  cases s.classOf dw.val with
  | none => exact hQ.refused _
  | some cls => exact hc u cls

theorem mapAnswer_related {u : Mapper} {dw : Delivery} {k k' : Word → Res} (hk : ∀ t, Q (k t) (k' t)) :
    Q (mapAnswer u dw s k) (mapAnswer u dw s k') := by
  unfold mapAnswer
  split
  · exact hQ.ok _ _
  · refine withBus_related hQ fun a => ?_
    split
    · exact hQ.ok _ _
    · cases translateAddress u a.value.toNat with
      | error w => exact hQ.refused w
      | ok t => exact hk _

/-! ## Operations that carry out no other -/

theorem busWriteChecked_related (b : Handle) (v : Word) (s : State) : Q (busWriteChecked b v s) (busWriteChecked b v s) := by
  rcases busWriteChecked_cases b v s with ⟨-, h⟩ | ⟨u, -, ⟨-, h⟩ | ⟨-, h⟩⟩
  · rw [h]; exact hQ.refused _
  · rw [h]; exact hQ.ok _ _
  · rw [h]; exact hQ.busData _ _ _

theorem relayWrite_related (b : Handle) (v : Word) (s : State) : Q (relayWrite b v s) (relayWrite b v s) :=
  hQ.wrapped (busWriteChecked_related hQ b v s)

theorem relayCopy_related (dst src : Handle) (s : State) : Q (relayCopy dst src s) (relayCopy dst src s) :=
  withBus_related hQ fun u => relayWrite_related hQ dst u.value s

theorem memAnswer_related {u : Mem} {dw : Delivery} {k : Nat → Res} (hk : ∀ i, Q (k i) (k i)) :
    Q (memAnswer u dw s k) (memAnswer u dw s k) := by
  rcases memAnswer_cases u dw s k with h | h | ⟨a, -, -, -, -, h⟩
  · rw [h]; exact hQ.ok _ _
  · rw [h]; exact hQ.refused _
  · rw [h]; exact hk _

theorem withMemReaction_related {kind : MemKind} {m : Handle} {dw : Delivery} {k : Mem → ValueClass → Res}
    (hk : ∀ u cls, Q (k u cls) (k u cls)) : Q (withMemReaction kind m dw s k) (withMemReaction kind m dw s k) := by
  rcases withMemReaction_cases kind m dw s k with ⟨w, h⟩ | ⟨u, cls, -, -, -, h⟩
  · rw [h]; exact hQ.refused w
  · rw [h]; exact hk u cls

theorem memRead_related (u : Mem) (dw : Delivery) (s : State) : Q (memRead u dw s) (memRead u dw s) :=
  memAnswer_related hQ fun _ => busWriteChecked_related hQ _ _ s

theorem memWrite_related (m : Handle) (u : Mem) (dw : Delivery) (s : State) : Q (memWrite m u dw s) (memWrite m u dw s) := by
  refine memAnswer_related hQ fun i => withBus_related hQ fun d => ?_
  by_cases hv : d.value.toNat < 256
  · rw [cellStore_narrow hv]; exact hQ.ok _ _
  · rw [cellStore_wide hv]; exact hQ.refused _

theorem ramEffect_related (m : Handle) (u : Mem) (dw : Delivery) (s : State) (cls : ValueClass) :
    Q (ramEffect m u dw s cls) (ramEffect m u dw s cls) := by
  cases cls with
  | read => exact memRead_related hQ u dw s
  | write => exact memWrite_related hQ m u dw s
  | other => exact hQ.ok s none

theorem romEffect_related (u : Mem) (dw : Delivery) (s : State) (cls : ValueClass) :
    Q (romEffect u dw s cls) (romEffect u dw s cls) := by
  cases cls with
  | read => exact memRead_related hQ u dw s
  | write => exact hQ.ok s none
  | other => exact hQ.ok s none

theorem runMxlt_related (k : Handle) (a : BitVec 31) (s : State) : Q (runMxlt k a s) (runMxlt k a s) := by
  refine withMap_related hQ fun u => ?_
  cases translateAddress u a.toNat with
  | error w => exact hQ.refused w
  | ok t => exact hQ.ok _ _

theorem runMbsel_related (k : Handle) (bank : Byte) (s : State) : Q (runMbsel k bank s) (runMbsel k bank s) := by
  refine withMap_related hQ fun u => ?_
  cases u.kind with
  | identity => exact hQ.refused _
  | mirrored mask => exact hQ.refused _
  | banked bases sel => exact require_related hQ (hQ.ok _ _)

/-! ## Operations that carry out others -/

variable {nested nested' : Instr → State → Res} (hn : ∀ i s, Q (nested i s) (nested' i s))
include hn

theorem deliverAll_related (react : State → Listener → Except Refusal Instr) (frame : Nat → Frame) (outer : List Frame) (i : Nat)
    (ls : List Listener) (s : State) : Q (deliverAll nested react frame outer i ls s) (deliverAll nested' react frame outer i ls s) := by
  induction ls generalizing i s with
  | nil => exact hQ.ok s none
  | cons l ls ih =>
    cases hr : react s l with
    | error w => rw [deliverAll, deliverAll, hr]; exact hQ.refused w
    | ok r =>
      rw [deliverAll_cons hr, deliverAll_cons hr]
      exact hQ.andThen (hQ.wrapped (hn _ _)) (ih (i + 1))

theorem dispatch_related (react : State → Listener → Except Refusal Instr) (frame : Nat → Frame) (ls : List Listener) (s : State) :
    Q (dispatch nested react frame ls s) (dispatch nested' react frame ls s) :=
  hQ.unwound s.stack (deliverAll_related hQ hn react frame s.stack 0 ls s)

theorem runFset_related (f : Handle) (val : Byte) (s : State) : Q (runFset nested f val s) (runFset nested' f val s) :=
  withFlag_related hQ fun _ => require_related hQ (dispatch_related hQ hn _ _ _ _)

theorem runTick_related (c : Handle) (s : State) : Q (runTick nested c s) (runTick nested' c s) :=
  withClock_related hQ fun _ => require_related hQ (dispatch_related hQ hn _ _ _ s)

theorem pulses_related (c : Handle) (n : Nat) (s : State) : Q (pulses nested c n s) (pulses nested' c n s) := by
  induction n generalizing s with
  | zero => exact hQ.ok s none
  | succ n ih => exact hQ.andThen (runTick_related hQ hn c s) ih

theorem runDivOnt_related (d : Handle) (dw : Delivery) (s : State) : Q (runDivOnt nested d dw s) (runDivOnt nested' d dw s) := by
  refine withPulse_related hQ (withClock_related hQ fun u => ?_)
  cases u.divider with
  | none => exact hQ.refused _
  | some v =>
    dsimp only
    split
    · exact hQ.andThen (hn _ _) fun t => hQ.ok t none
    · exact hQ.ok _ _

theorem runCommands_related (cs : List ExtCommand) (s : State) : Q (runCommands nested cs s) (runCommands nested' cs s) := by
  induction cs generalizing s with
  | nil => exact hQ.ok s none
  | cons c cs ih =>
    by_cases hc : c.command.isCommand = true
    · rw [runCommands_cons hc, runCommands_cons hc]
      exact hQ.handledThen (hn _ s) ih
    · rw [runCommands, runCommands, if_neg hc, if_neg hc]
      exact hQ.refused _

theorem extReact_related (x : Handle) (ev : Event) (s : State) : Q (extReact nested x ev s) (extReact nested' x ev s) := by
  refine hQ.andThen (runCommands_related hQ hn _ _) fun t => ?_
  cases (s.reaction x ev).failure with
  | none => exact hQ.ok t none
  | some code => exact hQ.ofListener t x code

theorem mapEffect_related (u : Mapper) (dw : Delivery) (s : State) (cls : ValueClass) :
    Q (mapEffect nested u dw s cls) (mapEffect nested' u dw s cls) := by
  cases cls with
  | read =>
    exact mapAnswer_related hQ fun t => hQ.andThen (relayWrite_related hQ _ t s) fun s₁ =>
      hQ.andThen (hn _ s₁) fun s₂ => relayCopy_related hQ _ _ s₂
  | write =>
    exact mapAnswer_related hQ fun t => hQ.andThen (relayWrite_related hQ _ t s) fun s₁ =>
      hQ.andThen (relayCopy_related hQ _ _ s₁) fun s₂ => hQ.andThen (hn _ s₂) fun s₃ => hQ.ok s₃ none
  | other =>
    exact mapAnswer_related hQ fun t => hQ.andThen (relayWrite_related hQ _ t s) fun s₁ =>
      hQ.andThen (hn _ s₁) fun s₂ => hQ.ok s₂ none

/-- The outcomes of an operation are related if those of the operations it carries out are. -/
theorem act_related (i : Instr) (s : State) : Q (act nested i s) (act nested' i s) := by
  cases i with
  | brd b => exact withBus_related hQ fun u => hQ.ok s _
  | bwc b v => exact busWriteChecked_related hQ b v s
  | bwm b v => exact withBus_related hQ fun u => hQ.ok _ _
  | fget f => exact withFlag_related hQ fun u => hQ.ok s _
  | fset f val => exact runFset_related hQ hn f val s
  | tick c => exact runTick_related hQ hn c s
  | tickn c n => exact withClock_related hQ fun _ => pulses_related hQ hn c _ s
  | mxlt k a => exact runMxlt_related hQ k a s
  | mbsel k bank => exact runMbsel_related hQ k bank s
  | divOnt d dw => exact runDivOnt_related hQ hn d dw s
  | extOnt x dw => exact withPulse_related hQ (extReact_related hQ hn x _ s)
  | extOnf x dw => exact withFormed_related hQ (extReact_related hQ hn x _ s)
  | ramRd m dw | ramWr m dw | ramOth m dw => exact withMemReaction_related hQ fun u cls => ramEffect_related hQ m u dw s cls
  | romRd m dw | romWr m dw | romOth m dw => exact withMemReaction_related hQ fun u cls => romEffect_related hQ u dw s cls
  | mapRd k dw | mapWr k dw | mapOth k dw => exact withMapReaction_related hQ fun u cls => mapEffect_related hQ hn u dw s cls
  | _ => exact hQ.refused .notACommand

end Relating

end Sys2Proof.Machine
end

section
/-! SUPPORT. The errors a cascade raises: the root cause of every one of them, that a dispatch raises wrapped ones only, and O54. -/

namespace Sys2Proof.Machine

variable {s t : State} {p : FabricError → Prop} {e : FabricError}

/-! ## The error an operation raises -/

/-- The error with which an operation ends, if it ends with one, has a property. -/
def Res.raises (r : Res) (p : FabricError → Prop) : Prop :=
  match r with
  | .ok _ _ => True
  | .err _ e => p e
  | .refused _ => True

theorem andThen_raises {r : Res} {k : State → Res} (h : r.raises p) (hk : ∀ s, (k s).raises p) : (r.andThen k).raises p := by
  cases r with
  | ok s v => exact hk s
  | err s e => exact h
  | refused w => trivial

theorem handledThen_raises {r : Res} {handles : FabricError → Bool} {k : State → Res} (h : r.raises p) (hk : ∀ s, (k s).raises p) :
    (r.handledThen handles k).raises p := by
  cases r with
  | ok s v => exact hk s
  | err s e =>
    rw [Res.handledThen]
    split
    · exact hk s
    · exact h
  | refused w => trivial

theorem wrapped_raises {r : Res} {q : FabricError → Prop} (h : r.raises p) (hpq : ∀ e, p e → q (.signalPropagation e)) :
    r.wrapped.raises q := by
  cases r with
  | ok s v => trivial
  | err s e => exact hpq e h
  | refused w => trivial

theorem unwound_raises {r : Res} (fs : List Frame) (h : r.raises p) : (r.unwound fs).raises p := by
  cases r with
  | ok s v => trivial
  | err s e => exact h
  | refused w => trivial

theorem require_raises {c : Bool} {w : Refusal} {k : Res} (hk : k.raises p) : (require c w k).raises p := by
  cases c with
  | true => exact hk
  | false => trivial

/-! ## Root causes (R287) -/

/-- What a cascade raises: its root cause is InvalidBusData or an external listener's own error. -/
def FabricError.isOfCascade (e : FabricError) : Prop :=
  (∃ b v, e.rootCause = .invalidBusData b v) ∨ ∃ x code, e.rootCause = .ofListener x code

/-- Raising errors with such a root cause only, as a relation that leaves its second outcome free: it says something of one run. -/
theorem isOfCascade_related : Related fun r _ => r.raises FabricError.isOfCascade where
  ok _ _ := trivial
  refused _ := trivial
  busData _ b v := .inl ⟨b, v, rfl⟩
  ofListener _ x code := .inr ⟨x, code, rfl⟩
  andThen := andThen_raises
  handledThen := handledThen_raises
  wrapped h := wrapped_raises h fun _ he => he
  unwound := unwound_raises

/-- Every error out of an operation with its whole cascade has such a root cause. -/
theorem perform_raises_isOfCascade (n : Nat) (i : Instr) (s : State) : (perform n i s).raises FabricError.isOfCascade := by
  induction n generalizing i s with
  | zero => trivial
  | succ n ih => exact act_related isOfCascade_related (nested' := perform n) ih i s

/-! ## Errors out of a dispatch (R286) -/

/-- A SignalPropagationError. -/
def FabricError.isWrapped (e : FabricError) : Prop := ∃ cause, e = .signalPropagation cause

section Dispatched

variable (nested : Instr → State → Res)

theorem deliverAll_raises_isWrapped (react : State → Listener → Except Refusal Instr) (frame : Nat → Frame) (outer : List Frame) (i : Nat)
    (ls : List Listener) (s : State) : (deliverAll nested react frame outer i ls s).raises FabricError.isWrapped := by
  induction ls generalizing i s with
  | nil => trivial
  | cons l ls ih =>
    cases hr : react s l with
    | error w => rw [deliverAll, hr]; trivial
    | ok r =>
      rw [deliverAll_cons hr]
      have hone : (nested r (s.withStack (frame i :: outer))).wrapped.raises FabricError.isWrapped := by
        cases nested r (s.withStack (frame i :: outer)) with
        | ok t v => trivial
        | err t e => exact ⟨e, rfl⟩
        | refused w => trivial
      exact andThen_raises hone (ih (i + 1))

theorem dispatch_raises_isWrapped (react : State → Listener → Except Refusal Instr) (frame : Nat → Frame) (ls : List Listener)
    (s : State) : (dispatch nested react frame ls s).raises FabricError.isWrapped :=
  unwound_raises s.stack (deliverAll_raises_isWrapped nested react frame s.stack 0 ls s)

theorem runFset_raises_isWrapped (f : Handle) (val : Byte) (s : State) : (runFset nested f val s).raises FabricError.isWrapped := by
  cases hu : s.flag? f with
  | none => rw [runFset, withFlag_none hu]; trivial
  | some u => rw [runFset, withFlag_some hu]; exact require_raises (dispatch_raises_isWrapped nested _ _ _ _)

theorem runTick_raises_isWrapped (c : Handle) (s : State) : (runTick nested c s).raises FabricError.isWrapped := by
  cases hu : s.clock? c with
  | none => rw [runTick, withClock_none hu]; trivial
  | some u => rw [runTick, withClock_some hu]; exact require_raises (dispatch_raises_isWrapped nested _ _ _ s)

theorem pulses_raises_isWrapped (c : Handle) (n : Nat) (s : State) : (pulses nested c n s).raises FabricError.isWrapped := by
  induction n generalizing s with
  | zero => trivial
  | succ n ih => exact andThen_raises (runTick_raises_isWrapped nested c s) ih

theorem runTickn_raises_isWrapped (c : Handle) (n : Word) (s : State) : (runTickn nested c n s).raises FabricError.isWrapped := by
  cases hu : s.clock? c with
  | none => rw [runTickn, withClock_none hu]; trivial
  | some u => rw [runTickn, withClock_some hu]; exact pulses_raises_isWrapped nested c _ s

end Dispatched

/-! ## O54 -/

/-- A step that reports an error is an operation that raised it. -/
theorem settle_reports_err {r : Res} (h : settle r = .next t) (he : t.report = some (.err e)) (hp : r.raises p) : p e := by
  rcases settle_next h with ⟨u, v, rfl, rfl⟩ | ⟨u, e', rfl, rfl⟩
  · cases he
  · cases he
    exact hp

/-- Settles O54: the dispatch wraps the error last, and wrapping keeps the root cause, by induction on the depth of the cascade. -/
theorem cascadeErrorsAreSignalPropagation : Obligations.CascadeErrorsAreSignalPropagation := by
  intro s t i e hi hx he
  have hcommand : i.isCommand = true := by
    rcases hi with ⟨f, val, rfl⟩ | ⟨c, rfl⟩ | ⟨c, n, rfl⟩ <;> rfl
  have hwrapped : (perform (s.fuel + 1) i (s.begin i)).raises FabricError.isWrapped := by
    rcases hi with ⟨f, val, rfl⟩ | ⟨c, rfl⟩ | ⟨c, n, rfl⟩
    · exact runFset_raises_isWrapped (perform s.fuel) f val _
    · exact runTick_raises_isWrapped (perform s.fuel) c _
    · exact runTickn_raises_isWrapped (perform s.fuel) c n _
  rw [exec_eq_perform i s (.inl hcommand)] at hx
  exact ⟨settle_reports_err hx he hwrapped, settle_reports_err hx he (perform_raises_isOfCascade _ i _)⟩

end Sys2Proof.Machine
end

section
/-! SUPPORT. The outcome of a cascade does not depend on fuel it leaves over, and O55. -/

namespace Sys2Proof.Machine

/-- The first outcome is want of fuel, or the second is the same. -/
def Res.SameIfFuelled (r r' : Res) : Prop := r = .refused .outOfFuel ∨ r' = r

theorem sameIfFuelled_refl (r : Res) : r.SameIfFuelled r := .inr rfl

/-- Want of fuel ends every operation it occurs in (R300), so what is put together of outcomes that agree agrees. -/
theorem sameIfFuelled_related : Related Res.SameIfFuelled where
  ok _ _ := sameIfFuelled_refl _
  refused _ := sameIfFuelled_refl _
  busData _ _ _ := sameIfFuelled_refl _
  ofListener _ _ _ := sameIfFuelled_refl _
  andThen {_ r' _ _} h hk := by
    rcases h with rfl | rfl
    · exact .inl rfl
    · cases r' with
      | ok s v => exact hk s
      | err s e => exact sameIfFuelled_refl _
      | refused w => exact sameIfFuelled_refl _
  handledThen {_ r' _ _ _} h hk := by
    rcases h with rfl | rfl
    · exact .inl rfl
    · cases r' with
      | ok s v => exact hk s
      | err s e =>
        simp only [Res.handledThen]
        split
        · exact hk s
        · exact sameIfFuelled_refl _
      | refused w => exact sameIfFuelled_refl _
  wrapped h := by
    rcases h with rfl | rfl
    · exact .inl rfl
    · exact sameIfFuelled_refl _
  unwound fs h := by
    rcases h with rfl | rfl
    · exact .inl rfl
    · exact sameIfFuelled_refl _

theorem perform_sameIfFuelled {n m : Nat} (h : n ≤ m) (i : Instr) (s : State) : (perform n i s).SameIfFuelled (perform m i s) := by
  induction n generalizing m i s with
  | zero => exact .inl rfl
  | succ n ih =>
    obtain ⟨m, rfl⟩ := Nat.exists_eq_add_of_le' (Nat.one_le_of_lt h)
    exact act_related sameIfFuelled_related (ih (Nat.le_of_succ_le_succ h)) i s

/-- Settles O55, by induction on the smaller fuel. -/
theorem moreFuelChangesNoOutcome : Obligations.MoreFuelChangesNoOutcome :=
  fun _ _ i s hnm hfuel => (perform_sameIfFuelled hnm i s).resolve_left hfuel

end Sys2Proof.Machine
end
